-- ==== Sys2Proof/Word.lean ====
section
/-! DEFINITION. The two word widths of the block (00_scope.md R5). -/

namespace Sys2Proof

/-- A frame byte (R5: byte width 8). -/
abbrev Byte := BitVec 8

/-- A 16-bit value: address, quantity, both CRCs, one word of `Q.values` (R5). -/
abbrev Half := BitVec 16

end Sys2Proof
end

