-- ==== Sys2Proof/Config.lean ====
section
/-! DEFINITION. What is fixed for the block, its open parameter `CTX_W` (00_scope.md R5), and the one free
value. -/

namespace Sys2Proof

/-- The reflected CRC polynomial (R5). -/
def Config.crcPoly : Half := 0xA001#16

/-- The CRC seed (R5). -/
def Config.crcSeed : Half := 0xFFFF#16

/-- The number of hooks (R5, 10_state.md R28). -/
def Config.hookCount : Nat := 9

/-- The largest bitmap quantity whose byte count fits its byte (44_generator.md R187 (b)). -/
def Config.maxCoils : Nat := 2040

/-- The largest register count whose byte count fits its byte (44_generator.md R187 (c)). -/
def Config.maxRegs : Nat := 127

/-- OPEN PARAMETER `CTX_W` (R5): "OPEN, any width ≥ 0". It has no value here, so every claim holds for
every width (log entry 7). -/
opaque Config.ctxW : Nat

/-- A value of `user_context`, exactly `CTX_W` bits (10_state.md R10, R22). -/
abbrev Context := BitVec Config.ctxW

/-- The embedder's answer to a hook event (42_parser_states.md R123). -/
inductive Reply where
  | ok
  | fail
  deriving DecidableEq, Repr, Inhabited

/-- FREE VALUE (log entry 12): the embedder's answer to the `n`-th hook event that no listed reply
answers. 42_parser_states.md R123: "The reply is a free input: the rules hold for every reply". -/
opaque Config.freeReply : Nat → Reply

end Sys2Proof
end

