-- ==== Sys2Proof/Syntax.lean ====
section
/-! DEFINITION. The instructions of the block, one constructor for each row of opcode_table.json, and
the requests by which the embedder issues an operation (20_memory.md R59). -/

namespace Sys2Proof

/-- The two values of `D.kind` (10_state.md R11). -/
inductive Kind where
  | query
  | response
  deriving DecidableEq, Repr, Inhabited

/-- The three classes of recognized function codes (30_encoding.md R63). -/
inductive FnClass where
  | read
  | single
  | multi
  deriving DecidableEq, Repr

/-- The query descriptor `Q` (10_state.md R25 to R27). `values` is the space VALUES. -/
structure Query where
  slaveAddress : Byte
  function     : Byte
  address      : Half
  quantity     : Half
  values       : List Half
  valueCount   : Nat
  deriving DecidableEq, Repr

/-- A query descriptor whose function code the row fixes: the operands of the rows `G.*`
(44_generator.md R190 to R197). -/
structure GenArgs where
  slaveAddress : Byte
  address      : Half
  quantity     : Half
  values       : List Half
  valueCount   : Nat
  deriving DecidableEq, Repr

/-- One constructor for each row of opcode_table.json.

A `Q.*` or `R.*` row is a whole frame given to PARSER; its operands are the frame's fields as
30_encoding.md R64 to R69 lay them out, the transmitted CRC among them, right or wrong. A data
region is the list of its bytes, and the byte-count byte is the length of that list. -/
inductive Instr where
  -- query frames, 43_parser_frames.md R161 to R168
  | qReadCoils (slave : Byte) (address quantity crc : Half)
  | qReadDiscrete (slave : Byte) (address quantity crc : Half)
  | qReadHoldReg (slave : Byte) (address quantity crc : Half)
  | qReadInputReg (slave : Byte) (address quantity crc : Half)
  | qWriteSingleCoil (slave : Byte) (address value crc : Half)
  | qWriteSingleReg (slave : Byte) (address value crc : Half)
  | qWriteMultiCoils (slave : Byte) (address quantity : Half) (data : List Byte) (crc : Half)
  | qWriteMultiRegs (slave : Byte) (address quantity : Half) (data : List Byte) (crc : Half)
  -- response frames, 43_parser_frames.md R169 to R176
  | rReadCoils (slave : Byte) (data : List Byte) (crc : Half)
  | rReadDiscrete (slave : Byte) (data : List Byte) (crc : Half)
  | rReadHoldReg (slave : Byte) (data : List Byte) (crc : Half)
  | rReadInputReg (slave : Byte) (data : List Byte) (crc : Half)
  | rWriteSingleCoil (slave : Byte) (address value crc : Half)
  | rWriteSingleReg (slave : Byte) (address value crc : Half)
  | rWriteMultiCoils (slave : Byte) (address quantity crc : Half)
  | rWriteMultiRegs (slave : Byte) (address quantity crc : Half)
  -- generated frames, 44_generator.md R190 to R197
  | gReadCoils (q : GenArgs) (capacity : Nat)
  | gReadDiscrete (q : GenArgs) (capacity : Nat)
  | gReadHoldReg (q : GenArgs) (capacity : Nat)
  | gReadInputReg (q : GenArgs) (capacity : Nat)
  | gWriteSingleCoil (q : GenArgs) (capacity : Nat)
  | gWriteSingleReg (q : GenArgs) (capacity : Nat)
  | gWriteMultiCoils (q : GenArgs) (capacity : Nat)
  | gWriteMultiRegs (q : GenArgs) (capacity : Nat)
  -- operations, 20_memory.md R59
  | crcUpdate (c : Half) (b : Byte)
  | crcCompute (s : List Byte)
  | pInit (k : Kind)
  | pReset
  | hReset
  | hSet (h : Nat) (present : Bool)
  | ctxWrite (v : Context)
  | pStep (b : Byte) (i : Nat)
  | pExec (input : List Byte)
  | gGen (q : Query) (capacity : Nat)
  deriving DecidableEq, Repr

/-- What the embedder can ask of the block: the entry points of 20_memory.md R59, each with the
operands that table gives it. A frame reaches the block as the input of `execute`. -/
inductive Request where
  | init (k : Kind)
  | reset
  | resetHooks
  | setHook (h : Nat) (present : Bool)
  | attachContext (v : Context)
  | execute (input : List Byte)
  | stepByte (b : Byte) (i : Nat)
  | generate (q : Query) (capacity : Nat)
  | crc16 (s : List Byte)
  | update (c : Half) (b : Byte)
  deriving DecidableEq, Repr

/-- Why a byte sequence is no whole frame of the given kind. -/
inductive FrameError where
  /-- fewer than two bytes: there is no function byte yet (30_encoding.md R75 (d)) -/
  | noFunctionByte
  /-- the function byte is not one of the eight codes (30_encoding.md R75 (a)) -/
  | unknownFunction
  /-- the sequence ends before its format does (30_encoding.md R75 (d)) -/
  | truncated
  deriving DecidableEq, Repr

end Sys2Proof
end

