-- ==== Sys2Proof/WellFormed.lean ====
section
/-! DEFINITION. Which instructions are well formed: operands that fit the fields they stand for. -/

namespace Sys2Proof

/-- The byte-count byte holds 0 to 255 (30_encoding.md R70). -/
def dataFits (data : List Byte) : Bool := decide (data.length ≤ 255)

/-- The embedder supplies at least the words it counts (10_state.md R27, 20_memory.md R40). -/
def wordsSupplied (values : List Half) (valueCount : Nat) : Bool := decide (valueCount ≤ values.length)

/-- A hook id is 0 to 8 (41_descriptor_ops.md R113). -/
def hookIdFits (h : Nat) : Bool := decide (h < Config.hookCount)

/-- The operands fit their fields. -/
def WellFormed (i : Instr) : Bool :=
  match i with
  | .qReadCoils _ _ _ _ | .qReadDiscrete _ _ _ _ | .qReadHoldReg _ _ _ _ | .qReadInputReg _ _ _ _ => true
  | .qWriteSingleCoil _ _ _ _ | .qWriteSingleReg _ _ _ _ => true
  | .qWriteMultiCoils _ _ _ data _ | .qWriteMultiRegs _ _ _ data _ => dataFits data
  | .rReadCoils _ data _ | .rReadDiscrete _ data _ | .rReadHoldReg _ data _ | .rReadInputReg _ data _ => dataFits data
  | .rWriteSingleCoil _ _ _ _ | .rWriteSingleReg _ _ _ _ => true
  | .rWriteMultiCoils _ _ _ _ | .rWriteMultiRegs _ _ _ _ => true
  -- R189: functions 1 to 4 ignore `values` and `value_count`, whatever they hold
  | .gReadCoils _ _ | .gReadDiscrete _ _ | .gReadHoldReg _ _ | .gReadInputReg _ _ => true
  | .gWriteSingleCoil q _ | .gWriteSingleReg q _ => wordsSupplied q.values q.valueCount
  | .gWriteMultiCoils q _ | .gWriteMultiRegs q _ => wordsSupplied q.values q.valueCount
  | .crcUpdate _ _ | .crcCompute _ => true
  | .pInit _ | .pReset | .hReset | .ctxWrite _ => true
  | .hSet h _ => hookIdFits h
  | .pStep _ _ | .pExec _ => true
  | .gGen q _ => wordsSupplied q.values q.valueCount

end Sys2Proof
end

