-- ==== Sys2Proof/Decode.lean ====
section
/-! DEFINITION. The frame formats (30_encoding.md), the frame decoder and encoder, and the reading of a
request as an instruction. -/

namespace Sys2Proof

/-! ### Byte order (20_memory.md R44, R45; 30_encoding.md R61, R62) -/

/-- Bits 15 to 8 of a 16-bit value. -/
def hiByte (v : Half) : Byte := v.extractLsb' 8 8

/-- Bits 7 to 0 of a 16-bit value. -/
def loByte (v : Half) : Byte := v.extractLsb' 0 8

/-- The 16-bit value whose high byte is `h` and whose low byte is `l` (R61, R62). -/
def joinBytes (h l : Byte) : Half := h ++ l

/-! ### The function-code map (30_encoding.md R63) -/

/-- The class of a function byte; `none` for the 248 codes that are not recognized (R75 (a)). -/
def classify (f : Byte) : Option FnClass :=
  match f.toNat with
  | 1 | 2 | 3 | 4 => some .read
  | 5 | 6 => some .single
  | 15 | 16 => some .multi
  | _ => none

/-- The number of bytes `n` as the byte-count byte holds it (30_encoding.md R66, R67). -/
def countByte (n : Nat) : Byte := BitVec.ofNat 8 n

/-! ### Frame layouts, first transmitted byte first -/

/-- The eight-byte layouts F-RQ, F-SW and F-MWR (R64, R65, R69): two 16-bit fields after the function
byte, each high byte first, then the CRC low byte first. -/
def layoutTwoFields (slave f : Byte) (field1 field2 crc : Half) : List Byte :=
  [slave, f, hiByte field1, loByte field1, hiByte field2, loByte field2, loByte crc, hiByte crc]

/-- The layout F-MWQ (R66): address, quantity, byte count, data, CRC. -/
def layoutMultiQuery (slave f : Byte) (address quantity : Half) (data : List Byte) (crc : Half) : List Byte :=
  [slave, f, hiByte address, loByte address, hiByte quantity, loByte quantity, countByte data.length] ++ data ++
    [loByte crc, hiByte crc]

/-- The layout F-RR (R67): byte count, data, CRC. -/
def layoutReadResponse (slave f : Byte) (data : List Byte) (crc : Half) : List Byte :=
  [slave, f, countByte data.length] ++ data ++ [loByte crc, hiByte crc]

/-! ### The frame decoder -/

/-- Two 16-bit fields and the CRC, with what follows them (R64, R65, R69). -/
def takeTwoFields (bs : List Byte) : Except FrameError ((Half × Half × Half) × List Byte) :=
  match bs with
  | a :: b :: c :: d :: cl :: ch :: rest => .ok ((joinBytes a b, joinBytes c d, joinBytes ch cl), rest)
  | _ => .error .truncated

/-- A byte count, that many data bytes and the CRC, with what follows them (R66, R67). -/
def takeData (bs : List Byte) : Except FrameError ((List Byte × Half) × List Byte) :=
  match bs with
  | [] => .error .truncated
  | n :: tail =>
    if n.toNat ≤ tail.length then
      match tail.drop n.toNat with
      | cl :: ch :: rest => .ok ((tail.take n.toNat, joinBytes ch cl), rest)
      | _ => .error .truncated
    else .error .truncated

/-- An address, a quantity and then `takeData` (R66). -/
def takeMulti (bs : List Byte) : Except FrameError ((Half × Half × List Byte × Half) × List Byte) :=
  match bs with
  | a :: b :: c :: d :: tail =>
    match takeData tail with
    | .ok ((data, crc), rest) => .ok ((joinBytes a b, joinBytes c d, data, crc), rest)
    | .error e => .error e
  | _ => .error .truncated

/-- The row `mk` whose fields are two 16-bit fields and the CRC. -/
def readTwoFields (mk : Half → Half → Half → Instr) (bs : List Byte) : Except FrameError (Instr × List Byte) :=
  match takeTwoFields bs with
  | .ok ((a, b, crc), rest) => .ok (mk a b crc, rest)
  | .error e => .error e

/-- The row `mk` whose fields are address, quantity, data and the CRC. -/
def readMulti (mk : Half → Half → List Byte → Half → Instr) (bs : List Byte) : Except FrameError (Instr × List Byte) :=
  match takeMulti bs with
  | .ok ((a, q, data, crc), rest) => .ok (mk a q data crc, rest)
  | .error e => .error e

/-- The row `mk` whose fields are data and the CRC. -/
def readData (mk : List Byte → Half → Instr) (bs : List Byte) : Except FrameError (Instr × List Byte) :=
  match takeData bs with
  | .ok ((data, crc), rest) => .ok (mk data crc, rest)
  | .error e => .error e

/-- The query row of function byte `f`, read from the bytes after it (R79, first row). -/
def decodeQuery (slave f : Byte) (bs : List Byte) : Except FrameError (Instr × List Byte) :=
  match f.toNat with
  | 1 => readTwoFields (.qReadCoils slave) bs
  | 2 => readTwoFields (.qReadDiscrete slave) bs
  | 3 => readTwoFields (.qReadHoldReg slave) bs
  | 4 => readTwoFields (.qReadInputReg slave) bs
  | 5 => readTwoFields (.qWriteSingleCoil slave) bs
  | 6 => readTwoFields (.qWriteSingleReg slave) bs
  | 15 => readMulti (.qWriteMultiCoils slave) bs
  | 16 => readMulti (.qWriteMultiRegs slave) bs
  | _ => .error .unknownFunction

/-- The response row of function byte `f`, read from the bytes after it (R79, second row). -/
def decodeResponse (slave f : Byte) (bs : List Byte) : Except FrameError (Instr × List Byte) :=
  match f.toNat with
  | 1 => readData (.rReadCoils slave) bs
  | 2 => readData (.rReadDiscrete slave) bs
  | 3 => readData (.rReadHoldReg slave) bs
  | 4 => readData (.rReadInputReg slave) bs
  | 5 => readTwoFields (.rWriteSingleCoil slave) bs
  | 6 => readTwoFields (.rWriteSingleReg slave) bs
  | 15 => readTwoFields (.rWriteMultiCoils slave) bs
  | 16 => readTwoFields (.rWriteMultiRegs slave) bs
  | _ => .error .unknownFunction

/-- The frame at the front of a byte sequence, as a descriptor of kind `k` reads it, with the bytes
after it (30_encoding.md R79, R80). -/
def decodeFrame (k : Kind) (bs : List Byte) : Except FrameError (Instr × List Byte) :=
  match bs with
  | slave :: f :: tail =>
    match k with
    | .query => decodeQuery slave f tail
    | .response => decodeResponse slave f tail
  | _ => .error .noFunctionByte

/-! ### Requests as instructions -/

/-- `Q` without its function code. -/
def Query.args (q : Query) : GenArgs :=
  { slaveAddress := q.slaveAddress, address := q.address, quantity := q.quantity, values := q.values, valueCount := q.valueCount }

/-- `Q` with function code `f`. -/
def GenArgs.withFunction (a : GenArgs) (f : Byte) : Query :=
  { slaveAddress := a.slaveAddress, function := f, address := a.address, quantity := a.quantity, values := a.values,
    valueCount := a.valueCount }

/-- The `G.*` row that `Q.function` selects (30_encoding.md R80); G.GEN itself for a code of no row. -/
def decodeGenerate (q : Query) (capacity : Nat) : Instr :=
  match q.function.toNat with
  | 1 => .gReadCoils q.args capacity
  | 2 => .gReadDiscrete q.args capacity
  | 3 => .gReadHoldReg q.args capacity
  | 4 => .gReadInputReg q.args capacity
  | 5 => .gWriteSingleCoil q.args capacity
  | 6 => .gWriteSingleReg q.args capacity
  | 15 => .gWriteMultiCoils q.args capacity
  | 16 => .gWriteMultiRegs q.args capacity
  | _ => .gGen q capacity

/-- The row that the input of a P.EXEC is, when the parser stands at a frame start of kind `k`
(`mode = some k`) and the input is exactly one frame of that kind; P.EXEC itself otherwise (log
entry 14). -/
def decodeExecute (mode : Option Kind) (input : List Byte) : Instr :=
  match mode with
  | none => .pExec input
  | some k =>
    match decodeFrame k input with
    | .ok (i, []) => i
    | _ => .pExec input

/-- The instruction that a request is. -/
def decode (mode : Option Kind) (r : Request) : Instr :=
  match r with
  | .init k => .pInit k
  | .reset => .pReset
  | .resetHooks => .hReset
  | .setHook h p => .hSet h p
  | .attachContext v => .ctxWrite v
  | .execute input => decodeExecute mode input
  | .stepByte b i => .pStep b i
  | .generate q capacity => decodeGenerate q capacity
  | .crc16 s => .crcCompute s
  | .update c b => .crcUpdate c b

/-! ### The encoder -/

/-- The request by which an instruction is issued; for a frame row, the frame's bytes. -/
def encode (i : Instr) : Request :=
  match i with
  | .qReadCoils s a q c => .execute (layoutTwoFields s 0x01 a q c)
  | .qReadDiscrete s a q c => .execute (layoutTwoFields s 0x02 a q c)
  | .qReadHoldReg s a q c => .execute (layoutTwoFields s 0x03 a q c)
  | .qReadInputReg s a q c => .execute (layoutTwoFields s 0x04 a q c)
  | .qWriteSingleCoil s a v c => .execute (layoutTwoFields s 0x05 a v c)
  | .qWriteSingleReg s a v c => .execute (layoutTwoFields s 0x06 a v c)
  | .qWriteMultiCoils s a q d c => .execute (layoutMultiQuery s 0x0F a q d c)
  | .qWriteMultiRegs s a q d c => .execute (layoutMultiQuery s 0x10 a q d c)
  | .rReadCoils s d c => .execute (layoutReadResponse s 0x01 d c)
  | .rReadDiscrete s d c => .execute (layoutReadResponse s 0x02 d c)
  | .rReadHoldReg s d c => .execute (layoutReadResponse s 0x03 d c)
  | .rReadInputReg s d c => .execute (layoutReadResponse s 0x04 d c)
  | .rWriteSingleCoil s a v c => .execute (layoutTwoFields s 0x05 a v c)
  | .rWriteSingleReg s a v c => .execute (layoutTwoFields s 0x06 a v c)
  | .rWriteMultiCoils s a q c => .execute (layoutTwoFields s 0x0F a q c)
  | .rWriteMultiRegs s a q c => .execute (layoutTwoFields s 0x10 a q c)
  | .gReadCoils q n => .generate (q.withFunction 0x01) n
  | .gReadDiscrete q n => .generate (q.withFunction 0x02) n
  | .gReadHoldReg q n => .generate (q.withFunction 0x03) n
  | .gReadInputReg q n => .generate (q.withFunction 0x04) n
  | .gWriteSingleCoil q n => .generate (q.withFunction 0x05) n
  | .gWriteSingleReg q n => .generate (q.withFunction 0x06) n
  | .gWriteMultiCoils q n => .generate (q.withFunction 0x0F) n
  | .gWriteMultiRegs q n => .generate (q.withFunction 0x10) n
  | .crcUpdate c b => .update c b
  | .crcCompute s => .crc16 s
  | .pInit k => .init k
  | .pReset => .reset
  | .hReset => .resetHooks
  | .hSet h p => .setHook h p
  | .ctxWrite v => .attachContext v
  | .pStep b n => .stepByte b n
  | .pExec input => .execute input
  | .gGen q n => .generate q n

/-- The descriptor kind a frame row applies to (opcode_table.json, "kind" of a PARSER row); `none` for
the rows that are no frame given to PARSER. -/
def frameKind (i : Instr) : Option Kind :=
  match i with
  | .qReadCoils _ _ _ _ | .qReadDiscrete _ _ _ _ | .qReadHoldReg _ _ _ _ | .qReadInputReg _ _ _ _ => some .query
  | .qWriteSingleCoil _ _ _ _ | .qWriteSingleReg _ _ _ _ => some .query
  | .qWriteMultiCoils _ _ _ _ _ | .qWriteMultiRegs _ _ _ _ _ => some .query
  | .rReadCoils _ _ _ | .rReadDiscrete _ _ _ | .rReadHoldReg _ _ _ | .rReadInputReg _ _ _ => some .response
  | .rWriteSingleCoil _ _ _ _ | .rWriteSingleReg _ _ _ _ => some .response
  | .rWriteMultiCoils _ _ _ _ | .rWriteMultiRegs _ _ _ _ => some .response
  | .gReadCoils _ _ | .gReadDiscrete _ _ | .gReadHoldReg _ _ | .gReadInputReg _ _ => none
  | .gWriteSingleCoil _ _ | .gWriteSingleReg _ _ | .gWriteMultiCoils _ _ | .gWriteMultiRegs _ _ => none
  | .crcUpdate _ _ | .crcCompute _ => none
  | .pInit _ | .pReset | .hReset | .hSet _ _ | .ctxWrite _ => none
  | .pStep _ _ | .pExec _ | .gGen _ _ => none

/-- The bytes of a frame row, empty for the other rows. -/
def frameBytes (i : Instr) : List Byte :=
  match frameKind i, encode i with
  | some _, .execute bs => bs
  | _, _ => []

/-! ### Table words -/

/-- `n` bytes of `w`, the least significant first. -/
def bytesOf (n w : Nat) : List Byte :=
  match n with
  | 0 => []
  | m + 1 => BitVec.ofNat 8 w :: bytesOf m (w / 256)

/-- The frame whose function byte and following bytes are the `nbits` bits of `w` and whose other
bytes, the slave address among them, are 0. The table numbers bits from the function byte
(30_encoding.md R80); 264 zeros are the longest rest a frame can have (R70). -/
def tableFrame (nbits w : Nat) : List Byte :=
  0#8 :: (bytesOf (nbits / 8) w ++ List.replicate 264 0#8)

/-- The instruction the decoder reads from a table word. The word holds no kind; the decoder reads it
as a query, the kind numbered 0 (10_state.md R11; log entry 14). -/
def decodeTableWord (nbits w : Nat) : Option Instr :=
  match decodeFrame .query (tableFrame nbits w) with
  | .ok (i, _) => some i
  | .error _ => none

end Sys2Proof
end

