-- ==== Sys2Proof/Machine/State.lean ====
section
/-! DEFINITION. The state of one instance (10_state.md), the reasons a step can stop, and the state
after hardware reset. Plain data. -/

namespace Sys2Proof.Machine

/-- The thirteen values of `D.state` (10_state.md R12), in wire order. -/
inductive ParserState where
  | slaveAddress
  | function
  | byteCount
  | singleAddrHi
  | singleAddrLo
  | startAddrHi
  | startAddrLo
  | qtyHi
  | qtyLo
  | data
  | crcLo
  | crcHi
  | complete
  deriving DecidableEq, Repr

/-- The four values of `D.error` (10_state.md R21, 60_exceptions.md R211). -/
inductive ErrorKind where
  | none
  | crcMismatch
  | unknownFunction
  | hookAborted
  deriving DecidableEq, Repr

/-- The nine hooks (10_state.md R28), in the order of their ids. -/
inductive Hook where
  | onSlaveAddress
  | onFunction
  | onAddress
  | onQuantity
  | onByteCount
  | onDataStart
  | onDataEnd
  | onCrcError
  | onComplete
  deriving DecidableEq, Repr

/-- The pair `D.payload` (10_state.md R18). -/
structure Payload where
  offset : Nat
  length : Byte
  deriving DecidableEq, Repr

/-- The frame descriptor `D` (10_state.md R10). -/
structure Desc where
  kind         : Kind
  state        : ParserState
  slaveAddress : Byte
  function     : Byte
  address      : Half
  quantity     : Half
  byteCount    : Byte
  payload      : Payload
  frameCrc     : Half
  runningCrc   : Half
  error        : ErrorKind
  userContext  : Context
  dataLen      : Byte
  dataCnt      : Byte
  deriving DecidableEq, Repr

/-- A hook event: the hook and every descriptor register at that moment (42_parser_states.md R123). -/
structure Event where
  hook     : Hook
  snapshot : Desc
  deriving DecidableEq, Repr

/-- What an operation returns (20_memory.md R59). -/
inductive Result where
  /-- the operation returns nothing -/
  | nothing
  /-- the consumed count of P.EXEC (42_parser_states.md R143) -/
  | consumed (n : Nat)
  /-- the signed result of G.GEN: a length, −1 or −2 (60_exceptions.md R211) -/
  | generated (r : Int)
  /-- the value of CRC.UPDATE or CRC.COMPUTE (40_crc.md R100, R101) -/
  | crc (c : Half)
  deriving DecidableEq, Repr

/-- A byte space (20_memory.md R40): pairs of index and byte, indices strictly rising. An index that is
not listed has no value (log entries 5 and 6). -/
abbrev Memory := List Host.Cell

/-- The canonical form of a byte space. No listed byte can equal what an unlisted index reads as, since
that is no value at all. -/
abbrev Memory.wf (m : Memory) : Prop := m.Pairwise (fun x y => x.1 < y.1)

/-- One instance of the block, the embedder's buffers as the latest call presented them, what the
latest operation showed outside, and the embedder's coming requests and replies. -/
structure State where
  /-- the frame descriptor `D` -/
  d           : Desc
  /-- `HOOK_EN`, bit `h` for hook `h` (10_state.md R28) -/
  hookEn      : BitVec 9
  /-- `Q`, with VALUES, as the latest G.GEN presented it (log entry 4) -/
  query       : Query
  /-- IN of the latest P.EXEC or P.STEP (log entry 5) -/
  input       : Memory
  /-- OUT (log entry 6) -/
  out         : Memory
  /-- P.INIT has been applied since hardware reset (70_reset_and_hazards.md R240; log entry 10) -/
  initialised : Bool
  /-- H.RESET has been applied since hardware reset (70_reset_and_hazards.md R242; log entry 11) -/
  hooksReset  : Bool
  /-- the embedder's coming hook replies, oldest first (log entry 12) -/
  replies     : List Reply
  /-- how many free replies have been used (log entry 12) -/
  freeReplies : Nat
  /-- what the latest operation returned (log entry 9) -/
  result      : Result
  /-- the hook events of the latest operation, oldest first (log entry 9) -/
  events      : List Event
  /-- the operations issued and not yet begun, oldest first (log entry 1) -/
  requests    : List Request
  deriving DecidableEq, Repr

/-- Why the machine stops with a fault. -/
inductive Fault where
  /-- Raised by `storeByte` for a descriptor that has no rule for the next byte: state `qty-lo` with a
  kind and function that 42_parser_states.md R136 calls unreachable. SAFE: no run from P.INIT reaches
  it (log entry 15). -/
  | noParserRule
  deriving DecidableEq, Repr

/-- Why the model gives an operation no meaning. -/
inductive Refusal where
  /-- Raised by `exec` for an instruction that has no meaning yet. SAFE. -/
  | notModelled (mnemonic : String)
  /-- Raised by P.EXEC, P.STEP, P.RESET and the frame rows before the first P.INIT
  (70_reset_and_hazards.md R240, R242; 41_descriptor_ops.md R111). SAFE. -/
  | uninitialised
  /-- Raised when a hook is due and no H.RESET has been applied (70_reset_and_hazards.md R242; log entries 11
  and 24). SAFE. -/
  | hooksUndefined
  /-- Raised by H.SET with an id above 8 (41_descriptor_ops.md R113). SAFE. -/
  | hookIdOutOfRange
  /-- Raised by P.STEP with an error latched or in `complete` (42_parser_states.md R122). SAFE. -/
  | stepGated
  /-- Raised by G.GEN and the `G.*` rows outside the preconditions of 44_generator.md R187, or where a
  word the embedder counted is not there (10_state.md R27). SAFE. -/
  | generatorPrecondition
  deriving DecidableEq, Repr

/-- `D` as P.INIT(k) leaves it, with `user_context` kept (10_state.md R32, 41_descriptor_ops.md R110). -/
def Desc.fresh (k : Kind) (userContext : Context) : Desc :=
  { kind := k, state := .slaveAddress, slaveAddress := 0#8, function := 0#8, address := 0#16, quantity := 0#16,
    byteCount := 0#8, payload := { offset := 0, length := 0#8 }, frameCrc := 0#16, runningCrc := Config.crcSeed,
    error := .none, userContext := userContext, dataLen := 0#8, dataCnt := 0#8 }

/-- The state after hardware reset. The spec leaves every register unspecified there
(70_reset_and_hazards.md R240); the values are those of P.INIT(Query), zero for `user_context`,
`HOOK_EN` and `Q` (DESIGN CHOICE, log entries 2, 3, 4). -/
def State.reset : State :=
  { d := Desc.fresh .query (BitVec.zero Config.ctxW), hookEn := 0#9,
    query := { slaveAddress := 0#8, function := 0#8, address := 0#16, quantity := 0#16, values := [], valueCount := 0 },
    input := [], out := [], initialised := false, hooksReset := false, replies := [], freeReplies := 0,
    result := .nothing, events := [], requests := [] }

end Sys2Proof.Machine
end

