-- ==== Sys2Proof/Machine/Operands.lean ====
section
/-! DEFINITION. Operand forms: fields assembled from bytes, words of `Q.values`, the bytes of a
generated frame, and the numbers a register read-out shows. -/

namespace Sys2Proof.Machine

/-! ### Fields assembled by PARSER (30_encoding.md R61, R62) -/

/-- A 16-bit field after its high byte: `zext_16(b) << 8` (42_parser_states.md R130, R132, R134). -/
def highPart (b : Byte) : Half := b.setWidth 16 <<< 8

/-- A byte as the low part of a 16-bit field: `zext_16(b)` (R131, R133, R135, R138). -/
def lowPart (b : Byte) : Half := b.setWidth 16

/-! ### Words of VALUES (20_memory.md R43) -/

/-- Word `j` of `Q.values`; none at an index the embedder does not count (10_state.md R27) or supply. -/
def wordAt (q : Query) (j : Nat) : Option Half :=
  if j < q.valueCount then q.values[j]? else none

/-- Data byte `k` of a coil bitmap: the low byte of word `k div 2` for an even `k`, its high byte for an
odd one (44_generator.md R196, 20_memory.md R47). -/
def coilByte (q : Query) (k : Nat) : Option Byte :=
  (wordAt q (k / 2)).map fun (w : Half) => BitVec.setWidth 8 (w >>> (8 * (k % 2)))

/-- `ceil(quantity / 8)`, without wrap (44_generator.md R199). -/
def coilByteCount (quantity : Half) : Nat := (quantity.toNat + 7) / 8

/-- `ceil(quantity / 16)` (44_generator.md R187 (b)). -/
def coilWordCount (quantity : Half) : Nat := (quantity.toNat + 15) / 16

/-- All the values of a list, none where one is missing. -/
def allSome (xs : List (Option α)) : Option (List α) :=
  match xs with
  | [] => some []
  | none :: _ => none
  | some x :: rest => (allSome rest).map (x :: ·)

/-- The data bytes of a coil bitmap (44_generator.md R196). -/
def coilData (q : Query) : Option (List Byte) :=
  allSome ((List.range (coilByteCount q.quantity)).map (coilByte q))

/-- The two bytes of register word `j`, high byte first (44_generator.md R197). -/
def registerBytes (q : Query) (j : Nat) : Option (List Byte) :=
  (wordAt q j).map fun w => [hiByte w, loByte w]

/-- The data bytes of a register write (44_generator.md R197). -/
def registerData (q : Query) : Option (List Byte) :=
  (allSome ((List.range q.valueCount).map (registerBytes q))).map List.flatten

/-- The quantity a register write emits: `value_count` where `Q.quantity` is 0, that is unspecified
(44_generator.md R197). -/
def emittedQuantity (q : Query) : Half :=
  if q.quantity = 0#16 then BitVec.ofNat 16 q.valueCount else q.quantity

/-! ### Numbers of the register read-out -/

/-- `Query = 0`, `Response = 1` (10_state.md R11). -/
def kindCode (k : Kind) : Nat :=
  match k with
  | .query => 0
  | .response => 1

/-- The number of a parser state (10_state.md R12). -/
def stateCode (s : ParserState) : Nat :=
  match s with
  | .slaveAddress => 0
  | .function => 1
  | .byteCount => 2
  | .singleAddrHi => 3
  | .singleAddrLo => 4
  | .startAddrHi => 5
  | .startAddrLo => 6
  | .qtyHi => 7
  | .qtyLo => 8
  | .data => 9
  | .crcLo => 10
  | .crcHi => 11
  | .complete => 12

/-- The code of an error (60_exceptions.md R211). -/
def errorCode (e : ErrorKind) : Nat :=
  match e with
  | .none => 0
  | .crcMismatch => 1
  | .unknownFunction => 2
  | .hookAborted => 3

/-- The id of a hook (10_state.md R28), which is its bit in `HOOK_EN`. -/
def hookId (h : Hook) : Nat :=
  match h with
  | .onSlaveAddress => 0
  | .onFunction => 1
  | .onAddress => 2
  | .onQuantity => 3
  | .onByteCount => 4
  | .onDataStart => 5
  | .onDataEnd => 6
  | .onCrcError => 7
  | .onComplete => 8

/-- The result of G.GEN for `buffer-too-small` (60_exceptions.md R211). -/
def bufferTooSmall : Int := -1

/-- The result of G.GEN for `unknown-function` (60_exceptions.md R211). -/
def unknownFunctionResult : Int := -2

end Sys2Proof.Machine
end

