-- ==== Sys2Proof/Machine/Flags.lean ====
section
/-! DEFINITION. The checksum, the tests on it, and the next-state branches: everything PARSER computes
about a byte apart from where it stores it. -/

namespace Sys2Proof.Machine

/-! ### The checksum (40_crc.md R100, R101) -/

/-- One shift of the CRC register (R100). -/
def crcShift (x : Half) : Half :=
  if x.getLsbD 0 then (x >>> 1) ^^^ Config.crcPoly else x >>> 1

/-- `n` shifts. -/
def crcShifts (n : Nat) (x : Half) : Half :=
  match n with
  | 0 => x
  | m + 1 => crcShifts m (crcShift x)

/-- `crc_update(c, b)` (R100): the byte enters the low byte of `c`, then eight shifts. -/
def crcUpdate (c : Half) (b : Byte) : Half := crcShifts 8 (c ^^^ b.setWidth 16)

/-- `fold(c, s)` (R103). -/
def crcFold (c : Half) (s : List Byte) : Half := s.foldl crcUpdate c

/-- `crc16(s)` (R101). -/
def crc16 (s : List Byte) : Half := crcFold Config.crcSeed s

/-! ### Tests on the descriptor -/

/-- The state is one of the two CRC states, whose bytes are not checksummed (42_parser_states.md R122). -/
def inCrcState (d : Desc) : Bool := d.state = .crcLo || d.state = .crcHi

/-- No byte may be consumed (42_parser_states.md R121). -/
def gated (d : Desc) : Bool := d.error ≠ .none || d.state = .complete

/-- Hook `h` is present (42_parser_states.md R123). -/
def hookPresent (hookEn : BitVec 9) (h : Hook) : Bool := hookEn.getLsbD (hookId h)

/-! ### Next-state branches -/

/-- `branch(kind, f)` (42_parser_states.md R128). -/
def branch (k : Kind) (c : FnClass) : ParserState :=
  match k, c with
  | .response, .read => .byteCount
  | .query, .read => .startAddrHi
  | _, .single => .singleAddrHi
  | _, .multi => .startAddrHi

/-- `after_qty(kind, f)` (42_parser_states.md R136); none for the pairs that table calls unreachable. -/
def afterQty (k : Kind) (c : Option FnClass) : Option ParserState :=
  match k, c with
  | .query, some .read => some .crcLo
  | .query, some .multi => some .byteCount
  | .response, some .multi => some .crcLo
  | .response, some .read => none
  | _, some .single => none
  | _, none => none

end Sys2Proof.Machine
end

