-- ==== Sys2Proof/Machine/Ops.lean ====
section
/-! DEFINITION. The named operations over the byte spaces and the registers, on which every meaning is
built: the embedder presenting an operation's inputs, the parser's phases, error entry, hook events. -/

namespace Sys2Proof.Machine

/-! ### Outcomes -/

/-- The outcome of one step of the model. -/
abbrev Outcome (α : Type) := Host.Outcome α Fault Refusal

/-- Go on with `f` where `o` answers next. -/
def andThen (o : Outcome α) (f : α → Outcome β) : Outcome β :=
  match o with
  | .next a => f a
  | .fault r => .fault r
  | .refused r => .refused r

/-- The value of an outcome that answers next. -/
def nextValue (o : Outcome α) : Option α :=
  match o with
  | .next a => some a
  | .fault _ => none
  | .refused _ => none

/-! ### Byte spaces (20_memory.md R40, R49) -/

/-- The byte at index `a`, none where no byte is listed. -/
def Memory.read (m : Memory) (a : Nat) : Option Byte :=
  match m with
  | [] => none
  | c :: rest => if c.1 = a then some c.2 else Memory.read rest a

/-- Write byte `v` at index `a`; the list stays sorted. -/
def Memory.write (m : Memory) (a : Nat) (v : Byte) : Memory :=
  match m with
  | [] => [(a, v)]
  | c :: rest =>
    if a < c.1 then (a, v) :: c :: rest
    else if a = c.1 then (a, v) :: rest
    else c :: Memory.write rest a v

/-- Write the bytes at `a`, `a + 1`, ... in ascending order (44_generator.md R188). -/
def Memory.writeFrom (m : Memory) (a : Nat) (bs : List Byte) : Memory :=
  match bs with
  | [] => m
  | b :: rest => Memory.writeFrom (Memory.write m a b) (a + 1) rest

/-- The space that holds exactly the bytes of `bs` at `a`, `a + 1`, ... -/
def Memory.ofBytes (a : Nat) (bs : List Byte) : Memory :=
  match bs with
  | [] => []
  | b :: rest => (a, b) :: Memory.ofBytes (a + 1) rest

/-! ### What the embedder presents with an operation -/

/-- An operation begins: what the one before it returned and emitted is no longer shown (log entry 9). -/
def State.begin (s : State) : State := { s with result := .nothing, events := [] }

/-- The embedder presents the input of a call: IN holds these bytes at 0, 1, ... and nothing else
(20_memory.md R40, R41). -/
def State.presentInput (s : State) (input : List Byte) : State := { s with input := Memory.ofBytes 0 input }

/-- The embedder presents one byte, `b = IN[i]` (42_parser_states.md R122). -/
def State.presentByte (s : State) (i : Nat) (b : Byte) : State := { s with input := Memory.write s.input i b }

/-- The embedder presents the query descriptor (10_state.md R25). -/
def State.presentQuery (s : State) (q : Query) : State := { s with query := q }

/-- The operation returns `r`. -/
def State.returns (s : State) (r : Result) : State := { s with result := r }

/-! ### Descriptor registers -/

/-- Replace the descriptor. -/
def State.setDesc (s : State) (d : Desc) : State := { s with d := d }

/-- `D.payload <- (offset 0, length 0)` (42_parser_states.md R120). -/
def Desc.clearPayload (d : Desc) : Desc := { d with payload := { offset := 0, length := 0#8 } }

/-- `D.state <- t` (42_parser_states.md R122, phase 4). -/
def Desc.advance (d : Desc) (t : ParserState) : Desc := { d with state := t }

/-- Phase 1: fold the byte into `running_crc`, but for the two CRC states (42_parser_states.md R122). -/
def Desc.checksum (d : Desc) (b : Byte) : Desc :=
  if inCrcState d then d else { d with runningCrc := crcUpdate d.runningCrc b }

/-- ERROR ENTRY, the one way an error is latched (60_exceptions.md R218, R219): the first error stays,
no other register changes, no control is transferred. Its only ways back are P.INIT and P.RESET (R221). -/
def Desc.raise (d : Desc) (e : ErrorKind) : Desc := if d.error = .none then { d with error := e } else d

/-- The payload window after the data byte at input index `i` (10_state.md R18 (c)). -/
def Payload.extend (p : Payload) (i : Nat) : Payload :=
  { offset := if p.length = 0#8 then i else p.offset, length := p.length + 1#8 }

/-! ### Phase 2: the store of each state (42_parser_states.md R125 to R139) -/

/-- What the rule of a state yields: the descriptor, the hooks due, the next state. -/
structure Stored where
  d     : Desc
  hooks : List Hook
  next  : ParserState
  deriving DecidableEq, Repr

/-- R125. -/
def storeSlaveAddress (b : Byte) (d : Desc) : Stored :=
  { d := { d with slaveAddress := b }, hooks := [.onSlaveAddress], next := .function }

/-- R126 for a recognized code, R127 for any other. -/
def storeFunction (b : Byte) (d : Desc) : Stored :=
  match classify b with
  | some c => { d := { d with function := b }, hooks := [.onFunction], next := branch d.kind c }
  | none => { d := { d with function := b }.raise .unknownFunction, hooks := [], next := .function }

/-- R129. -/
def storeByteCount (b : Byte) (d : Desc) : Stored :=
  { d := { d with byteCount := b, dataLen := b, dataCnt := 0#8 }, hooks := [.onByteCount],
    next := if b = 0#8 then .crcLo else .data }

/-- R130. -/
def storeSingleAddrHi (b : Byte) (d : Desc) : Stored :=
  { d := { d with address := highPart b }, hooks := [], next := .singleAddrLo }

/-- R131. -/
def storeSingleAddrLo (b : Byte) (d : Desc) : Stored :=
  { d := { d with address := d.address ||| lowPart b, dataLen := 2#8, dataCnt := 0#8 }, hooks := [.onAddress],
    next := .data }

/-- R132. -/
def storeStartAddrHi (b : Byte) (d : Desc) : Stored :=
  { d := { d with address := highPart b }, hooks := [], next := .startAddrLo }

/-- R133. -/
def storeStartAddrLo (b : Byte) (d : Desc) : Stored :=
  { d := { d with address := d.address ||| lowPart b }, hooks := [.onAddress], next := .qtyHi }

/-- R134. -/
def storeQtyHi (b : Byte) (d : Desc) : Stored :=
  { d := { d with quantity := highPart b }, hooks := [], next := .qtyLo }

/-- R135 and R136; none for the kinds and functions R136 calls unreachable. -/
def storeQtyLo (b : Byte) (d : Desc) : Option Stored :=
  (afterQty d.kind (classify d.function)).map fun t =>
    { d := { d with quantity := d.quantity ||| lowPart b }, hooks := [.onQuantity], next := t }

/-- R137, for the data byte at input index `i`. -/
def storeData (i : Nat) (d : Desc) : Stored :=
  let cnt := d.dataCnt + 1#8
  { d := { d with payload := d.payload.extend i, dataCnt := cnt },
    hooks := (if cnt = 1#8 then [.onDataStart] else []) ++ (if cnt = d.dataLen then [.onDataEnd] else []),
    next := if cnt = d.dataLen then .crcLo else .data }

/-- R138. -/
def storeCrcLo (b : Byte) (d : Desc) : Stored :=
  { d := { d with frameCrc := lowPart b }, hooks := [], next := .crcHi }

/-- R139: the state is already `complete` when `on-complete` fires. -/
def storeCrcHi (b : Byte) (d : Desc) : Stored :=
  let crc := d.frameCrc ||| highPart b
  if crc = d.runningCrc then
    { d := { d with frameCrc := crc, state := .complete }, hooks := [.onComplete], next := .complete }
  else { d := { d with frameCrc := crc }.raise .crcMismatch, hooks := [.onCrcError], next := .crcHi }

/-- `store_S(b, i)` for the state the descriptor is in; none where the spec has no rule (R136, R140). -/
def storeByte (b : Byte) (i : Nat) (d : Desc) : Option Stored :=
  match d.state with
  | .slaveAddress => some (storeSlaveAddress b d)
  | .function => some (storeFunction b d)
  | .byteCount => some (storeByteCount b d)
  | .singleAddrHi => some (storeSingleAddrHi b d)
  | .singleAddrLo => some (storeSingleAddrLo b d)
  | .startAddrHi => some (storeStartAddrHi b d)
  | .startAddrLo => some (storeStartAddrLo b d)
  | .qtyHi => some (storeQtyHi b d)
  | .qtyLo => storeQtyLo b d
  | .data => some (storeData i d)
  | .crcLo => some (storeCrcLo b d)
  | .crcHi => some (storeCrcHi b d)
  | .complete => none

/-! ### Phase 3: hooks (42_parser_states.md R123, R124) -/

/-- The embedder's next reply: the oldest listed one, or a free value (log entry 12). The free values of
every instance come from the one function at that instance's own counter (DESIGN CHOICE, log entry 25). -/
def nextReply (s : State) : Reply :=
  match s.replies with
  | r :: _ => r
  | [] => Config.freeReply s.freeReplies

/-- The state after the embedder has given its next reply. -/
def State.afterReply (s : State) : State :=
  match s.replies with
  | _ :: rest => { s with replies := rest }
  | [] => { s with freeReplies := s.freeReplies + 1 }

/-- Emit the event of hook `h`, with the descriptor as its snapshot (R123). -/
def State.emit (s : State) (h : Hook) : State := { s with events := s.events ++ [{ hook := h, snapshot := s.d }] }

/-- Fire the due hooks in order. An absent hook does nothing; a present one that fails latches
`hook-aborted` and the rest do not fire (R122 to R124). Before H.RESET any due hook is refused (log entry
11), also one whose own bit an H.SET has written (DESIGN CHOICE, log entry 24). -/
def fireHooks (hs : List Hook) (s : State) : Outcome State :=
  match hs with
  | [] => .next s
  | h :: rest =>
    if s.hooksReset = false then .refused .hooksUndefined
    else if hookPresent s.hookEn h then
      match nextReply s with
      | .ok => fireHooks rest (s.emit h).afterReply
      | .fail => .next ((s.emit h).afterReply.setDesc (s.d.raise .hookAborted))
    else fireHooks rest s

/-! ### P.STEP and P.EXEC (42_parser_states.md R120, R122) -/

/-- The four phases of one byte (R122). -/
def stepByte (b : Byte) (i : Nat) (s : State) : Outcome State :=
  match storeByte b i (s.d.checksum b) with
  | none => .fault .noParserRule
  | some st => andThen (fireHooks st.hooks (s.setDesc st.d)) fun t => .next (t.setDesc (t.d.advance st.next))

/-- The loop of P.EXEC from index `i`: the consumed count and the state after it (R120, R121). -/
def consume (bs : List Byte) (i : Nat) (s : State) : Outcome (Nat × State) :=
  match bs with
  | [] => .next (i, s)
  | b :: rest =>
    if gated s.d then .next (i, s)
    else andThen (stepByte b i s) (consume rest (i + 1))

/-- The state in which the loop of P.EXEC starts. -/
def State.startCall (s : State) (input : List Byte) : State :=
  (s.begin.presentInput input).setDesc s.d.clearPayload

/-- P.EXEC on the bytes `input` (R120). -/
def execute (input : List Byte) (s : State) : Outcome State :=
  if s.initialised = false then .refused .uninitialised
  else andThen (consume input 0 (s.startCall input)) fun p => .next (p.2.returns (.consumed p.1))

/-- P.INIT(k) on the registers (41_descriptor_ops.md R110): the one way out of an error and out of
`complete` (60_exceptions.md R221). -/
def initialise (k : Kind) (s : State) : State :=
  { s.begin with d := Desc.fresh k s.d.userContext, initialised := true }

/-! ### G.GEN (44_generator.md R181 to R189) -/

/-- Preconditions of R187, by the class of the function code; functions 1 to 4 have none. -/
def genPrecondition (q : Query) : Bool :=
  match q.function.toNat with
  | 5 | 6 => 1 ≤ q.valueCount
  | 15 => q.quantity.toNat ≤ Config.maxCoils && coilWordCount q.quantity ≤ q.valueCount
  | 16 => q.valueCount ≤ Config.maxRegs
  | _ => true

/-- Body of the read codes (R201). -/
def bodyRead (q : Query) : List Byte :=
  [hiByte q.address, loByte q.address, hiByte q.quantity, loByte q.quantity]

/-- Body of the single-write codes (R202). -/
def bodySingle (q : Query) : Option (List Byte) :=
  (wordAt q 0).map fun v => [hiByte q.address, loByte q.address, hiByte v, loByte v]

/-- Body of code 15 (R196). -/
def bodyCoils (q : Query) : Option (List Byte) :=
  (coilData q).map fun data =>
    [hiByte q.address, loByte q.address, hiByte q.quantity, loByte q.quantity, countByte (coilByteCount q.quantity)] ++ data

/-- Body of code 16 (R197). -/
def bodyRegisters (q : Query) : Option (List Byte) :=
  (registerData q).map fun data =>
    [hiByte q.address, loByte q.address, hiByte (emittedQuantity q), loByte (emittedQuantity q),
      countByte (2 * q.valueCount)] ++ data

/-- `body(Q)` (R190 to R197), none where a word it needs is not there. -/
def genBody (q : Query) : Option (List Byte) :=
  match q.function.toNat with
  | 1 | 2 | 3 | 4 => some (bodyRead q)
  | 5 | 6 => bodySingle q
  | 15 => bodyCoils q
  | 16 => bodyRegisters q
  | _ => none

/-- Append the CRC of a sequence, low byte first (R184). -/
def withCrc (bs : List Byte) : List Byte := bs ++ [loByte (crc16 bs), hiByte (crc16 bs)]

/-- The frame with body `body` (R180, R183). -/
def genFrame (q : Query) (body : List Byte) : List Byte := withCrc (q.slaveAddress :: q.function :: body)

/-- G.GEN in the order of R181: the function code, the preconditions, the capacity, then the writes. -/
def generate (q : Query) (capacity : Nat) (s : State) : Outcome State :=
  let s := s.begin.presentQuery q
  if classify q.function = none then .next (s.returns (.generated unknownFunctionResult))
  else if genPrecondition q = false then .refused .generatorPrecondition
  else
    match genBody q with
    | none => .refused .generatorPrecondition
    | some body =>
      if capacity < (genFrame q body).length then .next (s.returns (.generated bufferTooSmall))
      else .next ({ s with out := Memory.writeFrom s.out 0 (genFrame q body) }.returns
        (.generated (genFrame q body).length))

/-! ### Register read-out and the parser's mode -/

/-- The registers of 10_state.md R10. -/
inductive Register where
  | kind | state | slaveAddress | function | address | quantity | byteCount | payloadOffset | payloadLength
  | frameCrc | runningCrc | error | userContext | dataLen | dataCnt
  deriving DecidableEq, Repr

/-- The number a descriptor register shows (41_descriptor_ops.md R115). -/
def Desc.readRegister (d : Desc) (r : Register) : Nat :=
  match r with
  | .kind => kindCode d.kind
  | .state => stateCode d.state
  | .slaveAddress => d.slaveAddress.toNat
  | .function => d.function.toNat
  | .address => d.address.toNat
  | .quantity => d.quantity.toNat
  | .byteCount => d.byteCount.toNat
  | .payloadOffset => d.payload.offset
  | .payloadLength => d.payload.length.toNat
  | .frameCrc => d.frameCrc.toNat
  | .runningCrc => d.runningCrc.toNat
  | .error => errorCode d.error
  | .userContext => d.userContext.toNat
  | .dataLen => d.dataLen.toNat
  | .dataCnt => d.dataCnt.toNat

/-- The bytes a payload window names in IN (20_memory.md R57): what a hook reads through it. -/
def windowBytes (input : Memory) (p : Payload) : List (Option Byte) :=
  (List.range p.length.toNat).map fun k => Memory.read input (p.offset + k)

/-- The kind of frame the next input byte starts; none where the parser does not stand at the start of
a frame (42_parser_states.md R121, 70_reset_and_hazards.md R242; log entry 14). -/
def frameMode (s : State) : Option Kind :=
  if s.initialised && decide (s.d.state = .slaveAddress) && decide (s.d.error = .none) then some s.d.kind else none

/-! ### Bringing up a descriptor for one frame -/

/-- The request that gives PARSER the frame of a table word (log entry 14). A word that is no frame's
is given as it stands. -/
def fetchedRequest (nbits w : Nat) : Request :=
  match decodeTableWord nbits w with
  | some i => encode i
  | none => .execute (tableFrame nbits w)

/-- Bring-up as 70_reset_and_hazards.md R242 asks, P.INIT(Query) and, where none was applied, H.RESET,
then `r` issued before every other request. -/
def broughtUp (s : State) (r : Request) : State :=
  { s with
    d := Desc.fresh .query s.d.userContext, initialised := true,
    hookEn := if s.hooksReset then s.hookEn else 0#9, hooksReset := true,
    requests := r :: s.requests }

end Sys2Proof.Machine
end

