-- ==== Sys2Proof/Machine/Crc.lean ====
section
/-! DEFINITION. Unit CRCU (40_crc.md): pure functions, which touch no register (R106). -/

namespace Sys2Proof.Machine

/-- CRC.UPDATE (R100). -/
def execCrcUpdate (c : Half) (b : Byte) (s : State) : Outcome State := .next (s.begin.returns (.crc (crcUpdate c b)))

/-- CRC.COMPUTE (R101). -/
def execCrcCompute (bs : List Byte) (s : State) : Outcome State := .next (s.begin.returns (.crc (crc16 bs)))

end Sys2Proof.Machine
end

