-- ==== Sys2Proof/Machine/Descriptor.lean ====
section
/-! DEFINITION. The descriptor and hook-table operations (41_descriptor_ops.md). -/

namespace Sys2Proof.Machine

/-- P.INIT(k) (R110). -/
def execPInit (k : Kind) (s : State) : Outcome State := .next (initialise k s)

/-- P.RESET (R111): P.INIT with the kind kept; refused where the descriptor was never initialised. -/
def execPReset (s : State) : Outcome State :=
  if s.initialised = false then .refused .uninitialised else .next (initialise s.d.kind s)

/-- H.RESET (R112). -/
def execHReset (s : State) : Outcome State := .next { s.begin with hookEn := 0#9, hooksReset := true }

/-- `HOOK_EN` with bit `h` set to `p`. -/
def setHookBit (hookEn : BitVec 9) (h : Nat) (p : Bool) : BitVec 9 :=
  if p then hookEn ||| BitVec.twoPow 9 h else hookEn &&& ~~~ BitVec.twoPow 9 h

/-- H.SET(h, p) (R113); an id above 8 names no hook. -/
def execHSet (h : Nat) (p : Bool) (s : State) : Outcome State :=
  if h < Config.hookCount then .next { s.begin with hookEn := setHookBit s.hookEn h p } else .refused .hookIdOutOfRange

/-- CTX.WRITE(v) (R114). -/
def execCtxWrite (v : Context) (s : State) : Outcome State := .next (s.begin.setDesc { s.d with userContext := v })

end Sys2Proof.Machine
end

