-- ==== Sys2Proof/Machine/Generator.lean ====
section
/-! DEFINITION. Unit GEN: G.GEN (44_generator.md R180) and the rows `G.*`, which are G.GEN with the
function code of the row (R190 to R197). -/

namespace Sys2Proof.Machine

/-- G.READ_COILS (R190). -/
def execGReadCoils (q : GenArgs) (capacity : Nat) (s : State) : Outcome State :=
  generate (q.withFunction 0x01#8) capacity s

/-- G.READ_DISCRETE (R191). -/
def execGReadDiscrete (q : GenArgs) (capacity : Nat) (s : State) : Outcome State :=
  generate (q.withFunction 0x02#8) capacity s

/-- G.READ_HOLD_REG (R192). -/
def execGReadHoldReg (q : GenArgs) (capacity : Nat) (s : State) : Outcome State :=
  generate (q.withFunction 0x03#8) capacity s

/-- G.READ_INPUT_REG (R193). -/
def execGReadInputReg (q : GenArgs) (capacity : Nat) (s : State) : Outcome State :=
  generate (q.withFunction 0x04#8) capacity s

/-- G.WRITE_SINGLE_COIL (R194). -/
def execGWriteSingleCoil (q : GenArgs) (capacity : Nat) (s : State) : Outcome State :=
  generate (q.withFunction 0x05#8) capacity s

/-- G.WRITE_SINGLE_REG (R195). -/
def execGWriteSingleReg (q : GenArgs) (capacity : Nat) (s : State) : Outcome State :=
  generate (q.withFunction 0x06#8) capacity s

/-- G.WRITE_MULTI_COILS (R196). -/
def execGWriteMultiCoils (q : GenArgs) (capacity : Nat) (s : State) : Outcome State :=
  generate (q.withFunction 0x0F#8) capacity s

/-- G.WRITE_MULTI_REGS (R197). -/
def execGWriteMultiRegs (q : GenArgs) (capacity : Nat) (s : State) : Outcome State :=
  generate (q.withFunction 0x10#8) capacity s

/-- G.GEN (R180, R181). -/
def execGGen (q : Query) (capacity : Nat) (s : State) : Outcome State := generate q capacity s

end Sys2Proof.Machine
end

