-- ==== Sys2Proof/Machine/Parser.lean ====
section
/-! DEFINITION. The streaming parser's two operations (42_parser_states.md). -/

namespace Sys2Proof.Machine

/-- P.STEP(b, i) (R122), issued by the embedder: refused before P.INIT and outside its precondition
(log entry 18). R122 calls `i` the index "in the current call" and does not say what the current call of a
byte issued by itself is: every `i` is taken (DESIGN CHOICE, log entry 23). -/
def execPStep (b : Byte) (i : Nat) (s : State) : Outcome State :=
  if s.initialised = false then .refused .uninitialised
  else if gated s.d then .refused .stepGated
  else stepByte b i (s.begin.presentByte i b)

/-- P.EXEC(IN, n) (R120). -/
def execPExec (input : List Byte) (s : State) : Outcome State := execute input s

end Sys2Proof.Machine
end

