-- ==== Sys2Proof/Machine/QueryFrames.lean ====
section
/-! DEFINITION. The query frames (43_parser_frames.md R150 to R152, R160 to R168): each is its frame's
bytes given to PARSER in one P.EXEC. The descriptor's own kind decides how they are read (R177; log
entry 13). -/

namespace Sys2Proof.Machine

/-- Q.READ_COILS (R161). -/
def execQReadCoils (slave : Byte) (address quantity crc : Half) (s : State) : Outcome State :=
  execute (layoutTwoFields slave 0x01#8 address quantity crc) s

/-- Q.READ_DISCRETE (R162). -/
def execQReadDiscrete (slave : Byte) (address quantity crc : Half) (s : State) : Outcome State :=
  execute (layoutTwoFields slave 0x02#8 address quantity crc) s

/-- Q.READ_HOLD_REG (R163). -/
def execQReadHoldReg (slave : Byte) (address quantity crc : Half) (s : State) : Outcome State :=
  execute (layoutTwoFields slave 0x03#8 address quantity crc) s

/-- Q.READ_INPUT_REG (R164). -/
def execQReadInputReg (slave : Byte) (address quantity crc : Half) (s : State) : Outcome State :=
  execute (layoutTwoFields slave 0x04#8 address quantity crc) s

/-- Q.WRITE_SINGLE_COIL (R165). -/
def execQWriteSingleCoil (slave : Byte) (address value crc : Half) (s : State) : Outcome State :=
  execute (layoutTwoFields slave 0x05#8 address value crc) s

/-- Q.WRITE_SINGLE_REG (R166). -/
def execQWriteSingleReg (slave : Byte) (address value crc : Half) (s : State) : Outcome State :=
  execute (layoutTwoFields slave 0x06#8 address value crc) s

/-- Q.WRITE_MULTI_COILS (R167). -/
def execQWriteMultiCoils (slave : Byte) (address quantity : Half) (data : List Byte) (crc : Half) (s : State) : Outcome State :=
  execute (layoutMultiQuery slave 0x0F#8 address quantity data crc) s

/-- Q.WRITE_MULTI_REGS (R168). -/
def execQWriteMultiRegs (slave : Byte) (address quantity : Half) (data : List Byte) (crc : Half) (s : State) : Outcome State :=
  execute (layoutMultiQuery slave 0x10#8 address quantity data crc) s

end Sys2Proof.Machine
end

