-- ==== Sys2Proof/Machine/ResponseFrames.lean ====
section
/-! DEFINITION. The response frames (43_parser_frames.md R153 to R155, R160, R169 to R176): each is its
frame's bytes given to PARSER in one P.EXEC. The descriptor's own kind decides how they are read (R177;
log entry 13). -/

namespace Sys2Proof.Machine

/-- R.READ_COILS (R169). -/
def execRReadCoils (slave : Byte) (data : List Byte) (crc : Half) (s : State) : Outcome State :=
  execute (layoutReadResponse slave 0x01#8 data crc) s

/-- R.READ_DISCRETE (R170). -/
def execRReadDiscrete (slave : Byte) (data : List Byte) (crc : Half) (s : State) : Outcome State :=
  execute (layoutReadResponse slave 0x02#8 data crc) s

/-- R.READ_HOLD_REG (R171). -/
def execRReadHoldReg (slave : Byte) (data : List Byte) (crc : Half) (s : State) : Outcome State :=
  execute (layoutReadResponse slave 0x03#8 data crc) s

/-- R.READ_INPUT_REG (R172). -/
def execRReadInputReg (slave : Byte) (data : List Byte) (crc : Half) (s : State) : Outcome State :=
  execute (layoutReadResponse slave 0x04#8 data crc) s

/-- R.WRITE_SINGLE_COIL (R173). -/
def execRWriteSingleCoil (slave : Byte) (address value crc : Half) (s : State) : Outcome State :=
  execute (layoutTwoFields slave 0x05#8 address value crc) s

/-- R.WRITE_SINGLE_REG (R174). -/
def execRWriteSingleReg (slave : Byte) (address value crc : Half) (s : State) : Outcome State :=
  execute (layoutTwoFields slave 0x06#8 address value crc) s

/-- R.WRITE_MULTI_COILS (R175). -/
def execRWriteMultiCoils (slave : Byte) (address quantity crc : Half) (s : State) : Outcome State :=
  execute (layoutTwoFields slave 0x0F#8 address quantity crc) s

/-- R.WRITE_MULTI_REGS (R176). -/
def execRWriteMultiRegs (slave : Byte) (address quantity crc : Half) (s : State) : Outcome State :=
  execute (layoutTwoFields slave 0x10#8 address quantity crc) s

end Sys2Proof.Machine
end

