-- ==== Sys2Proof/Machine/Dispatch.lean ====
section
/-! DEFINITION. One arm for each row of opcode_table.json. -/

namespace Sys2Proof.Machine

def exec (i : Instr) (s : State) : Host.Outcome State Fault Refusal :=
  match i with
  | .qReadCoils slave address quantity crc => Sys2Proof.Machine.execQReadCoils slave address quantity crc s
  | .qReadDiscrete slave address quantity crc => Sys2Proof.Machine.execQReadDiscrete slave address quantity crc s
  | .qReadHoldReg slave address quantity crc => Sys2Proof.Machine.execQReadHoldReg slave address quantity crc s
  | .qReadInputReg slave address quantity crc => Sys2Proof.Machine.execQReadInputReg slave address quantity crc s
  | .qWriteSingleCoil slave address value crc => Sys2Proof.Machine.execQWriteSingleCoil slave address value crc s
  | .qWriteSingleReg slave address value crc => Sys2Proof.Machine.execQWriteSingleReg slave address value crc s
  | .qWriteMultiCoils slave address quantity data crc => Sys2Proof.Machine.execQWriteMultiCoils slave address quantity data crc s
  | .qWriteMultiRegs slave address quantity data crc => Sys2Proof.Machine.execQWriteMultiRegs slave address quantity data crc s
  | .rReadCoils slave data crc => Sys2Proof.Machine.execRReadCoils slave data crc s
  | .rReadDiscrete slave data crc => Sys2Proof.Machine.execRReadDiscrete slave data crc s
  | .rReadHoldReg slave data crc => Sys2Proof.Machine.execRReadHoldReg slave data crc s
  | .rReadInputReg slave data crc => Sys2Proof.Machine.execRReadInputReg slave data crc s
  | .rWriteSingleCoil slave address value crc => Sys2Proof.Machine.execRWriteSingleCoil slave address value crc s
  | .rWriteSingleReg slave address value crc => Sys2Proof.Machine.execRWriteSingleReg slave address value crc s
  | .rWriteMultiCoils slave address quantity crc => Sys2Proof.Machine.execRWriteMultiCoils slave address quantity crc s
  | .rWriteMultiRegs slave address quantity crc => Sys2Proof.Machine.execRWriteMultiRegs slave address quantity crc s
  | .gReadCoils q capacity => Sys2Proof.Machine.execGReadCoils q capacity s
  | .gReadDiscrete q capacity => Sys2Proof.Machine.execGReadDiscrete q capacity s
  | .gReadHoldReg q capacity => Sys2Proof.Machine.execGReadHoldReg q capacity s
  | .gReadInputReg q capacity => Sys2Proof.Machine.execGReadInputReg q capacity s
  | .gWriteSingleCoil q capacity => Sys2Proof.Machine.execGWriteSingleCoil q capacity s
  | .gWriteSingleReg q capacity => Sys2Proof.Machine.execGWriteSingleReg q capacity s
  | .gWriteMultiCoils q capacity => Sys2Proof.Machine.execGWriteMultiCoils q capacity s
  | .gWriteMultiRegs q capacity => Sys2Proof.Machine.execGWriteMultiRegs q capacity s
  | .crcUpdate c b => Sys2Proof.Machine.execCrcUpdate c b s
  | .crcCompute bs => Sys2Proof.Machine.execCrcCompute bs s
  | .pInit k => Sys2Proof.Machine.execPInit k s
  | .pReset => Sys2Proof.Machine.execPReset s
  | .hReset => Sys2Proof.Machine.execHReset s
  | .hSet h p => Sys2Proof.Machine.execHSet h p s
  | .ctxWrite v => Sys2Proof.Machine.execCtxWrite v s
  | .pStep b n => Sys2Proof.Machine.execPStep b n s
  | .pExec input => Sys2Proof.Machine.execPExec input s
  | .gGen q capacity => Sys2Proof.Machine.execGGen q capacity s

end Sys2Proof.Machine
end

