-- ==== Sys2Proof/Machine/Step.lean ====
section
/-! DEFINITION. One step: the oldest request is read as an instruction and runs; with no request the
block is idle and holds its registers (60_exceptions.md R228 (c); log entry 1). -/

namespace Sys2Proof.Machine

/-- One operation of the block (00_scope.md R6). -/
def step (s : State) : Host.Outcome State Fault Refusal :=
  match s.requests with
  | [] => .next s
  | r :: rest => exec (decode (frameMode s) r) { s with requests := rest }

/-- `s` brought up to the point where the next step runs the frame of a table word: the descriptor as
P.INIT(Query) leaves it, the hook table defined, and the frame issued first (log entry 14). -/
def State.withFetchWord (s : State) (nbits w : Nat) : State :=
  broughtUp s (fetchedRequest nbits w)

end Sys2Proof.Machine
end

