-- ==== Sys2Proof/Machine/Instances.lean ====
section
/-! DEFINITION. Several instances of the block (20_memory.md R58, 60_exceptions.md R226): each has its
own state, and an operation names the instance it runs on (log entry 21). -/

namespace Sys2Proof.Machine

/-- Independent instances, told apart only by the embedder (R226). -/
abbrev Instances := List State

/-- Run `i` on instance `k`; none where there is no such instance. -/
def Instances.run (sys : Instances) (k : Nat) (i : Instr) : Option (Outcome Instances) :=
  (sys[k]?).map fun s => andThen (exec i s) fun t => .next (sys.set k t)

/-- The instances after the operations `ops`, each naming the instance it runs on; none where one of them
does not answer next. -/
def Instances.runAll (sys : Instances) (ops : List (Nat × Instr)) : Option Instances :=
  match ops with
  | [] => some sys
  | op :: rest => ((sys.run op.1 op.2).bind nextValue).bind fun t => Instances.runAll t rest

end Sys2Proof.Machine
end

