-- ==== Sys2Proof/Safety.lean ====
section
/-! DEFINITION. The terms claims are made in: the invariant of the block, an instance that is brought up,
the embedder's replies, and what the spec says a hook and a frame do, in terms of their own. -/

namespace Sys2Proof.Machine

/-! ### The invariant -/

/-- The descriptor's kind and function are on the path that leads to its state
(42_parser_states.md R128, R136, R142; 10_state.md R14, R23). -/
def OnPath (d : Desc) : Prop :=
  match d.state with
  | .slaveAddress | .function => True
  | .byteCount =>
    (d.kind = .response ∧ classify d.function = some .read) ∨ (d.kind = .query ∧ classify d.function = some .multi)
  | .singleAddrHi | .singleAddrLo => classify d.function = some .single
  | .startAddrHi | .startAddrLo | .qtyHi | .qtyLo =>
    (d.kind = .query ∧ classify d.function = some .read) ∨ classify d.function = some .multi
  | .data => classify d.function ≠ none ∧ d.dataCnt.toNat < d.dataLen.toNat
  | .crcLo | .crcHi | .complete => classify d.function ≠ none

/-- What every descriptor that P.INIT and the parser make satisfies. -/
structure Desc.Inv (d : Desc) : Prop where
  /-- the state is reached on its own path (R142) -/
  onPath : OnPath d
  /-- before the data state no data byte has been counted (10_state.md R23) -/
  notYetCounted : stateCode d.state < 9 → d.dataCnt = 0#8 ∧ d.dataLen = 0#8
  /-- after it, all have (42_parser_states.md R137) -/
  allCounted : 9 < stateCode d.state → d.dataCnt = d.dataLen
  /-- the window counts no more than the data bytes of the frame (10_state.md R18) -/
  window : d.payload.length.toNat ≤ d.dataCnt.toNat
  /-- `unknown-function` is latched only in `function`, with the offending byte stored (R14, R127) -/
  unknownFunction : d.error = .unknownFunction → d.state = .function ∧ classify d.function = none
  /-- `crc-mismatch` is latched only in `crc-hi`, with the two checksums different (R139) -/
  crcMismatch : d.error = .crcMismatch → d.state = .crcHi ∧ d.frameCrc ≠ d.runningCrc
  /-- a completed frame has its checksum right (R139) -/
  complete : d.state = .complete → d.frameCrc = d.runningCrc

/-- The invariant of an instance: its descriptor's, and both byte spaces in canonical form. -/
structure Inv (s : State) : Prop where
  desc  : s.d.Inv
  input : Memory.wf s.input
  out   : Memory.wf s.out

/-- P.INIT and H.RESET have been applied (70_reset_and_hazards.md R242). -/
def Ready (s : State) : Prop := s.initialised = true ∧ s.hooksReset = true

/-- The descriptor is as P.INIT(k) leaves it, on an instance that is brought up. -/
def FreshFor (k : Kind) (s : State) : Prop := Ready s ∧ s.d = Desc.fresh k s.d.userContext

/-! ### Replies and hooks -/

/-- The reply the embedder gives to the `n`-th event from here. -/
def replyAt (s : State) (n : Nat) : Reply :=
  match s.replies[n]? with
  | some r => r
  | none => Config.freeReply (s.freeReplies + (n - s.replies.length))

/-- The embedder answers `ok` to the next `n` events. -/
def RepliesOk (n : Nat) (s : State) : Prop := ∀ k < n, replyAt s k = .ok

/-- The events one due hook makes with descriptor `d` (42_parser_states.md R123). -/
def eventsOf (s : State) (h : Hook) (d : Desc) : List Event :=
  if s.hookEn.getLsbD (hookId h) then [{ hook := h, snapshot := d }] else []

/-- The error after one due hook, where none was latched before (42_parser_states.md R124). -/
def errorAfter (s : State) (h : Hook) : ErrorKind :=
  if s.hookEn.getLsbD (hookId h) ∧ replyAt s 0 = .fail then .hookAborted else .none

/-- The number of bytes consumed in the two CRC states so far (42_parser_states.md R138, R139). -/
def crcBytesSeen (d : Desc) : Nat :=
  match d.state with
  | .crcHi => if d.error = .crcMismatch then 2 else 1
  | .complete => 2
  | _ => 0

/-- The position of a state on the wire. It is the number of 10_state.md R12, but for `byte-count`,
which a multi-write query reaches after `qty-lo` (log entry 22). -/
def wireOrder (s : ParserState) : Nat :=
  match s with
  | .slaveAddress => 0
  | .function => 1
  | .singleAddrHi => 2
  | .singleAddrLo => 3
  | .startAddrHi => 4
  | .startAddrLo => 5
  | .qtyHi => 6
  | .qtyLo => 7
  | .byteCount => 8
  | .data => 9
  | .crcLo => 10
  | .crcHi => 11
  | .complete => 12

/-! ### Frames -/

/-- The CRC a frame carries in its last two bytes, low byte first (30_encoding.md R62). -/
def sentCrc (bs : List Byte) : Half := joinBytes (bs.getD (bs.length - 1) 0#8) (bs.getD (bs.length - 2) 0#8)

/-- The bytes the CRC covers (R62). -/
def coveredBytes (bs : List Byte) : List Byte := bs.take (bs.length - 2)

/-- The data hooks of a data region (42_parser_states.md R137): none where it is empty. -/
def dataHooks (data : List Byte) : List Hook := if data = [] then [] else [.onDataStart, .onDataEnd]

/-- The hooks of a frame's fields in wire order, without the one its CRC fires
(43_parser_frames.md R150 to R155); empty for the rows that are no frame given to PARSER. -/
def fieldHooks (i : Instr) : List Hook :=
  match i with
  | .qReadCoils _ _ _ _ | .qReadDiscrete _ _ _ _ | .qReadHoldReg _ _ _ _ | .qReadInputReg _ _ _ _ =>
    [.onSlaveAddress, .onFunction, .onAddress, .onQuantity]
  | .qWriteSingleCoil _ _ _ _ | .qWriteSingleReg _ _ _ _ | .rWriteSingleCoil _ _ _ _ | .rWriteSingleReg _ _ _ _ =>
    [.onSlaveAddress, .onFunction, .onAddress, .onDataStart, .onDataEnd]
  | .qWriteMultiCoils _ _ _ data _ | .qWriteMultiRegs _ _ _ data _ =>
    [.onSlaveAddress, .onFunction, .onAddress, .onQuantity, .onByteCount] ++ dataHooks data
  | .rReadCoils _ data _ | .rReadDiscrete _ data _ | .rReadHoldReg _ data _ | .rReadInputReg _ data _ =>
    [.onSlaveAddress, .onFunction, .onByteCount] ++ dataHooks data
  | .rWriteMultiCoils _ _ _ _ | .rWriteMultiRegs _ _ _ _ => [.onSlaveAddress, .onFunction, .onAddress, .onQuantity]
  | .gReadCoils _ _ | .gReadDiscrete _ _ | .gReadHoldReg _ _ | .gReadInputReg _ _ => []
  | .gWriteSingleCoil _ _ | .gWriteSingleReg _ _ | .gWriteMultiCoils _ _ | .gWriteMultiRegs _ _ => []
  | .crcUpdate _ _ | .crcCompute _ => []
  | .pInit _ | .pReset | .hReset | .hSet _ _ | .ctxWrite _ => []
  | .pStep _ _ | .pExec _ | .gGen _ _ => []

/-- The rows of unit GEN (opcode_table.json). -/
def isGen (i : Instr) : Bool :=
  match i with
  | .gReadCoils _ _ | .gReadDiscrete _ _ | .gReadHoldReg _ _ | .gReadInputReg _ _ => true
  | .gWriteSingleCoil _ _ | .gWriteSingleReg _ _ | .gWriteMultiCoils _ _ | .gWriteMultiRegs _ _ => true
  | .gGen _ _ => true
  | .qReadCoils _ _ _ _ | .qReadDiscrete _ _ _ _ | .qReadHoldReg _ _ _ _ | .qReadInputReg _ _ _ _ => false
  | .qWriteSingleCoil _ _ _ _ | .qWriteSingleReg _ _ _ _ => false
  | .qWriteMultiCoils _ _ _ _ _ | .qWriteMultiRegs _ _ _ _ _ => false
  | .rReadCoils _ _ _ | .rReadDiscrete _ _ _ | .rReadHoldReg _ _ _ | .rReadInputReg _ _ _ => false
  | .rWriteSingleCoil _ _ _ _ | .rWriteSingleReg _ _ _ _ => false
  | .rWriteMultiCoils _ _ _ _ | .rWriteMultiRegs _ _ _ _ => false
  | .crcUpdate _ _ | .crcCompute _ => false
  | .pInit _ | .pReset | .hReset | .hSet _ _ | .ctxWrite _ => false
  | .pStep _ _ | .pExec _ => false

/-- The rows that give bytes to PARSER: the frames, P.STEP and P.EXEC. -/
def feedsParser (i : Instr) : Bool :=
  match i with
  | .pStep _ _ | .pExec _ => true
  | _ => (frameKind i).isSome

/-- OUT reads at every index as it did. -/
def SameOut (s t : State) : Prop := ∀ a, Memory.read t.out a = Memory.read s.out a

/-- What an operation on PARSER or CRCU leaves as it was: the hook table, the query descriptor, every
byte of OUT, and what the embedder has still to ask. -/
def Surroundings (s t : State) : Prop :=
  t.hookEn = s.hookEn ∧ t.hooksReset = s.hooksReset ∧ t.initialised = s.initialised ∧ t.query = s.query ∧
    t.requests = s.requests ∧ SameOut s t

/-- The replies still to come are as they were: no event was answered. -/
def SameReplies (s t : State) : Prop := t.replies = s.replies ∧ t.freeReplies = s.freeReplies

/-- The space `m'` holds the bytes `bs` at 0, 1, ... and reads as `m` at every index after them. -/
def OutHolds (m m' : Memory) (bs : List Byte) : Prop :=
  (∀ k, (h : k < bs.length) → Memory.read m' k = some bs[k]) ∧
    ∀ a, bs.length ≤ a → Memory.read m' a = Memory.read m a

/-- Exactly `n` replies have been used (one to each event, 42_parser_states.md R123). -/
def RepliesUsed (n : Nat) (s t : State) : Prop := ∀ k, replyAt t k = replyAt s (n + k)

/-- What P.STEP(b, i) leaves besides the descriptor and its events: nothing returned, `b = IN[i]` and every
other index of IN as it was, one reply used for each event, and the surroundings as they were. (That the byte
is taken at every `i`, and IN keeps its other indices, is the model's: log entries 5 and 23, DESIGN CHOICE.) -/
def ByteGiven (b : Byte) (i : Nat) (s t : State) : Prop :=
  t.result = .nothing ∧ Memory.read t.input i = some b ∧ (∀ a, a ≠ i → Memory.read t.input a = Memory.read s.input a) ∧
    RepliesUsed t.events.length s t ∧ Surroundings s t

/-- What a frame given whole leaves besides the descriptor: all its bytes consumed, IN as presented, the
hooks among `hs` that are present fired once each in that order, and the surroundings as they were. -/
def FrameGiven (bs : List Byte) (hs : List Hook) (s t : State) : Prop :=
  t.result = .consumed bs.length ∧ (∀ a, Memory.read t.input a = bs[a]?) ∧
    t.events.map (·.hook) = hs.filter (fun h => s.hookEn.getLsbD (hookId h)) ∧
    RepliesUsed t.events.length s t ∧ Surroundings s t

/-- A covered sequence with its CRC appended, low byte first (30_encoding.md R62). -/
def crcAppended (covered : List Byte) : List Byte :=
  covered ++ [(crc16 covered).extractLsb' 0 8, (crc16 covered).extractLsb' 8 8]

/-- The preconditions of 44_generator.md R187 on a query whose code is recognized. -/
def WithinPreconditions (q : Query) : Prop :=
  (q.function = 5 ∨ q.function = 6 → 1 ≤ q.valueCount) ∧
    (q.function = 15 → q.quantity.toNat ≤ 2040 ∧ (q.quantity.toNat + 15) / 16 ≤ q.valueCount) ∧
    (q.function = 16 → q.valueCount ≤ 127)

/-- The length of a generated frame (44_generator.md R182). -/
def generatedLength (q : Query) : Nat :=
  if q.function = 15 then 9 + (q.quantity.toNat + 7) / 8 else if q.function = 16 then 9 + 2 * q.valueCount else 8

/-- Every descriptor register but `payload` is the same (42_parser_states.md R144). -/
def SameButPayload (d e : Desc) : Prop := { d with payload := e.payload } = e

end Sys2Proof.Machine
end

