-- ==== Sys2Proof/Certificates/Slice0/Obligations.lean ====
section
/-! DEFINITION. The statements for the provers. -/

open Sys2Proof Sys2Proof.Machine

/-- One frame of each format, written byte by byte from 30_encoding.md, decodes to the row and operands it stands for, and a G.GEN request whose query descriptor has function code 16 (R80, R197) decodes to G.WRITE_MULTI_REGS. That a request is read as a row, and which row, is the model's own choice (log entry 14, DESIGN CHOICE). -/
def Obligations.SpecFramesDecodeAsLaidOut : Prop :=
  decodeFrame .query [0x11, 0x01, 0x00, 0x13, 0x00, 0x0A, 0x4F, 0x58] = .ok (.qReadCoils 0x11 0x0013 0x000A 0x584F, []) ∧
  decodeFrame .query [0x11, 0x05, 0x00, 0xAC, 0xFF, 0x00, 0x4E, 0x8B] =
    .ok (.qWriteSingleCoil 0x11 0x00AC 0xFF00 0x8B4E, []) ∧
  decodeFrame .query [0x11, 0x0F, 0x00, 0x13, 0x00, 0x10, 0x02, 0x0F, 0x55, 0xE8, 0x8C] =
    .ok (.qWriteMultiCoils 0x11 0x0013 0x0010 [0x0F, 0x55] 0x8CE8, []) ∧
  decodeFrame .response [0x11, 0x03, 0x06, 0x02, 0x2B, 0x00, 0x00, 0x00, 0x64, 0xC8, 0xBA] =
    .ok (.rReadHoldReg 0x11 [0x02, 0x2B, 0x00, 0x00, 0x00, 0x64] 0xBAC8, []) ∧
  decodeFrame .response [0x11, 0x10, 0x00, 0x01, 0x00, 0x02, 0x12, 0x98] =
    .ok (.rWriteMultiRegs 0x11 0x0001 0x0002 0x9812, []) ∧
  decode none (.generate ⟨0x11, 16, 0x0001, 0, [0x000A, 0x0102], 2⟩ 13) =
    .gWriteMultiRegs ⟨0x11, 0x0001, 0, [0x000A, 0x0102], 2⟩ 13

/-- For every well-formed frame row (the eight Q.* and the eight R.* rows, every operand), decoding its bytes as a frame of its kind gives the row back and leaves exactly the bytes that follow it. -/
def Obligations.FrameDecodesToItsRow : Prop :=
  ∀ (i : Instr) (k : Kind) (rest : List Byte), WellFormed i = true → frameKind i = some k →
    decodeFrame k (frameBytes i ++ rest) = .ok (i, rest)

/-- The model's own choice (which row a request is read as, by its kind, by the parser's mode and by Q.function: log entry 14, DESIGN CHOICE; 20_memory.md R59 gives only each operation's operands and 30_encoding.md R80 only the function byte of a G row): for every row that is no frame given to PARSER, other than P.EXEC and G.GEN, decoding its request gives the row back in every mode; for G.GEN this holds for the function codes of no G row, and for P.EXEC while the parser is not at a frame start (at one, see DecodingKeepsTheOperation). -/
def Obligations.OperationDecodesToItsRow : Prop :=
  (∀ (i : Instr) (mode : Option Kind), frameKind i = none → (∀ bs, i ≠ .pExec bs) → (∀ q n, i ≠ .gGen q n) →
    decode mode (encode i) = i) ∧
  (∀ q n mode, classify q.function = none → decode mode (encode (.gGen q n)) = .gGen q n) ∧
  ∀ bs, decode none (encode (.pExec bs)) = .pExec bs

/-- If decoding a byte sequence as a frame of kind k gives a row and a rest, then the row is well formed, it is a row of kind k, and the sequence is the row's bytes followed by the rest. -/
def Obligations.DecodedRowIsItsFrame : Prop :=
  ∀ (k : Kind) (bs rest : List Byte) (i : Instr), decodeFrame k bs = .ok (i, rest) →
    WellFormed i = true ∧ frameKind i = some k ∧ bs = frameBytes i ++ rest

/-- In every mode and state, the row decoded from a P.EXEC request runs as P.EXEC on that input, and the row decoded from a G.GEN request runs as G.GEN on that query descriptor and capacity. -/
def Obligations.DecodingKeepsTheOperation : Prop :=
  (∀ mode bs s, exec (decode mode (.execute bs)) s = exec (.pExec bs) s) ∧
  ∀ mode q n s, exec (decode mode (.generate q n)) s = exec (.gGen q n) s

/-- With no request the step changes nothing; otherwise it takes the oldest request off and runs the instruction it decodes to; in particular, the bytes of a well-formed frame row issued at a frame start of its kind run as that row. (How requests come to stand in the state is the model's, log entry 1.) -/
def Obligations.StepRunsTheDecodedRequest : Prop :=
  (∀ s : State, s.requests = [] → step s = .next s) ∧
  (∀ (s : State) r rest, s.requests = r :: rest →
    step s = exec (decode (frameMode s) r) { s with requests := rest }) ∧
  ∀ (s : State) i k rest, s.requests = .execute (frameBytes i) :: rest → WellFormed i = true → frameKind i = some k →
    frameMode s = some k → step s = exec i { s with requests := rest }

/-- A function byte is recognized exactly when it is 1, 2, 3, 4, 5, 6, 15 or 16, and a sequence with another function byte decodes to no frame of either kind, with the reason unknownFunction. -/
def Obligations.UnrecognizedCodesAreNoFrame : Prop :=
  (∀ f : Byte, classify f = none ↔ f.toNat ∉ [1, 2, 3, 4, 5, 6, 15, 16]) ∧
  ∀ k slave f tail, classify f = none → decodeFrame k (slave :: f :: tail) = .error .unknownFunction

/-- F-RQ, F-SW and F-MWR frames have 8 bytes, F-MWQ frames 9 + N and F-RR frames 5 + N, N the number of data bytes; a well-formed frame has 5 to 264 bytes. -/
def Obligations.FrameLengths : Prop :=
  (∀ s a b c, (frameBytes (.qReadCoils s a b c)).length = 8 ∧ (frameBytes (.qReadDiscrete s a b c)).length = 8 ∧
    (frameBytes (.qReadHoldReg s a b c)).length = 8 ∧ (frameBytes (.qReadInputReg s a b c)).length = 8 ∧
    (frameBytes (.qWriteSingleCoil s a b c)).length = 8 ∧ (frameBytes (.qWriteSingleReg s a b c)).length = 8 ∧
    (frameBytes (.rWriteSingleCoil s a b c)).length = 8 ∧ (frameBytes (.rWriteSingleReg s a b c)).length = 8 ∧
    (frameBytes (.rWriteMultiCoils s a b c)).length = 8 ∧ (frameBytes (.rWriteMultiRegs s a b c)).length = 8) ∧
  (∀ s a q d c, (frameBytes (.qWriteMultiCoils s a q d c)).length = 9 + d.length ∧
    (frameBytes (.qWriteMultiRegs s a q d c)).length = 9 + d.length) ∧
  (∀ s d c, (frameBytes (.rReadCoils s d c)).length = 5 + d.length ∧
    (frameBytes (.rReadDiscrete s d c)).length = 5 + d.length ∧
    (frameBytes (.rReadHoldReg s d c)).length = 5 + d.length ∧
    (frameBytes (.rReadInputReg s d c)).length = 5 + d.length) ∧
  ∀ i k, WellFormed i = true → frameKind i = some k → 5 ≤ (frameBytes i).length ∧ (frameBytes i).length ≤ 264

/-- CRC.UPDATE answers next, returns the eight-fold shift-and-conditional-xor of c xor zext(b), and touches nothing else; for b = c[7:0] the result is c >> 8, and for c = 0, b = 0 it is 0. -/
def Obligations.CrcUpdateIsEightShifts : Prop :=
  (∀ c b s, exec (.crcUpdate c b) s =
    .next { s with
            events := [],
            result := .crc ((fun x : Half => if x.getLsbD 0 then (x >>> 1) ^^^ 0xA001#16 else x >>> 1)^[8]
              (c ^^^ b.setWidth 16)) }) ∧
  (∀ (c : Half) s, exec (.crcUpdate c (c.setWidth 8)) s = .next { s with events := [], result := .crc (c >>> 8) }) ∧
  ∀ s, exec (.crcUpdate 0 0) s = .next { s with events := [], result := .crc 0 }

/-- CRC.COMPUTE answers next, returns the fold of the update over the sequence in ascending order from 0xFFFF, touches nothing else, and returns 0xFFFF for the empty sequence. -/
def Obligations.CrcComputeFoldsFromTheSeed : Prop :=
  (∀ bs s, exec (.crcCompute bs) s =
    .next { s with events := [], result := .crc (bs.foldl crcUpdate 0xFFFF#16) }) ∧
  ∀ s, exec (.crcCompute []) s = .next { s with events := [], result := .crc 0xFFFF#16 }

/-- crc16(s ++ t) = fold(crc16(s), t) for all byte sequences s and t, as CRC.COMPUTE returns it. -/
def Obligations.CrcOfConcatenation : Prop :=
  ∀ a b s, exec (.crcCompute (a ++ b)) s =
    .next { s with events := [], result := .crc (b.foldl crcUpdate (crc16 a)) }

/-- crc_update(c ^ c', b ^ b') = crc_update(c, b) ^ crc_update(c', b'), and the CRC of the nine bytes 31 to 39 is 0x4B37. -/
def Obligations.CrcUpdateIsLinear : Prop :=
  (∀ (c c' : Half) (b b' : Byte), crcUpdate (c ^^^ c') (b ^^^ b') = crcUpdate c b ^^^ crcUpdate c' b') ∧
  crc16 [0x31, 0x32, 0x33, 0x34, 0x35, 0x36, 0x37, 0x38, 0x39] = 0x4B37#16

/-- For every byte sequence s, CRC.COMPUTE of s followed by crc16(s)[7:0] and crc16(s)[15:8] returns 0. -/
def Obligations.AppendedCrcGivesZero : Prop :=
  ∀ bs s, exec (.crcCompute (bs ++ [(crc16 bs).extractLsb' 0 8, (crc16 bs).extractLsb' 8 8])) s =
    .next { s with events := [], result := .crc 0 }

/-- P.INIT(k) answers next from every state: kind = k, state = slave-address, every other register zero but running_crc = 0xFFFF and user_context, which is kept; nothing else changes, but the flag initialised. That flag is the model's own (log entry 10, DEDUCED from R240), and so is that it becomes true here. A second P.INIT(k) changes nothing more. -/
def Obligations.PInitLeavesTheResetTable : Prop :=
  (∀ k s, exec (.pInit k) s =
    .next { s with
            d := { kind := k, state := .slaveAddress, slaveAddress := 0, function := 0, address := 0, quantity := 0,
                   byteCount := 0, payload := { offset := 0, length := 0 }, frameCrc := 0, runningCrc := 0xFFFF#16,
                   error := .none, userContext := s.d.userContext, dataLen := 0, dataCnt := 0 },
            initialised := true, result := .nothing, events := [] }) ∧
  ∀ k s t, exec (.pInit k) s = .next t → exec (.pInit k) t = .next t

/-- On an initialised instance P.RESET answers next with the very state P.INIT(D.kind) leaves: kind kept, state slave-address, error none, running_crc 0xFFFF; on an instance never initialised it is refused. -/
def Obligations.PResetIsPInitOfTheSameKind : Prop :=
  (∀ s : State, s.initialised = true →
    ∃ t, exec .pReset s = .next t ∧ exec (.pInit s.d.kind) s = .next t ∧ t.d.kind = s.d.kind ∧
      t.d.state = .slaveAddress ∧ t.d.error = .none ∧ t.d.runningCrc = 0xFFFF#16) ∧
  ∀ s : State, s.initialised = false → exec .pReset s = .refused .uninitialised

/-- H.RESET answers next from every state: HOOK_EN is 0 and nothing else changes, but the flag hooksReset. That flag is the model's own (log entry 11, DEDUCED from R242), and so is that it becomes true here. -/
def Obligations.HResetClearsTheHookTable : Prop :=
  ∀ s, exec .hReset s = .next { s with hookEn := 0, hooksReset := true, result := .nothing, events := [] }

/-- For h from 0 to 8, H.SET(h, p) answers next, bit h of HOOK_EN becomes p, every other bit and everything else stays; for h above 8 it is refused. -/
def Obligations.HSetWritesOneBit : Prop :=
  (∀ h p (s : State), h ≤ 8 → ∃ m : BitVec 9,
    exec (.hSet h p) s = .next { s with hookEn := m, result := .nothing, events := [] } ∧
      ∀ j, j < 9 → m.getLsbD j = if j = h then p else s.hookEn.getLsbD j) ∧
  ∀ h p s, 8 < h → exec (.hSet h p) s = .refused .hookIdOutOfRange

/-- CTX.WRITE(v) answers next from every state, user_context becomes v and nothing else changes; it survives P.INIT. -/
def Obligations.CtxWriteSetsTheContext : Prop :=
  (∀ v s, exec (.ctxWrite v) s =
    .next { s with d := { s.d with userContext := v }, result := .nothing, events := [] }) ∧
  ∀ v k s t u, exec (.ctxWrite v) s = .next t → exec (.pInit k) t = .next u → u.d.userContext = v

/-- Query and Response read as 0 and 1, the thirteen states as 0 to 12 in the order of R12, the four errors as 0 to 3, the nine hooks have ids 0 to 8, and reading a descriptor register shows these numbers. -/
def Obligations.RegisterReadOutNumbers : Prop :=
  [Kind.query, .response].map kindCode = [0, 1] ∧
  [ParserState.slaveAddress, .function, .byteCount, .singleAddrHi, .singleAddrLo, .startAddrHi, .startAddrLo, .qtyHi,
    .qtyLo, .data, .crcLo, .crcHi, .complete].map stateCode = List.range 13 ∧
  [ErrorKind.none, .crcMismatch, .unknownFunction, .hookAborted].map errorCode = List.range 4 ∧
  [Hook.onSlaveAddress, .onFunction, .onAddress, .onQuantity, .onByteCount, .onDataStart, .onDataEnd, .onCrcError,
    .onComplete].map hookId = List.range 9 ∧
  ∀ d : Desc, d.readRegister .kind = kindCode d.kind ∧ d.readRegister .state = stateCode d.state ∧
    d.readRegister .error = errorCode d.error

/-- In state slave-address P.STEP answers next: running_crc takes the byte, slave_address is the byte, on-slave-address fires if present with the descriptor so far, hook-aborted is latched exactly if it is present and fails, and the state is function. Every register not named keeps its value, each event uses one reply, and the rest of the instance is unchanged. -/
def Obligations.StepStoresSlaveAddress : Prop :=
  ∀ b i (s : State), Ready s → s.d.error = .none → s.d.state = .slaveAddress → 
    let d := { s.d with runningCrc := crcUpdate s.d.runningCrc b, slaveAddress := b }
    ∃ t, exec (.pStep b i) s = .next t ∧ t.d = { d with state := .function, error := errorAfter s .onSlaveAddress } ∧
      t.events = eventsOf s .onSlaveAddress d ∧ ByteGiven b i s t

/-- In state function with a recognized code, P.STEP answers next: function is the byte, on-function fires if present, and the state is single-addr-hi for a single write, byte-count for a read response, start-addr-hi otherwise. Every register not named keeps its value, each event uses one reply, and the rest of the instance is unchanged. -/
def Obligations.StepStoresRecognizedFunction : Prop :=
  ∀ b i (s : State) c, Ready s → s.d.error = .none → s.d.state = .function → classify b = some c →
    let d := { s.d with runningCrc := crcUpdate s.d.runningCrc b, function := b }
    ∃ t, exec (.pStep b i) s = .next t ∧ 
      t.d = { d with
        state := (if c = .single then .singleAddrHi else if c = .read ∧ s.d.kind = .response then .byteCount
          else .startAddrHi), error := errorAfter s .onFunction } ∧
      t.events = eventsOf s .onFunction d ∧ ByteGiven b i s t

/-- In state function with a byte that is not one of the eight codes, P.STEP answers next: running_crc takes the byte, function is the byte, error is unknown-function, no hook fires and the state stays function. Every register not named keeps its value, each event uses one reply, and the rest of the instance is unchanged. -/
def Obligations.StepAbortsOnUnrecognizedFunction : Prop :=
  ∀ b i (s : State), s.initialised = true → s.d.error = .none → s.d.state = .function → classify b = none →
    ∃ t, exec (.pStep b i) s = .next t ∧
      t.d = { s.d with runningCrc := crcUpdate s.d.runningCrc b, function := b, error := .unknownFunction, state := .function } ∧ t.events = [] ∧
      ByteGiven b i s t

/-- In state byte-count P.STEP answers next: byte_count and data_len are the byte, data_cnt is 0, on-byte-count fires if present, and the state is crc-lo for a zero byte and data otherwise. Every register not named keeps its value, each event uses one reply, and the rest of the instance is unchanged. -/
def Obligations.StepStoresByteCount : Prop :=
  ∀ b i (s : State), Ready s → s.d.error = .none → s.d.state = .byteCount → 
    let d := { s.d with runningCrc := crcUpdate s.d.runningCrc b, byteCount := b, dataLen := b, dataCnt := 0 }
    ∃ t, exec (.pStep b i) s = .next t ∧ t.d = { d with state := (if b = 0 then .crcLo else .data), error := errorAfter s .onByteCount } ∧
      t.events = eventsOf s .onByteCount d ∧ ByteGiven b i s t

/-- In single-addr-hi and start-addr-hi P.STEP answers next: address is the byte shifted left by 8, no hook fires, and the state is the matching low state. Every register not named keeps its value, each event uses one reply, and the rest of the instance is unchanged. -/
def Obligations.StepStoresAddressHighByte : Prop :=
  (∀ b i (s : State), s.initialised = true → s.d.error = .none → s.d.state = .singleAddrHi → 
    ∃ t, exec (.pStep b i) s = .next t ∧
      t.d = { s.d with runningCrc := crcUpdate s.d.runningCrc b, address := b.setWidth 16 <<< 8, state := .singleAddrLo } ∧ t.events = [] ∧
      ByteGiven b i s t) ∧
  ∀ b i (s : State), s.initialised = true → s.d.error = .none → s.d.state = .startAddrHi → 
    ∃ t, exec (.pStep b i) s = .next t ∧
      t.d = { s.d with runningCrc := crcUpdate s.d.runningCrc b, address := b.setWidth 16 <<< 8, state := .startAddrLo } ∧ t.events = [] ∧
      ByteGiven b i s t

/-- In single-addr-lo and start-addr-lo P.STEP answers next: the byte is or-ed into address and on-address fires if present; after a single write's address the data region has length 2 and the state is data, after a starting address the state is qty-hi. Every register not named keeps its value, each event uses one reply, and the rest of the instance is unchanged. -/
def Obligations.StepStoresAddressLowByte : Prop :=
  (∀ b i (s : State), Ready s → s.d.error = .none → s.d.state = .singleAddrLo → 
    let d := { s.d with runningCrc := crcUpdate s.d.runningCrc b, address := s.d.address ||| b.setWidth 16, dataLen := 2, dataCnt := 0 }
    ∃ t, exec (.pStep b i) s = .next t ∧ t.d = { d with state := .data, error := errorAfter s .onAddress } ∧
      t.events = eventsOf s .onAddress d ∧ ByteGiven b i s t) ∧
  ∀ b i (s : State), Ready s → s.d.error = .none → s.d.state = .startAddrLo → 
    let d := { s.d with runningCrc := crcUpdate s.d.runningCrc b, address := s.d.address ||| b.setWidth 16 }
    ∃ t, exec (.pStep b i) s = .next t ∧ t.d = { d with state := .qtyHi, error := errorAfter s .onAddress } ∧
      t.events = eventsOf s .onAddress d ∧ ByteGiven b i s t

/-- In qty-hi P.STEP answers next: quantity is the byte shifted left by 8, no hook fires, the state is qty-lo. In qty-lo it answers next: the byte is or-ed into quantity, on-quantity fires if present, and the state is crc-lo after a read query and a multi-write response and byte-count after a multi-write query. Every register not named keeps its value, each event uses one reply, and the rest of the instance is unchanged. -/
def Obligations.StepStoresQuantity : Prop :=
  (∀ b i (s : State), s.initialised = true → s.d.error = .none → s.d.state = .qtyHi → 
    ∃ t, exec (.pStep b i) s = .next t ∧
      t.d = { s.d with runningCrc := crcUpdate s.d.runningCrc b, quantity := b.setWidth 16 <<< 8, state := .qtyLo } ∧ t.events = [] ∧
      ByteGiven b i s t) ∧
  ∀ b i (s : State) n, Ready s → s.d.error = .none → s.d.state = .qtyLo → 
    (s.d.kind = .query ∧ classify s.d.function = some .read ∧ n = .crcLo ∨
      s.d.kind = .query ∧ classify s.d.function = some .multi ∧ n = .byteCount ∨
      s.d.kind = .response ∧ classify s.d.function = some .multi ∧ n = .crcLo) →
    let d := { s.d with runningCrc := crcUpdate s.d.runningCrc b, quantity := s.d.quantity ||| b.setWidth 16 }
    ∃ t, exec (.pStep b i) s = .next t ∧ t.d = { d with state := n, error := errorAfter s .onQuantity } ∧
      t.events = eventsOf s .onQuantity d ∧ ByteGiven b i s t

/-- In state data with data_cnt < data_len P.STEP answers next: running_crc takes the byte, data_cnt and payload.length grow by one, payload.offset becomes i where the window was empty (that a P.STEP the embedder issues is taken at every i, and so which window it leaves, is the model's own choice: log entry 23, DESIGN CHOICE); on-data-start is due at the first byte of the region and on-data-end, unless on-data-start failed, at the last; hook-aborted is latched exactly if one of them is present and fails; the state is crc-lo after the last byte and data otherwise. Every register not named keeps its value, each event uses one reply, and the rest of the instance is unchanged. -/
def Obligations.StepCountsDataBytes : Prop :=
  ∀ b i (s : State), Ready s → s.d.error = .none → s.d.state = .data → s.d.dataCnt.toNat < s.d.dataLen.toNat →
    let cnt := s.d.dataCnt + 1
    let d := { s.d with
               runningCrc := crcUpdate s.d.runningCrc b, dataCnt := cnt,
               payload := { offset := if s.d.payload.length = 0 then i else s.d.payload.offset,
                            length := s.d.payload.length + 1 } }
    let startEvents := if cnt = 1 then eventsOf s .onDataStart d else []
    let startFails := startEvents ≠ [] ∧ replyAt s 0 = .fail
    ∃ t endEvents, exec (.pStep b i) s = .next t ∧
      (cnt = s.d.dataLen ∧ ¬ startFails → endEvents = eventsOf s .onDataEnd d) ∧
      (cnt ≠ s.d.dataLen ∨ startFails → endEvents = []) ∧ t.events = startEvents ++ endEvents ∧
      t.d = { d with state := if cnt = s.d.dataLen then .crcLo else .data, error := t.d.error } ∧
      (startFails ∨ endEvents ≠ [] ∧ replyAt s startEvents.length = .fail → t.d.error = .hookAborted) ∧
      (¬ (startFails ∨ endEvents ≠ [] ∧ replyAt s startEvents.length = .fail) → t.d.error = .none) ∧
      ByteGiven b i s t

/-- In state crc-lo P.STEP answers next: frame_crc is the byte with high byte 0, running_crc is unchanged, no hook fires, the state is crc-hi. Every register not named keeps its value, each event uses one reply, and the rest of the instance is unchanged. -/
def Obligations.StepStoresCrcLowByte : Prop :=
  ∀ b i (s : State), s.initialised = true → s.d.error = .none → s.d.state = .crcLo →
    ∃ t, exec (.pStep b i) s = .next t ∧ t.d = { s.d with frameCrc := b.setWidth 16, state := .crcHi } ∧ t.events = [] ∧
      ByteGiven b i s t

/-- In state crc-hi P.STEP answers next with frame_crc completed and running_crc unchanged. On equality the state is complete before on-complete fires, and hook-aborted is latched exactly if on-complete is present and fails. On inequality error is crc-mismatch, whatever on-crc-error, which fires if present, replies, and the state stays crc-hi. Every register not named keeps its value, each event uses one reply, and the rest of the instance is unchanged. -/
def Obligations.StepComparesTheChecksums : Prop :=
  ∀ b i (s : State), Ready s → s.d.error = .none → s.d.state = .crcHi →
    let crc : Half := s.d.frameCrc ||| ((b.setWidth 16 : Half) <<< 8)
    (crc = s.d.runningCrc →
      ∃ t, exec (.pStep b i) s = .next t ∧
        t.d = { s.d with frameCrc := crc, state := .complete, error := errorAfter s .onComplete } ∧
        t.events = eventsOf s .onComplete { s.d with frameCrc := crc, state := .complete } ∧ ByteGiven b i s t) ∧
    (crc ≠ s.d.runningCrc →
      ∃ t, exec (.pStep b i) s = .next t ∧ t.d = { s.d with frameCrc := crc, error := .crcMismatch } ∧
        t.events = eventsOf s .onCrcError { s.d with frameCrc := crc, error := .crcMismatch } ∧ ByteGiven b i s t)

/-- P.STEP on an initialised instance with an error latched or in complete is refused as outside its precondition, and on an instance never initialised as uninitialised. -/
def Obligations.StepOutsidePreconditionRefused : Prop :=
  (∀ b i (s : State), s.initialised = true → s.d.error ≠ .none ∨ s.d.state = .complete →
    exec (.pStep b i) s = .refused .stepGated) ∧
  ∀ b i (s : State), s.initialised = false → exec (.pStep b i) s = .refused .uninitialised

/-- On an initialised instance with an error latched, in complete, or with an empty input, P.EXEC answers next, returns 0, clears payload, fires no hook, uses no reply and changes nothing else; IN is what the embedder presented. -/
def Obligations.ExecIsGatedByErrorAndComplete : Prop :=
  ∀ bs (s : State), s.initialised = true → s.d.error ≠ .none ∨ s.d.state = .complete ∨ bs = [] →
    ∃ m, (∀ a, Memory.read m a = bs[a]?) ∧
      exec (.pExec bs) s =
        .next { s with d := { s.d with payload := { offset := 0, length := 0 } }, input := m, result := .consumed 0, events := [] }

/-- On an instance that is brought up and satisfies the invariant, P.EXEC answers next for every input and every reply: it returns a count r up to the input's length, r falls short only where an error is latched or the frame is complete, the window names consumed bytes only, IN is as presented, each event uses one reply, and the rest of the instance is unchanged. -/
def Obligations.ExecConsumesUntilTerminal : Prop :=
  ∀ bs (s : State), Inv s → Ready s →
    ∃ t r, exec (.pExec bs) s = .next t ∧ t.result = .consumed r ∧ r ≤ bs.length ∧
      (r < bs.length → t.d.error ≠ .none ∨ t.d.state = .complete) ∧
      t.d.payload.offset + t.d.payload.length.toNat ≤ r ∧ t.d.kind = s.d.kind ∧ t.d.userContext = s.d.userContext ∧
      (∀ a, Memory.read t.input a = bs[a]?) ∧ RepliesUsed t.events.length s t ∧ Surroundings s t

/-- Before the first P.INIT, P.EXEC, P.STEP, P.RESET and every frame row are refused. After it but before H.RESET, P.EXEC on a fresh descriptor, whose first byte makes a hook due, is refused, whatever HOOK_EN holds (that it is refused also where an H.SET wrote the hook's own bit 0 is the model's own choice: log entry 24, DESIGN CHOICE; the flag that says H.RESET was applied is log entry 11's, DEDUCED, and the one for P.INIT log entry 10's). -/
def Obligations.ParserRefusedBeforeBringUp : Prop :=
  (∀ i (s : State), feedsParser i = true ∨ i = .pReset → s.initialised = false → exec i s = .refused .uninitialised) ∧
  ∀ b bs k (s : State), s.initialised = true → s.hooksReset = false → s.d = Desc.fresh k s.d.userContext →
    exec (.pExec (b :: bs)) s = .refused .hooksUndefined

/-- On a descriptor with no error latched and not complete, P.EXEC of one byte answers next exactly when P.STEP of that byte at index 0 does from the state with the window cleared and IN empty, with the same state but for the count 1 returned. -/
def Obligations.ExecOfOneByteIsOneStep : Prop :=
  ∀ b (s t : State), s.d.error = .none → s.d.state ≠ .complete →
    (exec (.pExec [b]) s = .next { t with result := .consumed 1 } ∧ t.result = .nothing ↔
      exec (.pStep b 0) { s with d := { s.d with payload := { offset := 0, length := 0 } }, input := [] } = .next t)

/-- Whenever P.EXEC on s1 and then P.EXEC on s2 both answer next, P.EXEC on s1 ++ s2 from the same state answers next, with the same final descriptor but for payload, a count that is the sum of the two, the same hooks in the same order with the same snapshots but for payload, the same replies used, and the rest of the instance the same. It holds from every state, so for any number of pieces. -/
def Obligations.ExecResumesAcrossChunks : Prop :=
  ∀ a b (s t u : State) m n, exec (.pExec a) s = .next t → exec (.pExec b) t = .next u → t.result = .consumed m →
    u.result = .consumed n →
    ∃ v, exec (.pExec (a ++ b)) s = .next v ∧ v.result = .consumed (m + n) ∧ SameButPayload v.d u.d ∧
      List.Forall₂ (fun e e' => e.hook = e'.hook ∧ SameButPayload e.snapshot e'.snapshot) v.events (t.events ++ u.events) ∧
      SameReplies u v ∧ Surroundings u v

/-- After P.EXEC from any state that satisfies the invariant, running_crc is the fold, from its value before, of the consumed bytes without those consumed in the two CRC states; from a fresh descriptor it is crc16 of the consumed bytes without the CRC bytes. -/
def Obligations.RunningCrcCoversTheFrame : Prop :=
  (∀ bs (s t : State) r, Inv s → exec (.pExec bs) s = .next t → t.result = .consumed r →
    crcBytesSeen s.d ≤ crcBytesSeen t.d ∧
    t.d.runningCrc = (bs.take (r - (crcBytesSeen t.d - crcBytesSeen s.d))).foldl crcUpdate s.d.runningCrc) ∧
  ∀ bs k (s t : State) r, FreshFor k s → exec (.pExec bs) s = .next t → t.result = .consumed r →
    t.d.runningCrc = crc16 (bs.take (r - crcBytesSeen t.d))

/-- In every P.EXEC that answers next from a descriptor with no error latched, every reply but the last used one was ok; hook-aborted is latched only if the last was fail, and if the last was fail an error is latched: hook-aborted, or crc-mismatch where that was latched first. -/
def Obligations.FailingReplyEndsTheCall : Prop :=
  ∀ bs (s t : State), s.d.error = .none → exec (.pExec bs) s = .next t →
    (∀ k, k + 1 < t.events.length → replyAt s k = .ok) ∧
    (t.d.error = .hookAborted → ∃ k, t.events.length = k + 1 ∧ replyAt s k = .fail) ∧
    ∀ k, t.events.length = k + 1 → replyAt s k = .fail → t.d.error = .hookAborted ∨ t.d.error = .crcMismatch

/-- If P.EXEC answers next with some hook table and every reply it could use is ok, then with any other hook table it answers next with the same descriptor and the same count. -/
def Obligations.AbsentHooksActAsOk : Prop :=
  ∀ bs (m : BitVec 9) (s t : State), exec (.pExec bs) s = .next t → RepliesOk (2 * bs.length) s →
    ∃ u, exec (.pExec bs) { s with hookEn := m } = .next u ∧ u.d = t.d ∧ u.result = t.result

/-- On a fresh Query descriptor, with the replies ok, each of Q.READ_COILS, Q.READ_DISCRETE, Q.READ_HOLD_REG and Q.READ_INPUT_REG with the CRC of its first six bytes answers next: 8 bytes consumed, state complete, no error, slave_address, function, address, quantity and both CRCs as in the frame, every other register as P.INIT left it, and on-slave-address, on-function, on-address, on-quantity, on-complete fired once each in order where present. -/
def Obligations.ReadQueryFramesDecode : Prop :=
  ∀ (s : State) slave f (a q : Half) mk,
    (f, mk) ∈ ([(1, .qReadCoils), (2, .qReadDiscrete), (3, .qReadHoldReg), (4, .qReadInputReg)] :
      List (Byte × (Byte → Half → Half → Half → Instr))) → FreshFor .query s → RepliesOk 5 s →
    let covered := [slave, f, a.extractLsb' 8 8, a.extractLsb' 0 8, q.extractLsb' 8 8, q.extractLsb' 0 8]
    ∃ t, exec (mk slave a q (crc16 covered)) s = .next t ∧
      t.d = { Desc.fresh .query s.d.userContext with
              state := .complete, slaveAddress := slave, function := f, address := a, quantity := q,
              frameCrc := crc16 covered, runningCrc := crc16 covered } ∧
      FrameGiven (crcAppended covered) [.onSlaveAddress, .onFunction, .onAddress, .onQuantity, .onComplete] s t

/-- On a fresh descriptor of either kind, with the replies ok, each of the four single-write rows with the CRC of its first six bytes answers next: 8 bytes consumed, state complete, no error, slave_address, function, address and both CRCs as in the frame, data_len = data_cnt = 2, payload = (4, 2), quantity and byte_count 0, every other register as P.INIT left it, and the hooks of R151 fired once each in order where present. -/
def Obligations.SingleWriteFramesDecode : Prop :=
  ∀ (s : State) k slave f (a v : Half) mk,
    (f, mk) ∈ ([(5, .qWriteSingleCoil), (6, .qWriteSingleReg), (5, .rWriteSingleCoil), (6, .rWriteSingleReg)] :
      List (Byte × (Byte → Half → Half → Half → Instr))) → FreshFor k s → RepliesOk 6 s →
    let covered := [slave, f, a.extractLsb' 8 8, a.extractLsb' 0 8, v.extractLsb' 8 8, v.extractLsb' 0 8]
    ∃ t, exec (mk slave a v (crc16 covered)) s = .next t ∧
      t.d = { Desc.fresh k s.d.userContext with
              state := .complete, slaveAddress := slave, function := f, address := a, dataLen := 2, dataCnt := 2,
              payload := { offset := 4, length := 2 }, frameCrc := crc16 covered, runningCrc := crc16 covered } ∧
      FrameGiven (crcAppended covered)
        [.onSlaveAddress, .onFunction, .onAddress, .onDataStart, .onDataEnd, .onComplete] s t

/-- On a fresh Query descriptor, with the replies ok, Q.WRITE_MULTI_COILS and Q.WRITE_MULTI_REGS with N data bytes (0 to 255) and the CRC of the bytes before it answer next: 9 + N bytes consumed, state complete, no error, slave_address, function, address, quantity, byte_count = data_len = data_cnt = N and both CRCs as in the frame, payload (7, N), or (0, 0) for N = 0, every other register as P.INIT left it, and the hooks of R152 fired once each in order where present, the data hooks only for N > 0. -/
def Obligations.MultiWriteQueryFramesDecode : Prop :=
  ∀ (s : State) slave f (a q : Half) (data : List Byte) mk,
    (f, mk) ∈ ([(15, .qWriteMultiCoils), (16, .qWriteMultiRegs)] :
      List (Byte × (Byte → Half → Half → List Byte → Half → Instr))) → FreshFor .query s → RepliesOk 8 s →
    data.length ≤ 255 →
    let n := BitVec.ofNat 8 data.length
    let covered := [slave, f, a.extractLsb' 8 8, a.extractLsb' 0 8, q.extractLsb' 8 8, q.extractLsb' 0 8, n] ++ data
    ∃ t, exec (mk slave a q data (crc16 covered)) s = .next t ∧
      t.d = { Desc.fresh .query s.d.userContext with
              state := .complete, slaveAddress := slave, function := f, address := a, quantity := q, byteCount := n,
              dataLen := n, dataCnt := n, payload := { offset := if data = [] then 0 else 7, length := n },
              frameCrc := crc16 covered, runningCrc := crc16 covered } ∧
      FrameGiven (crcAppended covered)
        ([.onSlaveAddress, .onFunction, .onAddress, .onQuantity, .onByteCount] ++ dataHooks data ++ [.onComplete]) s t

/-- On a fresh Response descriptor, with the replies ok, each of the four read-response rows with N data bytes (0 to 255) and the CRC of the bytes before it answers next: 5 + N bytes consumed, state complete, no error, slave_address, function, byte_count = data_len = data_cnt = N and both CRCs as in the frame, payload (3, N), or (0, 0) for N = 0, address and quantity 0, every other register as P.INIT left it, and the hooks of R153 fired once each in order where present, the data hooks only for N > 0. -/
def Obligations.ReadResponseFramesDecode : Prop :=
  ∀ (s : State) slave f (data : List Byte) mk,
    (f, mk) ∈ ([(1, .rReadCoils), (2, .rReadDiscrete), (3, .rReadHoldReg), (4, .rReadInputReg)] :
      List (Byte × (Byte → List Byte → Half → Instr))) → FreshFor .response s → RepliesOk 6 s → data.length ≤ 255 →
    let n := BitVec.ofNat 8 data.length
    let covered := [slave, f, n] ++ data
    ∃ t, exec (mk slave data (crc16 covered)) s = .next t ∧
      t.d = { Desc.fresh .response s.d.userContext with
              state := .complete, slaveAddress := slave, function := f, byteCount := n, dataLen := n, dataCnt := n,
              payload := { offset := if data = [] then 0 else 3, length := n }, frameCrc := crc16 covered,
              runningCrc := crc16 covered } ∧
      FrameGiven (crcAppended covered)
        ([.onSlaveAddress, .onFunction, .onByteCount] ++ dataHooks data ++ [.onComplete]) s t

/-- On a fresh Response descriptor, with the replies ok, R.WRITE_MULTI_COILS and R.WRITE_MULTI_REGS with the CRC of their first six bytes answer next: 8 bytes consumed, state complete, no error, slave_address, function, address, quantity and both CRCs as in the frame, byte_count, data_len and payload 0, every other register as P.INIT left it, and the hooks of R155 fired once each in order where present. -/
def Obligations.MultiWriteResponseFramesDecode : Prop :=
  ∀ (s : State) slave f (a q : Half) mk,
    (f, mk) ∈ ([(15, .rWriteMultiCoils), (16, .rWriteMultiRegs)] : List (Byte × (Byte → Half → Half → Half → Instr))) →
    FreshFor .response s → RepliesOk 5 s →
    let covered := [slave, f, a.extractLsb' 8 8, a.extractLsb' 0 8, q.extractLsb' 8 8, q.extractLsb' 0 8]
    ∃ t, exec (mk slave a q (crc16 covered)) s = .next t ∧
      t.d = { Desc.fresh .response s.d.userContext with
              state := .complete, slaveAddress := slave, function := f, address := a, quantity := q,
              frameCrc := crc16 covered, runningCrc := crc16 covered } ∧
      FrameGiven (crcAppended covered) [.onSlaveAddress, .onFunction, .onAddress, .onQuantity, .onComplete] s t

/-- For every well-formed frame row and whatever CRC it carries, on a fresh descriptor of its kind with the replies ok: exec answers next and consumes the whole frame; frame_crc is the CRC it carries and running_crc that of the bytes before it. If they are equal, the state is complete, no error is latched, and the present field hooks and then on-complete fire once each in wire order; if not, error is crc-mismatch, the state stays crc-hi, and on-crc-error fires in place of on-complete. -/
def Obligations.FrameVerdictIsItsChecksum : Prop :=
  ∀ i k (s : State), WellFormed i = true → frameKind i = some k → FreshFor k s → RepliesOk 8 s →
    let bs := frameBytes i
    ∃ t, exec i s = .next t ∧ t.d.frameCrc = sentCrc bs ∧ t.d.runningCrc = crc16 (coveredBytes bs) ∧
      (sentCrc bs = crc16 (coveredBytes bs) →
        t.d.state = .complete ∧ t.d.error = .none ∧ FrameGiven bs (fieldHooks i ++ [.onComplete]) s t) ∧
      (sentCrc bs ≠ crc16 (coveredBytes bs) →
        t.d.state = .crcHi ∧ t.d.error = .crcMismatch ∧ FrameGiven bs (fieldHooks i ++ [.onCrcError]) s t)

/-- From a descriptor with an error latched or in complete, every operation of every row other than P.INIT and P.RESET that answers next leaves every descriptor register but payload and user_context as it was, and fires no hook. -/
def Obligations.TerminalStatesHoldUntilInit : Prop :=
  ∀ i (s t : State), s.d.error ≠ .none ∨ s.d.state = .complete → exec i s = .next t → (∀ k, i ≠ .pInit k) →
    i ≠ .pReset → t.d = { s.d with payload := t.d.payload, userContext := t.d.userContext } ∧ t.events = []

/-- From a descriptor that satisfies the invariant, a P.STEP that answers next either moves to a state later on the wire (the order of R12 but with byte-count between qty-lo and data, log entry 22), or stays in data and counts one data byte, or stays in function with unknown-function or in crc-hi with crc-mismatch. -/
def Obligations.EveryByteAdvancesOnTheWire : Prop :=
  ∀ b i (s t : State), s.d.Inv → exec (.pStep b i) s = .next t →
    wireOrder s.d.state < wireOrder t.d.state ∨
    (s.d.state = .data ∧ t.d.state = .data ∧ t.d.dataCnt.toNat = s.d.dataCnt.toNat + 1) ∨
    (s.d.state = .function ∧ t.d.state = .function ∧ t.d.error = .unknownFunction) ∨
    (s.d.state = .crcHi ∧ t.d.state = .crcHi ∧ t.d.error = .crcMismatch)

/-- From a descriptor that satisfies the invariant, no P.STEP moves to a state with a smaller number of R12. It fails: R136 and R142 send a multi-write query from qty-lo (8) to byte-count (2) (log entry 22). -/
def Obligations.StateNumberNeverDecreases : Prop :=
  ∀ b i (s t : State), s.d.Inv → exec (.pStep b i) s = .next t → stateCode s.d.state ≤ stateCode t.d.state

/-- Over every row and state, where exec answers next: only CTX.WRITE changes user_context, only H.RESET and H.SET change HOOK_EN, only P.INIT changes kind, only the rows of GEN change a byte of OUT or the query descriptor presented, only P.INIT, P.RESET and the rows that give bytes to PARSER change any other descriptor register, and no operation makes an instance that is brought up not so ("brought up" is the model's own two flags, log entries 10 and 11, DEDUCED from R240 and R242). -/
def Obligations.RegistersHaveTheirOwnWriters : Prop :=
  ∀ i (s t : State), exec i s = .next t →
    (t.d.userContext ≠ s.d.userContext → ∃ v, i = .ctxWrite v) ∧
    (t.hookEn ≠ s.hookEn → i = .hReset ∨ ∃ h p, i = .hSet h p) ∧
    (t.d.kind ≠ s.d.kind → ∃ k, i = .pInit k) ∧
    (isGen i = false → SameOut s t ∧ t.query = s.query) ∧
    (feedsParser i = false → (∀ k, i ≠ .pInit k) → i ≠ .pReset → { t.d with userContext := s.d.userContext } = s.d) ∧
    (Ready s → Ready t)

/-- For every row of GEN: what it returns and what it writes to OUT is the same from any two states with the same OUT, whatever their descriptors, hook tables and replies; and where it answers next, it changes nothing but the query descriptor presented, OUT, the result and the events, of which there are none. -/
def Obligations.GeneratorTouchesNoParserState : Prop :=
  (∀ i (s t : State), isGen i = true → exec i s = .next t →
    t = { s with query := t.query, out := t.out, result := t.result, events := [] }) ∧
  ∀ i (s s' t : State), isGen i = true → s.out = s'.out → exec i s = .next t →
    ∃ t', exec i s' = .next t' ∧ t'.result = t.result ∧ t'.out = t.out ∧ t'.query = t.query

/-- With capacity at least 8, each of the four read rows answers next, returns 8 and writes exactly slave, code, address and quantity high byte first, and their CRC low byte first, at OUT[0..8); every other byte of OUT reads as before; values and value_count are ignored. Nothing else changes but the query descriptor presented. With less capacity it answers next, returns −1 and writes no byte of OUT. -/
def Obligations.GeneratedReadFrames : Prop :=
  ∀ (s : State) f (a : GenArgs) n mk,
    (f, mk) ∈ ([(1, .gReadCoils), (2, .gReadDiscrete), (3, .gReadHoldReg), (4, .gReadInputReg)] :
      List (Byte × (GenArgs → Nat → Instr))) →
    let covered := [a.slaveAddress, f, a.address.extractLsb' 8 8, a.address.extractLsb' 0 8,
      a.quantity.extractLsb' 8 8, a.quantity.extractLsb' 0 8]
    (8 ≤ n → ∃ m, exec (mk a n) s =
      .next { s with query := a.withFunction f, out := m, result := .generated (8), events := [] } ∧
      OutHolds s.out m (crcAppended covered)) ∧
    (n < 8 → exec (mk a n) s =
      .next { s with query := a.withFunction f, result := .generated (-1), events := [] })

/-- With value_count at least 1, the first word supplied and capacity at least 8, both single-write rows answer next, return 8 and write exactly slave, code, address and values[0] high byte first, and their CRC low byte first, at OUT[0..8); every other byte of OUT reads as before; quantity and later words are ignored. Nothing else changes but the query descriptor presented. With less capacity it answers next, returns −1 and writes no byte of OUT. -/
def Obligations.GeneratedSingleWriteFrames : Prop :=
  ∀ (s : State) f (a : GenArgs) n mk,
    (f, mk) ∈ ([(5, .gWriteSingleCoil), (6, .gWriteSingleReg)] :
      List (Byte × (GenArgs → Nat → Instr))) → ∀ v vs, a.values = v :: vs → 1 ≤ a.valueCount →
    let covered := [a.slaveAddress, f, a.address.extractLsb' 8 8, a.address.extractLsb' 0 8, v.extractLsb' 8 8, v.extractLsb' 0 8]
    (8 ≤ n → ∃ m, exec (mk a n) s =
      .next { s with query := a.withFunction f, out := m, result := .generated (8), events := [] } ∧
      OutHolds s.out m (crcAppended covered)) ∧
    (n < 8 → exec (mk a n) s =
      .next { s with query := a.withFunction f, result := .generated (-1), events := [] })

/-- Within the preconditions and with capacity at least 9 + N, N = ceil(quantity / 8), G.WRITE_MULTI_COILS answers next, returns 9 + N and writes exactly slave, 0x0F, address, quantity, N, the N data bytes and the CRC at OUT[0..9 + N); data byte k is the low byte of word k div 2 for an even k and its high byte for an odd k, so coil c is bit c mod 8 of data byte c div 8 and bit c mod 16 of word c div 16; every other byte of OUT reads as before. Nothing else changes but the query descriptor presented. With less capacity it answers next, returns −1 and writes no byte of OUT. -/
def Obligations.GeneratedCoilFrames : Prop :=
  ∀ (s : State) (a : GenArgs) n, a.quantity.toNat ≤ 2040 → (a.quantity.toNat + 15) / 16 ≤ a.valueCount →
    a.valueCount ≤ a.values.length →
    let N := (a.quantity.toNat + 7) / 8
    let data := (List.range N).map fun k =>
      if k % 2 = 0 then (a.values.getD (k / 2) 0).extractLsb' 0 8 else (a.values.getD (k / 2) 0).extractLsb' 8 8
    let covered := [a.slaveAddress, 0x0F, a.address.extractLsb' 8 8, a.address.extractLsb' 0 8,
      a.quantity.extractLsb' 8 8, a.quantity.extractLsb' 0 8, BitVec.ofNat 8 N] ++ data
    (9 + N ≤ n → ∃ m, exec (.gWriteMultiCoils a n) s =
      .next { s with query := a.withFunction 0x0F, out := m, result := .generated (9 + N : Nat), events := [] } ∧
      OutHolds s.out m (crcAppended covered)) ∧
    (n < 9 + N → exec (.gWriteMultiCoils a n) s =
      .next { s with query := a.withFunction 0x0F, result := .generated (-1), events := [] }) ∧
    ∀ c, c < a.quantity.toNat → (data.getD (c / 8) 0).getLsbD (c % 8) = (a.values.getD (c / 16) 0).getLsbD (c % 16)

/-- With value_count at most 127, the words supplied and capacity at least 9 + 2 * value_count, G.WRITE_MULTI_REGS answers next, returns that length and writes exactly slave, 0x10, address, the quantity (value_count where quantity is 0), the byte count 2 * value_count, each word high byte first, and the CRC at the front of OUT; every other byte of OUT reads as before. Nothing else changes but the query descriptor presented. With less capacity it answers next, returns −1 and writes no byte of OUT. -/
def Obligations.GeneratedRegisterFrames : Prop :=
  ∀ (s : State) (a : GenArgs) n, a.valueCount ≤ 127 → a.valueCount ≤ a.values.length →
    let q := if a.quantity = 0 then BitVec.ofNat 16 a.valueCount else a.quantity
    let data := (a.values.take a.valueCount).flatMap fun v => [v.extractLsb' 8 8, v.extractLsb' 0 8]
    let covered := [a.slaveAddress, 0x10, a.address.extractLsb' 8 8, a.address.extractLsb' 0 8, q.extractLsb' 8 8,
      q.extractLsb' 0 8, BitVec.ofNat 8 (2 * a.valueCount)] ++ data
    (9 + 2 * a.valueCount ≤ n → ∃ m, exec (.gWriteMultiRegs a n) s =
      .next { s with query := a.withFunction 0x10, out := m, result := .generated (9 + 2 * a.valueCount : Nat), events := [] } ∧
      OutHolds s.out m (crcAppended covered)) ∧
    (n < 9 + 2 * a.valueCount → exec (.gWriteMultiRegs a n) s =
      .next { s with query := a.withFunction 0x10, result := .generated (-1), events := [] })

/-- With an unrecognized code G.GEN answers next, returns −2 and writes nothing, whatever the rest. With a recognized one, within the preconditions and with the counted words supplied, it answers next: where capacity is less than the length L of R182 it returns −1 and writes nothing; otherwise it returns L and OUT[0..L) is a frame that starts with slave and code and ends with the CRC of what precedes it, low byte first, every other byte of OUT reading as before. Nothing else changes but the query descriptor presented. -/
def Obligations.GGenAnswersByTheOrderOfTests : Prop :=
  (∀ q n (s : State), classify q.function = none →
    exec (.gGen q n) s = .next { s with query := q, result := .generated (-2), events := [] }) ∧
  ∀ q n (s : State), classify q.function ≠ none → WithinPreconditions q → q.valueCount ≤ q.values.length →
    (n < generatedLength q →
      exec (.gGen q n) s = .next { s with query := q, result := .generated (-1), events := [] }) ∧
    (generatedLength q ≤ n → ∃ m body,
      exec (.gGen q n) s =
        .next { s with query := q, out := m, result := .generated (generatedLength q : Nat), events := [] } ∧
      (crcAppended ([q.slaveAddress, q.function] ++ body)).length = generatedLength q ∧
      OutHolds s.out m (crcAppended ([q.slaveAddress, q.function] ++ body)))

/-- With a recognized function code and outside the preconditions of R187, G.GEN is refused. -/
def Obligations.GeneratorRefusesOutsidePreconditions : Prop :=
  ∀ q n (s : State), classify q.function ≠ none → ¬ WithinPreconditions q →
    exec (.gGen q n) s = .refused .generatorPrecondition

/-- Each of the eight G rows runs, in every state, as G.GEN on the query descriptor with the row's function code. -/
def Obligations.GeneratorRowsAreGGen : Prop :=
  ∀ (s : State) f (a : GenArgs) n mk,
    (f, mk) ∈ ([(1, .gReadCoils), (2, .gReadDiscrete), (3, .gReadHoldReg), (4, .gReadInputReg), (5, .gWriteSingleCoil),
      (6, .gWriteSingleReg), (15, .gWriteMultiCoils), (16, .gWriteMultiRegs)] : List (Byte × (GenArgs → Nat → Instr))) →
    exec (mk a n) s = exec (.gGen (a.withFunction f) n) s

/-- If G.GEN returns a length L > 0 and bs are the bytes OUT[0..L) reads as, then on an instance whose hook table is defined, with the replies ok, P.INIT(Query) and then P.EXEC(bs) answer next: L bytes are consumed, the state is complete, no error is latched, slave_address, function and address are the query's, and quantity is the one on the wire: the query's for codes 1 to 4 and 15, value_count for code 16 where the query's is 0 and the query's otherwise, and 0 for codes 5 and 6. -/
def Obligations.GeneratedFrameParsesBack : Prop :=
  ∀ q n (s t : State) (L : Nat) bs, exec (.gGen q n) s = .next t → t.result = .generated L → 0 < L → bs.length = L →
    (∀ k, (h : k < bs.length) → Memory.read t.out k = some bs[k]) → s.hooksReset = true → RepliesOk 8 s →
    ∃ u v, exec (.pInit .query) t = .next u ∧ exec (.pExec bs) u = .next v ∧ v.result = .consumed L ∧
      v.d.state = .complete ∧ v.d.error = .none ∧ v.d.slaveAddress = q.slaveAddress ∧ v.d.function = q.function ∧
      v.d.address = q.address ∧
      v.d.quantity =
        if q.function = 5 ∨ q.function = 6 then 0
        else if q.function = 16 ∧ q.quantity = 0 then BitVec.ofNat 16 q.valueCount else q.quantity

/-- From every state that satisfies the invariant (the descriptor on the path of its kind and function, the data counters within the region, the window no longer than the data counted, each latched error and complete with what they mean, both byte spaces in canonical form), a step that answers next leaves one that does. -/
def Obligations.StepKeepsTheInvariant : Prop :=
  ∀ s t : State, Inv s → step s = .next t → Inv t

/-- State.reset satisfies the invariant, and neither P.INIT nor H.RESET counts as applied in it. (Its register values are the model's choice, log entries 2 to 6.) -/
def Obligations.ResetSatisfiesTheInvariant : Prop :=
  Inv State.reset ∧ State.reset.initialised = false ∧ State.reset.hooksReset = false

/-- Several instances as a list of states is the model's form (log entry 21, DESIGN CHOICE). Where P.EXEC of a on instance j, then any sequence of operations on other instances, then P.EXEC of b on j all answer next, P.EXEC of a ++ b on j and then the same sequence answer next too. Every other instance ends as it did; j ends with the same descriptor but for payload, a count that is the sum of the two, the same hooks in the same order with the same snapshots but for payload, the same replies used and the same surroundings. And any two operations on different instances, where both answer next, give the same instances in either order, the first leaving every other instance as it was (this clause follows from the form alone). -/
def Obligations.InstancesAreIndependent : Prop :=
  (∀ (sys s₁ s₂ s₃ : Instances) j a b ops, (∀ op ∈ ops, op.1 ≠ j) → sys.run j (.pExec a) = some (.next s₁) →
    s₁.runAll ops = some s₂ → s₂.run j (.pExec b) = some (.next s₃) →
    ∃ t₁ t₂ : Instances, sys.run j (.pExec (a ++ b)) = some (.next t₁) ∧ t₁.runAll ops = some t₂ ∧
      (∀ l, l ≠ j → t₂[l]? = s₃[l]?) ∧
      ∃ p u v m n, s₁[j]? = some p ∧ s₃[j]? = some u ∧ t₂[j]? = some v ∧ p.result = .consumed m ∧
        u.result = .consumed n ∧ v.result = .consumed (m + n) ∧ SameButPayload v.d u.d ∧
        List.Forall₂ (fun e e' => e.hook = e'.hook ∧ SameButPayload e.snapshot e'.snapshot) v.events
          (p.events ++ u.events) ∧ SameReplies u v ∧ Surroundings u v) ∧
  ∀ (sys a b : Instances) j k i e, j ≠ k → sys.run j i = some (.next a) → a.run k e = some (.next b) →
    (∀ l, l ≠ j → a[l]? = sys[l]?) ∧
    ∃ c, sys.run k e = some (.next c) ∧ c.run j i = some (.next b)
end

