-- ==== Sys2Proof/Laws/Checksum.lean ====
section
/-! SUPPORT. Small facts about the CRC shift and the fold. -/

namespace Sys2Proof.Machine

/-- A shift with bit 0 clear only shifts (40_crc.md R100). -/
theorem crcShift_of_even (x : Half) (h : x.getLsbD 0 = false) : crcShift x = x >>> 1 := by
  simp only [crcShift, h, Bool.false_eq_true, if_false]

/-- A shift is linear over exclusive or (R104). -/
theorem crcShift_xor (x y : Half) : crcShift (x ^^^ y) = crcShift x ^^^ crcShift y := by
  unfold crcShift
  rw [BitVec.getLsbD_xor]
  cases hx : x.getLsbD 0 <;> cases hy : y.getLsbD 0 <;> ext i hi <;> simp <;> cases Config.crcPoly[i] <;> simp

/-- So are `n` of them. -/
theorem crcShifts_xor (n : Nat) (x y : Half) : crcShifts n (x ^^^ y) = crcShifts n x ^^^ crcShifts n y := by
  induction n generalizing x y with
  | zero => rfl
  | succ n ih => simp [crcShifts, crcShift_xor, ih]

/-- `n` shifts of a value whose low `n` bits are clear only shift (R100, corner cases). -/
theorem crcShifts_of_low_clear (n : Nat) (x : Half) (h : ∀ i < n, x.getLsbD i = false) : crcShifts n x = x >>> n := by
  induction n generalizing x with
  | zero => simp [crcShifts]
  | succ n ih =>
    rw [crcShifts, crcShift_of_even x (h 0 (by omega)), ih]
    · rw [← BitVec.shiftRight_add, Nat.add_comm]
    · intro i hi
      rw [BitVec.getLsbD_ushiftRight]
      exact h (1 + i) (by omega)

/-- The fold over a concatenation (R103). -/
@[simp] theorem crcFold_append (c : Half) (s t : List Byte) : crcFold c (s ++ t) = crcFold (crcFold c s) t := by
  simp [crcFold]

@[simp] theorem crcFold_nil (c : Half) : crcFold c [] = c := rfl

@[simp] theorem crcFold_cons (c : Half) (b : Byte) (s : List Byte) : crcFold c (b :: s) = crcFold (crcUpdate c b) s := rfl

end Sys2Proof.Machine
end

