-- ==== Sys2Proof/Laws/Decode.lean ====
section
/-! SUPPORT. Splitting and joining bytes, and reading back a data region. -/

namespace Sys2Proof

theorem joinBytes_getLsbD (h l : Byte) (i : Nat) :
    (joinBytes h l).getLsbD i = if i < 8 then l.getLsbD i else h.getLsbD (i - 8) := by
  unfold joinBytes
  exact (BitVec.getLsbD_append (x := h) (y := l)).trans (by split <;> simp_all)

@[simp] theorem joinBytes_hi_lo (v : Half) : joinBytes (hiByte v) (loByte v) = v := by
  refine BitVec.eq_of_getLsbD_eq fun i hi => ?_
  rw [joinBytes_getLsbD]
  simp only [hiByte, loByte, BitVec.getLsbD_extractLsb']
  split
  · simp_all
  · have h1 : i - 8 < 8 := by omega
    have h2 : 8 + (i - 8) = i := by omega
    simp [h1, h2]

@[simp] theorem hiByte_joinBytes (h l : Byte) : hiByte (joinBytes h l) = h := by
  refine BitVec.eq_of_getLsbD_eq fun i hi => ?_
  simp only [hiByte, BitVec.getLsbD_extractLsb', joinBytes_getLsbD]
  simp [hi]

@[simp] theorem loByte_joinBytes (h l : Byte) : loByte (joinBytes h l) = l := by
  refine BitVec.eq_of_getLsbD_eq fun i hi => ?_
  simp only [loByte, BitVec.getLsbD_extractLsb', joinBytes_getLsbD]
  simp [hi]

/-- The count byte of a data region that fits is its length (30_encoding.md R70). -/
theorem countByte_toNat {n : Nat} (h : n ≤ 255) : (countByte n).toNat = n := by
  simp [countByte]; omega

@[simp] theorem countByte_of_toNat (n : Byte) : countByte n.toNat = n := by simp [countByte]

/-- A data region and its CRC are read back as they were laid out. -/
theorem takeData_layout (data : List Byte) (crc : Half) (rest : List Byte) (h : data.length ≤ 255) :
    takeData (countByte data.length :: (data ++ loByte crc :: hiByte crc :: rest)) = .ok ((data, crc), rest) := by
  simp [takeData, countByte_toNat h]

end Sys2Proof
end

