-- ==== Sys2Proof/Laws/Memory.lean ====
section
/-! SUPPORT. Reading after writing, and the canonical form of a byte space. -/

namespace Sys2Proof.Machine

@[simp] theorem Memory.read_nil (a : Nat) : Memory.read [] a = none := rfl

/-- A write is read back. -/
@[simp] theorem Memory.read_write_same (m : Memory) (a : Nat) (v : Byte) : Memory.read (Memory.write m a v) a = some v := by
  induction m with
  | nil => simp [Memory.write, Memory.read]
  | cons c rest ih =>
    unfold Memory.write
    split
    · simp [Memory.read]
    · split
      · simp [Memory.read]
      · rename_i h1 h2
        have hne : ¬ c.1 = a := fun h => h2 h.symm
        simpa [Memory.read, hne] using ih

/-- A write leaves every other index alone. -/
theorem Memory.read_write_other (m : Memory) {a k : Nat} (v : Byte) (h : k ≠ a) :
    Memory.read (Memory.write m a v) k = Memory.read m k := by
  have hne : ¬ a = k := fun e => h e.symm
  induction m with
  | nil => simp [Memory.write, Memory.read, hne]
  | cons c rest ih =>
    unfold Memory.write
    split
    · simp [Memory.read, hne]
    · split
      · rename_i h1 h2
        subst h2
        simp [Memory.read, hne]
      · simp [Memory.read, ih]

/-- What the bytes written from `a` on read as. -/
theorem Memory.read_writeFrom (bs : List Byte) (m : Memory) (a k : Nat) :
    Memory.read (Memory.writeFrom m a bs) k =
      if a ≤ k ∧ k < a + bs.length then bs[k - a]? else Memory.read m k := by
  induction bs generalizing m a with
  | nil => simp [Memory.writeFrom]
  | cons b rest ih =>
    rw [Memory.writeFrom, ih]
    by_cases hk : k = a
    · subst hk; simp
    · rw [Memory.read_write_other _ _ hk]
      by_cases h : a + 1 ≤ k ∧ k < a + 1 + rest.length
      · have h' : a ≤ k ∧ k < a + (b :: rest).length := by simp; omega
        have hs : k - a = (k - (a + 1)) + 1 := by omega
        rw [if_pos h, if_pos h', hs]
        simp
      · have h' : ¬ (a ≤ k ∧ k < a + (b :: rest).length) := by simp at *; omega
        rw [if_neg h, if_neg h']

/-- What the space that holds exactly `bs` reads as. -/
theorem Memory.read_ofBytes (bs : List Byte) (a k : Nat) :
    Memory.read (Memory.ofBytes a bs) k = if a ≤ k then bs[k - a]? else none := by
  induction bs generalizing a with
  | nil => simp [Memory.ofBytes]
  | cons b rest ih =>
    rw [Memory.ofBytes, Memory.read, ih]
    by_cases hk : a = k
    · subst hk; simp
    · by_cases h : a ≤ k
      · have hs : k - a = (k - (a + 1)) + 1 := by omega
        have h1 : a + 1 ≤ k := by omega
        simp [hk, h, h1, hs]
      · have h1 : ¬ a + 1 ≤ k := by omega
        simp [hk, h, h1]

/-- IN reads as the bytes presented. -/
@[simp] theorem Memory.read_ofBytes_zero (bs : List Byte) (k : Nat) :
    Memory.read (Memory.ofBytes 0 bs) k = bs[k]? := by simp [Memory.read_ofBytes]

/-- Every index that a write lists was listed or is the one written. -/
theorem Memory.mem_write {m : Memory} {a : Nat} {v : Byte} {c : Host.Cell} (h : c ∈ Memory.write m a v) :
    c = (a, v) ∨ c ∈ m := by
  induction m with
  | nil => simpa [Memory.write] using h
  | cons x rest ih =>
    unfold Memory.write at h
    split at h
    · simpa using h
    · split at h
      · simp at h; rcases h with h | h <;> simp [h]
      · simp at h
        rcases h with h | h
        · simp [h]
        · rcases ih h with h | h <;> simp [h]

/-- A write keeps the canonical form. -/
theorem Memory.write_wf {m : Memory} (a : Nat) (v : Byte) (h : Memory.wf m) : Memory.wf (Memory.write m a v) := by
  induction m with
  | nil => simp [Memory.write, Memory.wf]
  | cons x rest ih =>
    have hx : ∀ y ∈ rest, x.1 < y.1 := (List.pairwise_cons.mp h).1
    have hr : Memory.wf rest := (List.pairwise_cons.mp h).2
    unfold Memory.write
    split
    · rename_i hlt
      refine List.pairwise_cons.mpr ⟨?_, h⟩
      intro y hy
      rcases List.mem_cons.mp hy with rfl | hy
      · exact hlt
      · exact Nat.lt_trans hlt (hx y hy)
    · split
      · rename_i heq
        refine List.pairwise_cons.mpr ⟨?_, hr⟩
        intro y hy
        simpa [heq] using hx y hy
      · rename_i h1 h2
        refine List.pairwise_cons.mpr ⟨?_, ih hr⟩
        intro y hy
        rcases Memory.mem_write hy with rfl | hy
        · show x.1 < a; omega
        · exact hx y hy

/-- Writing a sequence keeps the canonical form. -/
theorem Memory.writeFrom_wf (bs : List Byte) {m : Memory} (a : Nat) (h : Memory.wf m) :
    Memory.wf (Memory.writeFrom m a bs) := by
  induction bs generalizing m a with
  | nil => exact h
  | cons b rest ih => exact ih (a + 1) (Memory.write_wf a b h)

/-- Every index of the bytes from `a` on is at least `a`. -/
theorem Memory.le_of_mem_ofBytes {bs : List Byte} {a : Nat} {c : Host.Cell} (h : c ∈ Memory.ofBytes a bs) : a ≤ c.1 := by
  induction bs generalizing a with
  | nil => simp [Memory.ofBytes] at h
  | cons b rest ih =>
    simp only [Memory.ofBytes, List.mem_cons] at h
    rcases h with rfl | h
    · exact Nat.le_refl _
    · exact Nat.le_of_succ_le (ih h)

/-- The input of a call is presented in canonical form. -/
theorem Memory.ofBytes_wf (bs : List Byte) (a : Nat) : Memory.wf (Memory.ofBytes a bs) := by
  induction bs generalizing a with
  | nil => simp [Memory.ofBytes, Memory.wf]
  | cons b rest ih => exact List.pairwise_cons.mpr ⟨fun y hy => Memory.le_of_mem_ofBytes hy, ih (a + 1)⟩

end Sys2Proof.Machine
end

