-- ==== Sys2Proof/Laws/State.lean ====
section
/-! SUPPORT. One lemma for each field of each update of the state and of the descriptor. -/

namespace Sys2Proof.Machine

/-! ### `State.begin` -/

@[simp] theorem State.begin_d (s : State) : (s.begin).d = s.d := rfl
@[simp] theorem State.begin_hookEn (s : State) : (s.begin).hookEn = s.hookEn := rfl
@[simp] theorem State.begin_query (s : State) : (s.begin).query = s.query := rfl
@[simp] theorem State.begin_input (s : State) : (s.begin).input = s.input := rfl
@[simp] theorem State.begin_out (s : State) : (s.begin).out = s.out := rfl
@[simp] theorem State.begin_initialised (s : State) : (s.begin).initialised = s.initialised := rfl
@[simp] theorem State.begin_hooksReset (s : State) : (s.begin).hooksReset = s.hooksReset := rfl
@[simp] theorem State.begin_replies (s : State) : (s.begin).replies = s.replies := rfl
@[simp] theorem State.begin_freeReplies (s : State) : (s.begin).freeReplies = s.freeReplies := rfl
@[simp] theorem State.begin_result (s : State) : (s.begin).result = .nothing := rfl
@[simp] theorem State.begin_events (s : State) : (s.begin).events = [] := rfl
@[simp] theorem State.begin_requests (s : State) : (s.begin).requests = s.requests := rfl

/-! ### `State.presentInput` -/

@[simp] theorem State.presentInput_d (s : State) (bs : List Byte) : (s.presentInput bs).d = s.d := rfl
@[simp] theorem State.presentInput_hookEn (s : State) (bs : List Byte) : (s.presentInput bs).hookEn = s.hookEn := rfl
@[simp] theorem State.presentInput_query (s : State) (bs : List Byte) : (s.presentInput bs).query = s.query := rfl
@[simp] theorem State.presentInput_input (s : State) (bs : List Byte) : (s.presentInput bs).input = Memory.ofBytes 0 bs := rfl
@[simp] theorem State.presentInput_out (s : State) (bs : List Byte) : (s.presentInput bs).out = s.out := rfl
@[simp] theorem State.presentInput_initialised (s : State) (bs : List Byte) : (s.presentInput bs).initialised = s.initialised := rfl
@[simp] theorem State.presentInput_hooksReset (s : State) (bs : List Byte) : (s.presentInput bs).hooksReset = s.hooksReset := rfl
@[simp] theorem State.presentInput_replies (s : State) (bs : List Byte) : (s.presentInput bs).replies = s.replies := rfl
@[simp] theorem State.presentInput_freeReplies (s : State) (bs : List Byte) : (s.presentInput bs).freeReplies = s.freeReplies := rfl
@[simp] theorem State.presentInput_result (s : State) (bs : List Byte) : (s.presentInput bs).result = s.result := rfl
@[simp] theorem State.presentInput_events (s : State) (bs : List Byte) : (s.presentInput bs).events = s.events := rfl
@[simp] theorem State.presentInput_requests (s : State) (bs : List Byte) : (s.presentInput bs).requests = s.requests := rfl

/-! ### `State.presentByte` -/

@[simp] theorem State.presentByte_d (s : State) (i : Nat) (b : Byte) : (s.presentByte i b).d = s.d := rfl
@[simp] theorem State.presentByte_hookEn (s : State) (i : Nat) (b : Byte) : (s.presentByte i b).hookEn = s.hookEn := rfl
@[simp] theorem State.presentByte_query (s : State) (i : Nat) (b : Byte) : (s.presentByte i b).query = s.query := rfl
@[simp] theorem State.presentByte_input (s : State) (i : Nat) (b : Byte) : (s.presentByte i b).input = Memory.write s.input i b := rfl
@[simp] theorem State.presentByte_out (s : State) (i : Nat) (b : Byte) : (s.presentByte i b).out = s.out := rfl
@[simp] theorem State.presentByte_initialised (s : State) (i : Nat) (b : Byte) : (s.presentByte i b).initialised = s.initialised := rfl
@[simp] theorem State.presentByte_hooksReset (s : State) (i : Nat) (b : Byte) : (s.presentByte i b).hooksReset = s.hooksReset := rfl
@[simp] theorem State.presentByte_replies (s : State) (i : Nat) (b : Byte) : (s.presentByte i b).replies = s.replies := rfl
@[simp] theorem State.presentByte_freeReplies (s : State) (i : Nat) (b : Byte) : (s.presentByte i b).freeReplies = s.freeReplies := rfl
@[simp] theorem State.presentByte_result (s : State) (i : Nat) (b : Byte) : (s.presentByte i b).result = s.result := rfl
@[simp] theorem State.presentByte_events (s : State) (i : Nat) (b : Byte) : (s.presentByte i b).events = s.events := rfl
@[simp] theorem State.presentByte_requests (s : State) (i : Nat) (b : Byte) : (s.presentByte i b).requests = s.requests := rfl

/-! ### `State.presentQuery` -/

@[simp] theorem State.presentQuery_d (s : State) (q : Query) : (s.presentQuery q).d = s.d := rfl
@[simp] theorem State.presentQuery_hookEn (s : State) (q : Query) : (s.presentQuery q).hookEn = s.hookEn := rfl
@[simp] theorem State.presentQuery_query (s : State) (q : Query) : (s.presentQuery q).query = q := rfl
@[simp] theorem State.presentQuery_input (s : State) (q : Query) : (s.presentQuery q).input = s.input := rfl
@[simp] theorem State.presentQuery_out (s : State) (q : Query) : (s.presentQuery q).out = s.out := rfl
@[simp] theorem State.presentQuery_initialised (s : State) (q : Query) : (s.presentQuery q).initialised = s.initialised := rfl
@[simp] theorem State.presentQuery_hooksReset (s : State) (q : Query) : (s.presentQuery q).hooksReset = s.hooksReset := rfl
@[simp] theorem State.presentQuery_replies (s : State) (q : Query) : (s.presentQuery q).replies = s.replies := rfl
@[simp] theorem State.presentQuery_freeReplies (s : State) (q : Query) : (s.presentQuery q).freeReplies = s.freeReplies := rfl
@[simp] theorem State.presentQuery_result (s : State) (q : Query) : (s.presentQuery q).result = s.result := rfl
@[simp] theorem State.presentQuery_events (s : State) (q : Query) : (s.presentQuery q).events = s.events := rfl
@[simp] theorem State.presentQuery_requests (s : State) (q : Query) : (s.presentQuery q).requests = s.requests := rfl

/-! ### `State.returns` -/

@[simp] theorem State.returns_d (s : State) (r : Result) : (s.returns r).d = s.d := rfl
@[simp] theorem State.returns_hookEn (s : State) (r : Result) : (s.returns r).hookEn = s.hookEn := rfl
@[simp] theorem State.returns_query (s : State) (r : Result) : (s.returns r).query = s.query := rfl
@[simp] theorem State.returns_input (s : State) (r : Result) : (s.returns r).input = s.input := rfl
@[simp] theorem State.returns_out (s : State) (r : Result) : (s.returns r).out = s.out := rfl
@[simp] theorem State.returns_initialised (s : State) (r : Result) : (s.returns r).initialised = s.initialised := rfl
@[simp] theorem State.returns_hooksReset (s : State) (r : Result) : (s.returns r).hooksReset = s.hooksReset := rfl
@[simp] theorem State.returns_replies (s : State) (r : Result) : (s.returns r).replies = s.replies := rfl
@[simp] theorem State.returns_freeReplies (s : State) (r : Result) : (s.returns r).freeReplies = s.freeReplies := rfl
@[simp] theorem State.returns_result (s : State) (r : Result) : (s.returns r).result = r := rfl
@[simp] theorem State.returns_events (s : State) (r : Result) : (s.returns r).events = s.events := rfl
@[simp] theorem State.returns_requests (s : State) (r : Result) : (s.returns r).requests = s.requests := rfl

/-! ### `State.setDesc` -/

@[simp] theorem State.setDesc_d (s : State) (d : Desc) : (s.setDesc d).d = d := rfl
@[simp] theorem State.setDesc_hookEn (s : State) (d : Desc) : (s.setDesc d).hookEn = s.hookEn := rfl
@[simp] theorem State.setDesc_query (s : State) (d : Desc) : (s.setDesc d).query = s.query := rfl
@[simp] theorem State.setDesc_input (s : State) (d : Desc) : (s.setDesc d).input = s.input := rfl
@[simp] theorem State.setDesc_out (s : State) (d : Desc) : (s.setDesc d).out = s.out := rfl
@[simp] theorem State.setDesc_initialised (s : State) (d : Desc) : (s.setDesc d).initialised = s.initialised := rfl
@[simp] theorem State.setDesc_hooksReset (s : State) (d : Desc) : (s.setDesc d).hooksReset = s.hooksReset := rfl
@[simp] theorem State.setDesc_replies (s : State) (d : Desc) : (s.setDesc d).replies = s.replies := rfl
@[simp] theorem State.setDesc_freeReplies (s : State) (d : Desc) : (s.setDesc d).freeReplies = s.freeReplies := rfl
@[simp] theorem State.setDesc_result (s : State) (d : Desc) : (s.setDesc d).result = s.result := rfl
@[simp] theorem State.setDesc_events (s : State) (d : Desc) : (s.setDesc d).events = s.events := rfl
@[simp] theorem State.setDesc_requests (s : State) (d : Desc) : (s.setDesc d).requests = s.requests := rfl

/-! ### `State.emit` -/

@[simp] theorem State.emit_d (s : State) (h : Hook) : (s.emit h).d = s.d := rfl
@[simp] theorem State.emit_hookEn (s : State) (h : Hook) : (s.emit h).hookEn = s.hookEn := rfl
@[simp] theorem State.emit_query (s : State) (h : Hook) : (s.emit h).query = s.query := rfl
@[simp] theorem State.emit_input (s : State) (h : Hook) : (s.emit h).input = s.input := rfl
@[simp] theorem State.emit_out (s : State) (h : Hook) : (s.emit h).out = s.out := rfl
@[simp] theorem State.emit_initialised (s : State) (h : Hook) : (s.emit h).initialised = s.initialised := rfl
@[simp] theorem State.emit_hooksReset (s : State) (h : Hook) : (s.emit h).hooksReset = s.hooksReset := rfl
@[simp] theorem State.emit_replies (s : State) (h : Hook) : (s.emit h).replies = s.replies := rfl
@[simp] theorem State.emit_freeReplies (s : State) (h : Hook) : (s.emit h).freeReplies = s.freeReplies := rfl
@[simp] theorem State.emit_result (s : State) (h : Hook) : (s.emit h).result = s.result := rfl
@[simp] theorem State.emit_events (s : State) (h : Hook) : (s.emit h).events = s.events ++ [{ hook := h, snapshot := s.d }] := rfl
@[simp] theorem State.emit_requests (s : State) (h : Hook) : (s.emit h).requests = s.requests := rfl

/-! ### `State.startCall` -/

@[simp] theorem State.startCall_d (s : State) (bs : List Byte) : (s.startCall bs).d = s.d.clearPayload := rfl
@[simp] theorem State.startCall_hookEn (s : State) (bs : List Byte) : (s.startCall bs).hookEn = s.hookEn := rfl
@[simp] theorem State.startCall_query (s : State) (bs : List Byte) : (s.startCall bs).query = s.query := rfl
@[simp] theorem State.startCall_input (s : State) (bs : List Byte) : (s.startCall bs).input = Memory.ofBytes 0 bs := rfl
@[simp] theorem State.startCall_out (s : State) (bs : List Byte) : (s.startCall bs).out = s.out := rfl
@[simp] theorem State.startCall_initialised (s : State) (bs : List Byte) : (s.startCall bs).initialised = s.initialised := rfl
@[simp] theorem State.startCall_hooksReset (s : State) (bs : List Byte) : (s.startCall bs).hooksReset = s.hooksReset := rfl
@[simp] theorem State.startCall_replies (s : State) (bs : List Byte) : (s.startCall bs).replies = s.replies := rfl
@[simp] theorem State.startCall_freeReplies (s : State) (bs : List Byte) : (s.startCall bs).freeReplies = s.freeReplies := rfl
@[simp] theorem State.startCall_result (s : State) (bs : List Byte) : (s.startCall bs).result = .nothing := rfl
@[simp] theorem State.startCall_events (s : State) (bs : List Byte) : (s.startCall bs).events = [] := rfl
@[simp] theorem State.startCall_requests (s : State) (bs : List Byte) : (s.startCall bs).requests = s.requests := rfl

/-! ### `State.afterReply` -/

@[simp] theorem State.afterReply_d (s : State) : s.afterReply.d = s.d := by
  unfold State.afterReply; split <;> rfl

@[simp] theorem State.afterReply_hookEn (s : State) : s.afterReply.hookEn = s.hookEn := by
  unfold State.afterReply; split <;> rfl

@[simp] theorem State.afterReply_query (s : State) : s.afterReply.query = s.query := by
  unfold State.afterReply; split <;> rfl

@[simp] theorem State.afterReply_input (s : State) : s.afterReply.input = s.input := by
  unfold State.afterReply; split <;> rfl

@[simp] theorem State.afterReply_out (s : State) : s.afterReply.out = s.out := by
  unfold State.afterReply; split <;> rfl

@[simp] theorem State.afterReply_initialised (s : State) : s.afterReply.initialised = s.initialised := by
  unfold State.afterReply; split <;> rfl

@[simp] theorem State.afterReply_hooksReset (s : State) : s.afterReply.hooksReset = s.hooksReset := by
  unfold State.afterReply; split <;> rfl

@[simp] theorem State.afterReply_result (s : State) : s.afterReply.result = s.result := by
  unfold State.afterReply; split <;> rfl

@[simp] theorem State.afterReply_events (s : State) : s.afterReply.events = s.events := by
  unfold State.afterReply; split <;> rfl

@[simp] theorem State.afterReply_requests (s : State) : s.afterReply.requests = s.requests := by
  unfold State.afterReply; split <;> rfl

/-! ### `Desc.clearPayload` -/

@[simp] theorem Desc.clearPayload_kind (d : Desc) : (d.clearPayload).kind = d.kind := rfl
@[simp] theorem Desc.clearPayload_state (d : Desc) : (d.clearPayload).state = d.state := rfl
@[simp] theorem Desc.clearPayload_slaveAddress (d : Desc) : (d.clearPayload).slaveAddress = d.slaveAddress := rfl
@[simp] theorem Desc.clearPayload_function (d : Desc) : (d.clearPayload).function = d.function := rfl
@[simp] theorem Desc.clearPayload_address (d : Desc) : (d.clearPayload).address = d.address := rfl
@[simp] theorem Desc.clearPayload_quantity (d : Desc) : (d.clearPayload).quantity = d.quantity := rfl
@[simp] theorem Desc.clearPayload_byteCount (d : Desc) : (d.clearPayload).byteCount = d.byteCount := rfl
@[simp] theorem Desc.clearPayload_payload (d : Desc) : (d.clearPayload).payload = { offset := 0, length := 0#8 } := rfl
@[simp] theorem Desc.clearPayload_frameCrc (d : Desc) : (d.clearPayload).frameCrc = d.frameCrc := rfl
@[simp] theorem Desc.clearPayload_runningCrc (d : Desc) : (d.clearPayload).runningCrc = d.runningCrc := rfl
@[simp] theorem Desc.clearPayload_error (d : Desc) : (d.clearPayload).error = d.error := rfl
@[simp] theorem Desc.clearPayload_userContext (d : Desc) : (d.clearPayload).userContext = d.userContext := rfl
@[simp] theorem Desc.clearPayload_dataLen (d : Desc) : (d.clearPayload).dataLen = d.dataLen := rfl
@[simp] theorem Desc.clearPayload_dataCnt (d : Desc) : (d.clearPayload).dataCnt = d.dataCnt := rfl

/-! ### `Desc.advance` -/

@[simp] theorem Desc.advance_kind (d : Desc) (t : ParserState) : (d.advance t).kind = d.kind := rfl
@[simp] theorem Desc.advance_state (d : Desc) (t : ParserState) : (d.advance t).state = t := rfl
@[simp] theorem Desc.advance_slaveAddress (d : Desc) (t : ParserState) : (d.advance t).slaveAddress = d.slaveAddress := rfl
@[simp] theorem Desc.advance_function (d : Desc) (t : ParserState) : (d.advance t).function = d.function := rfl
@[simp] theorem Desc.advance_address (d : Desc) (t : ParserState) : (d.advance t).address = d.address := rfl
@[simp] theorem Desc.advance_quantity (d : Desc) (t : ParserState) : (d.advance t).quantity = d.quantity := rfl
@[simp] theorem Desc.advance_byteCount (d : Desc) (t : ParserState) : (d.advance t).byteCount = d.byteCount := rfl
@[simp] theorem Desc.advance_payload (d : Desc) (t : ParserState) : (d.advance t).payload = d.payload := rfl
@[simp] theorem Desc.advance_frameCrc (d : Desc) (t : ParserState) : (d.advance t).frameCrc = d.frameCrc := rfl
@[simp] theorem Desc.advance_runningCrc (d : Desc) (t : ParserState) : (d.advance t).runningCrc = d.runningCrc := rfl
@[simp] theorem Desc.advance_error (d : Desc) (t : ParserState) : (d.advance t).error = d.error := rfl
@[simp] theorem Desc.advance_userContext (d : Desc) (t : ParserState) : (d.advance t).userContext = d.userContext := rfl
@[simp] theorem Desc.advance_dataLen (d : Desc) (t : ParserState) : (d.advance t).dataLen = d.dataLen := rfl
@[simp] theorem Desc.advance_dataCnt (d : Desc) (t : ParserState) : (d.advance t).dataCnt = d.dataCnt := rfl

/-! ### `Desc.checksum` -/

@[simp] theorem Desc.checksum_kind (d : Desc) (b : Byte) : (d.checksum b).kind = d.kind := by
  unfold Desc.checksum; split <;> rfl

@[simp] theorem Desc.checksum_state (d : Desc) (b : Byte) : (d.checksum b).state = d.state := by
  unfold Desc.checksum; split <;> rfl

@[simp] theorem Desc.checksum_slaveAddress (d : Desc) (b : Byte) : (d.checksum b).slaveAddress = d.slaveAddress := by
  unfold Desc.checksum; split <;> rfl

@[simp] theorem Desc.checksum_function (d : Desc) (b : Byte) : (d.checksum b).function = d.function := by
  unfold Desc.checksum; split <;> rfl

@[simp] theorem Desc.checksum_address (d : Desc) (b : Byte) : (d.checksum b).address = d.address := by
  unfold Desc.checksum; split <;> rfl

@[simp] theorem Desc.checksum_quantity (d : Desc) (b : Byte) : (d.checksum b).quantity = d.quantity := by
  unfold Desc.checksum; split <;> rfl

@[simp] theorem Desc.checksum_byteCount (d : Desc) (b : Byte) : (d.checksum b).byteCount = d.byteCount := by
  unfold Desc.checksum; split <;> rfl

@[simp] theorem Desc.checksum_payload (d : Desc) (b : Byte) : (d.checksum b).payload = d.payload := by
  unfold Desc.checksum; split <;> rfl

@[simp] theorem Desc.checksum_frameCrc (d : Desc) (b : Byte) : (d.checksum b).frameCrc = d.frameCrc := by
  unfold Desc.checksum; split <;> rfl

@[simp] theorem Desc.checksum_error (d : Desc) (b : Byte) : (d.checksum b).error = d.error := by
  unfold Desc.checksum; split <;> rfl

@[simp] theorem Desc.checksum_userContext (d : Desc) (b : Byte) : (d.checksum b).userContext = d.userContext := by
  unfold Desc.checksum; split <;> rfl

@[simp] theorem Desc.checksum_dataLen (d : Desc) (b : Byte) : (d.checksum b).dataLen = d.dataLen := by
  unfold Desc.checksum; split <;> rfl

@[simp] theorem Desc.checksum_dataCnt (d : Desc) (b : Byte) : (d.checksum b).dataCnt = d.dataCnt := by
  unfold Desc.checksum; split <;> rfl

/-! ### `Desc.raise` -/

@[simp] theorem Desc.raise_kind (d : Desc) (e : ErrorKind) : (d.raise e).kind = d.kind := by
  unfold Desc.raise; split <;> rfl

@[simp] theorem Desc.raise_state (d : Desc) (e : ErrorKind) : (d.raise e).state = d.state := by
  unfold Desc.raise; split <;> rfl

@[simp] theorem Desc.raise_slaveAddress (d : Desc) (e : ErrorKind) : (d.raise e).slaveAddress = d.slaveAddress := by
  unfold Desc.raise; split <;> rfl

@[simp] theorem Desc.raise_function (d : Desc) (e : ErrorKind) : (d.raise e).function = d.function := by
  unfold Desc.raise; split <;> rfl

@[simp] theorem Desc.raise_address (d : Desc) (e : ErrorKind) : (d.raise e).address = d.address := by
  unfold Desc.raise; split <;> rfl

@[simp] theorem Desc.raise_quantity (d : Desc) (e : ErrorKind) : (d.raise e).quantity = d.quantity := by
  unfold Desc.raise; split <;> rfl

@[simp] theorem Desc.raise_byteCount (d : Desc) (e : ErrorKind) : (d.raise e).byteCount = d.byteCount := by
  unfold Desc.raise; split <;> rfl

@[simp] theorem Desc.raise_payload (d : Desc) (e : ErrorKind) : (d.raise e).payload = d.payload := by
  unfold Desc.raise; split <;> rfl

@[simp] theorem Desc.raise_frameCrc (d : Desc) (e : ErrorKind) : (d.raise e).frameCrc = d.frameCrc := by
  unfold Desc.raise; split <;> rfl

@[simp] theorem Desc.raise_runningCrc (d : Desc) (e : ErrorKind) : (d.raise e).runningCrc = d.runningCrc := by
  unfold Desc.raise; split <;> rfl

@[simp] theorem Desc.raise_userContext (d : Desc) (e : ErrorKind) : (d.raise e).userContext = d.userContext := by
  unfold Desc.raise; split <;> rfl

@[simp] theorem Desc.raise_dataLen (d : Desc) (e : ErrorKind) : (d.raise e).dataLen = d.dataLen := by
  unfold Desc.raise; split <;> rfl

@[simp] theorem Desc.raise_dataCnt (d : Desc) (e : ErrorKind) : (d.raise e).dataCnt = d.dataCnt := by
  unfold Desc.raise; split <;> rfl

/-- The error after `raise`: the first one stays (60_exceptions.md R218). -/
@[simp] theorem Desc.raise_error (d : Desc) (e : ErrorKind) :
    (d.raise e).error = if d.error = .none then e else d.error := by
  unfold Desc.raise; split <;> simp_all

/-- The running CRC after phase 1 (42_parser_states.md R122). -/
@[simp] theorem Desc.checksum_runningCrc (d : Desc) (b : Byte) :
    (d.checksum b).runningCrc = if inCrcState d then d.runningCrc else crcUpdate d.runningCrc b := by
  unfold Desc.checksum; split <;> rfl

/-- Phase 1 in a state that is no CRC state. -/
theorem Desc.checksum_of_not_inCrcState (d : Desc) (b : Byte) (h : inCrcState d = false) :
    d.checksum b = { d with runningCrc := crcUpdate d.runningCrc b } := by simp [Desc.checksum, h]

/-- Phase 1 in a CRC state. -/
theorem Desc.checksum_of_inCrcState (d : Desc) (b : Byte) (h : inCrcState d = true) : d.checksum b = d := by
  simp [Desc.checksum, h]

/-- Error entry where no error is latched. -/
theorem Desc.raise_of_none (d : Desc) (e : ErrorKind) (h : d.error = .none) : d.raise e = { d with error := e } := by
  simp [Desc.raise, h]

@[simp] theorem State.setDesc_self (s : State) : s.setDesc s.d = s := rfl

@[simp] theorem State.setDesc_setDesc (s : State) (d e : Desc) : (s.setDesc d).setDesc e = s.setDesc e := rfl

/-! ### Outcomes -/

@[simp] theorem andThen_next (a : α) (f : α → Outcome β) : andThen (.next a) f = f a := rfl

@[simp] theorem andThen_fault (r : Fault) (f : α → Outcome β) : andThen (.fault r) f = .fault r := rfl

@[simp] theorem andThen_refused (r : Refusal) (f : α → Outcome β) : andThen (.refused r) f = .refused r := rfl

/-- What `andThen` answering next says: both parts answered next. -/
theorem andThen_eq_next {o : Outcome α} {f : α → Outcome β} {c : β} :
    andThen o f = .next c ↔ ∃ a, o = .next a ∧ f a = .next c := by
  cases o <;> simp [andThen]

theorem andThen_assoc (o : Outcome α) (f : α → Outcome β) (g : β → Outcome γ) :
    andThen (andThen o f) g = andThen o fun a => andThen (f a) g := by
  cases o <;> rfl

/-! ### Replies -/

/-- The next reply is the reply at 0. -/
theorem nextReply_eq (s : State) : nextReply s = replyAt s 0 := by
  unfold nextReply replyAt
  cases s.replies <;> simp

/-- After one reply, the replies to come are the later ones. -/
theorem replyAt_afterReply (s : State) (n : Nat) : replyAt s.afterReply n = replyAt s (n + 1) := by
  unfold replyAt State.afterReply
  cases h : s.replies with
  | nil => simp [Nat.add_comm 1 n, Nat.add_assoc]
  | cons r rest => simp

end Sys2Proof.Machine
end

