-- ==== Sys2Proof/Laws/Generator.lean ====
section
/-! SUPPORT. What G.GEN can do, said once, and the words it reads. -/

namespace Sys2Proof.Machine

/-- `allSome` of a map that is nowhere missing. -/
theorem allSome_map {f : α → Option β} {g : α → β} (xs : List α) (h : ∀ x ∈ xs, f x = some (g x)) :
    allSome (xs.map f) = some (xs.map g) := by
  induction xs with
  | nil => rfl
  | cons x rest ih =>
    rw [List.map_cons, h x (by simp), allSome, ih fun y hy => h y (by simp [hy])]
    rfl

/-- A list of which `allSome` is something has that something's length. -/
theorem allSome_length {xs : List (Option α)} {ys : List α} (h : allSome xs = some ys) : ys.length = xs.length := by
  induction xs generalizing ys with
  | nil => simp [allSome] at h; subst h; rfl
  | cons x rest ih =>
    cases x with
    | none => simp [allSome] at h
    | some x =>
      simp only [allSome, Option.map_eq_some_iff] at h
      obtain ⟨zs, hz, rfl⟩ := h
      simp [ih hz]

/-- A word the embedder counts and supplies is there (10_state.md R27). -/
theorem wordAt_of_lt {q : Query} {j : Nat} (hj : j < q.valueCount) (hs : q.valueCount ≤ q.values.length) :
    wordAt q j = some (q.values.getD j 0#16) := by
  have hlt : j < q.values.length := by omega
  simp [wordAt, hj, List.getD_eq_getElem?_getD, hlt]

/-- The bytes of a coil bitmap whose words are all there. -/
theorem coilData_of_supplied {q : Query} (hc : coilWordCount q.quantity ≤ q.valueCount)
    (hs : q.valueCount ≤ q.values.length) :
    coilData q = some ((List.range (coilByteCount q.quantity)).map fun k =>
      BitVec.setWidth 8 (q.values.getD (k / 2) 0#16 >>> (8 * (k % 2)))) := by
  refine allSome_map _ fun k hk => ?_
  have hk' : k < coilByteCount q.quantity := by simpa using hk
  have : k / 2 < q.valueCount := by
    unfold coilByteCount at hk'
    unfold coilWordCount at hc
    omega
  simp [coilByte, wordAt_of_lt this hs]

/-- The bytes of a register write whose words are all there. -/
theorem registerData_of_supplied {q : Query} (hs : q.valueCount ≤ q.values.length) :
    registerData q = some (((List.range q.valueCount).map fun j =>
      [hiByte (q.values.getD j 0#16), loByte (q.values.getD j 0#16)]).flatten) := by
  unfold registerData
  rw [allSome_map (g := fun j => [hiByte (q.values.getD j 0#16), loByte (q.values.getD j 0#16)])]
  · rfl
  · intro j hj
    simp [registerBytes, wordAt_of_lt (by simpa using hj) hs]

@[simp] theorem withCrc_length (bs : List Byte) : (withCrc bs).length = bs.length + 2 := by simp [withCrc]

@[simp] theorem genFrame_length (q : Query) (body : List Byte) : (genFrame q body).length = body.length + 4 := by
  simp [genFrame]

/-- Everything G.GEN can do when it answers next (44_generator.md R181). -/
theorem generate_next {q : Query} {n : Nat} {s t : State} (h : generate q n s = .next t) :
    (classify q.function = none ∧ t = (s.begin.presentQuery q).returns (.generated unknownFunctionResult)) ∨
    (classify q.function ≠ none ∧ genPrecondition q = true ∧ ∃ body, genBody q = some body ∧
      ((n < (genFrame q body).length ∧ t = (s.begin.presentQuery q).returns (.generated bufferTooSmall)) ∨
       ((genFrame q body).length ≤ n ∧
        t = { s.begin.presentQuery q with
              out := Memory.writeFrom s.out 0 (genFrame q body), result := .generated (genFrame q body).length }))) := by
  unfold generate at h
  dsimp only at h
  split at h
  · rename_i hc
    cases h
    exact .inl ⟨hc, rfl⟩
  · rename_i hc
    split at h
    · cases h
    · rename_i hp
      split at h
      · cases h
      · rename_i body hb
        refine .inr ⟨hc, by simpa using hp, body, hb, ?_⟩
        split at h
        · rename_i hlt
          cases h
          exact .inl ⟨hlt, rfl⟩
        · rename_i hlt
          cases h
          exact .inr ⟨by omega, rfl⟩

/-- G.GEN with a recognized code, its preconditions met, its words there and the frame fitting. -/
theorem generate_of_fits {q : Query} {n : Nat} (s : State) {body : List Byte} (hc : classify q.function ≠ none)
    (hp : genPrecondition q = true) (hb : genBody q = some body) (hn : body.length + 4 ≤ n) :
    generate q n s =
      .next { s.begin.presentQuery q with
              out := Memory.writeFrom s.out 0 (genFrame q body), result := .generated (genFrame q body).length } := by
  have : ¬ n < (genFrame q body).length := by simp; omega
  simp only [generate, hc, hp, hb, this, if_false, Bool.true_eq_false]
  rfl

/-- G.GEN with a recognized code, its preconditions met, its words there and the frame not fitting. -/
theorem generate_of_too_small {q : Query} {n : Nat} (s : State) {body : List Byte} (hc : classify q.function ≠ none)
    (hp : genPrecondition q = true) (hb : genBody q = some body) (hn : n < body.length + 4) :
    generate q n s = .next ((s.begin.presentQuery q).returns (.generated bufferTooSmall)) := by
  have : n < (genFrame q body).length := by simp; omega
  simp only [generate, hc, hp, hb, this, if_false, if_true, Bool.true_eq_false]

/-- The bytes written are read back, and every index after them reads as before. -/
theorem outHolds_writeFrom (m : Memory) (bs : List Byte) : OutHolds m (Memory.writeFrom m 0 bs) bs := by
  constructor
  · intro k hk
    simp [Memory.read_writeFrom, hk]
  · intro a ha
    have : ¬ a < bs.length := by omega
    simp [Memory.read_writeFrom, this]

end Sys2Proof.Machine
end

