-- ==== Sys2Proof/Laws/Parser.lean ====
section
/-! SUPPORT. What the parser's shared operations can do, said once: the hook phase, one byte, and the
loop over the bytes of a call. -/

namespace Sys2Proof.Machine

/-! ### The hook phase (42_parser_states.md R123, R124) -/

@[simp] theorem fireHooks_nil (s : State) : fireHooks [] s = .next s := rfl

/-- An absent hook does nothing. -/
theorem fireHooks_absent (h : Hook) (hs : List Hook) (s : State) (hr : s.hooksReset = true)
    (hp : hookPresent s.hookEn h = false) : fireHooks (h :: hs) s = fireHooks hs s := by
  simp [fireHooks, hr, hp]

/-- A present hook that replies ok emits its event. -/
theorem fireHooks_ok (h : Hook) (hs : List Hook) (s : State) (hr : s.hooksReset = true)
    (hp : hookPresent s.hookEn h = true) (hok : replyAt s 0 = .ok) :
    fireHooks (h :: hs) s = fireHooks hs (s.emit h).afterReply := by
  simp [fireHooks, hr, hp, nextReply_eq, hok]

/-- A present hook that fails emits its event, latches the error and ends the phase. -/
theorem fireHooks_fail (h : Hook) (hs : List Hook) (s : State) (hr : s.hooksReset = true)
    (hp : hookPresent s.hookEn h = true) (hf : replyAt s 0 = .fail) :
    fireHooks (h :: hs) s = .next ((s.emit h).afterReply.setDesc (s.d.raise .hookAborted)) := by
  simp [fireHooks, hr, hp, nextReply_eq, hf]

/-- With the hook table defined, the hook phase goes through for every reply. -/
theorem fireHooks_answers (hs : List Hook) (s : State) (hr : s.hooksReset = true) : ∃ t, fireHooks hs s = .next t := by
  induction hs generalizing s with
  | nil => exact ⟨s, rfl⟩
  | cons h rest ih =>
    cases hp : hookPresent s.hookEn h with
    | false => rw [fireHooks_absent h rest s hr hp]; exact ih s hr
    | true =>
      cases hk : replyAt s 0 with
      | ok => rw [fireHooks_ok h rest s hr hp hk]; exact ih _ (by simpa using hr)
      | fail => exact ⟨_, fireHooks_fail h rest s hr hp hk⟩

/-- `t` is `s` but for the descriptor, the replies used up and the events added. -/
def OnlyParserMoved (s t : State) : Prop :=
  ∃ evs, t = { s with d := t.d, events := s.events ++ evs, replies := t.replies, freeReplies := t.freeReplies }

theorem OnlyParserMoved.refl (s : State) : OnlyParserMoved s s := ⟨[], by simp⟩

theorem OnlyParserMoved.trans {s t u : State} (h1 : OnlyParserMoved s t) (h2 : OnlyParserMoved t u) :
    OnlyParserMoved s u := by
  obtain ⟨e1, h1⟩ := h1
  obtain ⟨e2, h2⟩ := h2
  exact ⟨e1 ++ e2, by rw [h2, h1]; simp⟩

theorem OnlyParserMoved.setDesc {s t : State} (h : OnlyParserMoved s t) (d : Desc) : OnlyParserMoved s (t.setDesc d) := by
  obtain ⟨e, h⟩ := h
  exact ⟨e, by rw [h]; rfl⟩

theorem OnlyParserMoved.fields {s t : State} (h : OnlyParserMoved s t) :
    t.hookEn = s.hookEn ∧ t.hooksReset = s.hooksReset ∧ t.initialised = s.initialised ∧ t.query = s.query ∧
      t.requests = s.requests ∧ t.out = s.out ∧ t.input = s.input ∧ t.result = s.result := by
  obtain ⟨e, h⟩ := h
  rw [h]
  simp

theorem onlyParserMoved_emit (s : State) (h : Hook) (d : Desc) : OnlyParserMoved s ((s.emit h).afterReply.setDesc d) := by
  refine ⟨[{ hook := h, snapshot := s.d }], ?_⟩
  unfold State.afterReply
  split <;> rfl

/-- Everything the hook phase can do. -/
theorem fireHooks_next {hs : List Hook} {s t : State} (h : fireHooks hs s = .next t) :
    (t.d = s.d ∨ t.d = s.d.raise .hookAborted) ∧ OnlyParserMoved s t := by
  induction hs generalizing s with
  | nil => simp at h; subst h; exact ⟨.inl rfl, .refl s⟩
  | cons k rest ih =>
    cases hr : s.hooksReset with
    | false => simp [fireHooks, hr] at h
    | true =>
      cases hp : hookPresent s.hookEn k with
      | false => rw [fireHooks_absent k rest s hr hp] at h; exact ih h
      | true =>
        cases hk : replyAt s 0 with
        | ok =>
          rw [fireHooks_ok k rest s hr hp hk] at h
          obtain ⟨hd, hm⟩ := ih h
          refine ⟨by simpa using hd, ?_⟩
          exact (onlyParserMoved_emit s k s.d).trans hm
        | fail =>
          rw [fireHooks_fail k rest s hr hp hk] at h
          cases h
          exact ⟨.inr rfl, onlyParserMoved_emit s k _⟩

/-! ### One byte (42_parser_states.md R122) -/

/-- Everything one byte can do. -/
theorem stepByte_next {b : Byte} {i : Nat} {s t : State} (h : stepByte b i s = .next t) :
    ∃ st, storeByte b i (s.d.checksum b) = some st ∧
      (t.d = st.d.advance st.next ∨ t.d = (st.d.raise .hookAborted).advance st.next) ∧ OnlyParserMoved s t := by
  unfold stepByte at h
  cases hst : storeByte b i (s.d.checksum b) with
  | none => simp [hst] at h
  | some st =>
    simp only [hst, andThen_eq_next] at h
    obtain ⟨u, hu, ht⟩ := h
    cases ht
    obtain ⟨hd, hm⟩ := fireHooks_next hu
    refine ⟨st, rfl, ?_, ?_⟩
    · rcases hd with hd | hd <;> simp [hd]
    · have h0 : OnlyParserMoved s (s.setDesc st.d) := (OnlyParserMoved.refl s).setDesc st.d
      exact (h0.trans hm).setDesc _

/-- One byte goes through where its state has a rule and the hook table is defined. -/
theorem stepByte_answers {b : Byte} {i : Nat} {s : State} (hr : s.hooksReset = true) {st : Stored}
    (hst : storeByte b i (s.d.checksum b) = some st) : ∃ t, stepByte b i s = .next t := by
  obtain ⟨u, hu⟩ := fireHooks_answers st.hooks (s.setDesc st.d) hr
  exact ⟨u.setDesc (u.d.advance st.next), by simp [stepByte, hst, hu]⟩

/-! ### The store of each state -/

theorem storeByte_slaveAddress (b : Byte) (i : Nat) (d : Desc) (h : d.state = .slaveAddress) :
    storeByte b i d = some (storeSlaveAddress b d) := by simp [storeByte, h]

theorem storeByte_function (b : Byte) (i : Nat) (d : Desc) (h : d.state = .function) :
    storeByte b i d = some (storeFunction b d) := by simp [storeByte, h]

theorem storeByte_byteCount (b : Byte) (i : Nat) (d : Desc) (h : d.state = .byteCount) :
    storeByte b i d = some (storeByteCount b d) := by simp [storeByte, h]

theorem storeByte_singleAddrHi (b : Byte) (i : Nat) (d : Desc) (h : d.state = .singleAddrHi) :
    storeByte b i d = some (storeSingleAddrHi b d) := by simp [storeByte, h]

theorem storeByte_singleAddrLo (b : Byte) (i : Nat) (d : Desc) (h : d.state = .singleAddrLo) :
    storeByte b i d = some (storeSingleAddrLo b d) := by simp [storeByte, h]

theorem storeByte_startAddrHi (b : Byte) (i : Nat) (d : Desc) (h : d.state = .startAddrHi) :
    storeByte b i d = some (storeStartAddrHi b d) := by simp [storeByte, h]

theorem storeByte_startAddrLo (b : Byte) (i : Nat) (d : Desc) (h : d.state = .startAddrLo) :
    storeByte b i d = some (storeStartAddrLo b d) := by simp [storeByte, h]

theorem storeByte_qtyHi (b : Byte) (i : Nat) (d : Desc) (h : d.state = .qtyHi) :
    storeByte b i d = some (storeQtyHi b d) := by simp [storeByte, h]

theorem storeByte_data (b : Byte) (i : Nat) (d : Desc) (h : d.state = .data) :
    storeByte b i d = some (storeData i d) := by simp [storeByte, h]

theorem storeByte_crcLo (b : Byte) (i : Nat) (d : Desc) (h : d.state = .crcLo) :
    storeByte b i d = some (storeCrcLo b d) := by simp [storeByte, h]

theorem storeByte_crcHi (b : Byte) (i : Nat) (d : Desc) (h : d.state = .crcHi) :
    storeByte b i d = some (storeCrcHi b d) := by simp [storeByte, h]

theorem storeByte_qtyLo (b : Byte) (i : Nat) (d : Desc) {t : ParserState} (h : d.state = .qtyLo)
    (ht : afterQty d.kind (classify d.function) = some t) :
    storeByte b i d =
      some { d := { d with quantity := d.quantity ||| lowPart b }, hooks := [.onQuantity], next := t } := by
  simp [storeByte, h, storeQtyLo, ht]

/-- The second CRC byte of a frame whose checksum is right (R139). -/
theorem storeCrcHi_match (b : Byte) (d : Desc) (h : d.frameCrc ||| highPart b = d.runningCrc) :
    storeCrcHi b d =
      { d := { d with frameCrc := d.frameCrc ||| highPart b, state := .complete }, hooks := [.onComplete],
        next := .complete } := by simp [storeCrcHi, h]

/-- The second CRC byte of a frame whose checksum is wrong (R139). -/
theorem storeCrcHi_mismatch (b : Byte) (d : Desc) (h : d.frameCrc ||| highPart b ≠ d.runningCrc) :
    storeCrcHi b d =
      { d := { d with frameCrc := d.frameCrc ||| highPart b }.raise .crcMismatch, hooks := [.onCrcError],
        next := .crcHi } := by simp [storeCrcHi, h]

/-! ### The invariant through one byte -/

theorem gated_false {d : Desc} (h : gated d = false) : d.error = .none ∧ d.state ≠ .complete := by
  simpa [gated] using h

/-- What a byte's descriptor must satisfy, with or without a hook failing after it. -/
def Stored.Good (st : Stored) : Prop :=
  (st.d.advance st.next).Inv ∧ ((st.d.raise .hookAborted).advance st.next).Inv

/-- A latched `hook-aborted` breaks nothing. -/
theorem Desc.Inv.raise {d : Desc} (h : d.Inv) : (d.raise .hookAborted).Inv := by
  unfold Desc.raise
  split
  · exact ⟨h.onPath, h.notYetCounted, h.allCounted, h.window, by simp, by simp, h.complete⟩
  · exact h

theorem Desc.raise_advance (d : Desc) (e : ErrorKind) (t : ParserState) : (d.raise e).advance t = (d.advance t).raise e := by
  by_cases h : d.error = .none
  · simp [Desc.raise, h]; rfl
  · simp [Desc.raise, h]

theorem Stored.good_of_inv {st : Stored} (h : (st.d.advance st.next).Inv) : st.Good :=
  ⟨h, by rw [Desc.raise_advance]; exact h.raise⟩

/-- Every byte that may be consumed keeps the descriptor's invariant (42_parser_states.md R142). -/
theorem storeByte_inv {d : Desc} (b : Byte) (i : Nat) (h : d.Inv) (hg : gated d = false) :
    ∃ st, storeByte b i (d.checksum b) = some st ∧ st.Good := by
  obtain ⟨herr, hne⟩ := gated_false hg
  obtain ⟨hp, hn, ha, hw, -, -, -⟩ := h
  cases hs : d.state with
  | complete => exact absurd hs hne
  | slaveAddress =>
    have hn' := hn (by simp [hs, stateCode])
    refine ⟨_, storeByte_slaveAddress b i _ (by simp [hs]), Stored.good_of_inv ?_⟩
    constructor <;> simp_all [storeSlaveAddress, OnPath, stateCode]
  | function =>
    have hn' := hn (by simp [hs, stateCode])
    refine ⟨_, storeByte_function b i _ (by simp [hs]), Stored.good_of_inv ?_⟩
    cases hc : classify b with
    | none => constructor <;> simp_all [storeFunction, OnPath, stateCode]
    | some c =>
      cases hk : d.kind <;> cases c <;>
        (constructor <;> simp_all [storeFunction, OnPath, stateCode, branch])
  | byteCount =>
    have hn' := hn (by simp [hs, stateCode])
    refine ⟨_, storeByte_byteCount b i _ (by simp [hs]), Stored.good_of_inv ?_⟩
    by_cases hb : b = 0#8
    · constructor <;> simp_all [storeByteCount, OnPath, stateCode]
      rcases hp with hp | hp <;> simp [hp.2]
    · have hb' : 0 < b.toNat := by
        rcases Nat.eq_zero_or_pos b.toNat with h | h
        · exact absurd (BitVec.eq_of_toNat_eq (by simpa using h)) hb
        · exact h
      constructor <;> simp_all [storeByteCount, OnPath, stateCode]
      rcases hp with hp | hp <;> simp [hp.2]
  | singleAddrHi =>
    have hn' := hn (by simp [hs, stateCode])
    refine ⟨_, storeByte_singleAddrHi b i _ (by simp [hs]), Stored.good_of_inv ?_⟩
    constructor <;> simp_all [storeSingleAddrHi, OnPath, stateCode]
  | singleAddrLo =>
    have hn' := hn (by simp [hs, stateCode])
    refine ⟨_, storeByte_singleAddrLo b i _ (by simp [hs]), Stored.good_of_inv ?_⟩
    constructor <;> simp_all [storeSingleAddrLo, OnPath, stateCode]
  | startAddrHi =>
    have hn' := hn (by simp [hs, stateCode])
    refine ⟨_, storeByte_startAddrHi b i _ (by simp [hs]), Stored.good_of_inv ?_⟩
    constructor <;> simp_all [storeStartAddrHi, OnPath, stateCode]
  | startAddrLo =>
    have hn' := hn (by simp [hs, stateCode])
    refine ⟨_, storeByte_startAddrLo b i _ (by simp [hs]), Stored.good_of_inv ?_⟩
    constructor <;> simp_all [storeStartAddrLo, OnPath, stateCode]
  | qtyHi =>
    have hn' := hn (by simp [hs, stateCode])
    refine ⟨_, storeByte_qtyHi b i _ (by simp [hs]), Stored.good_of_inv ?_⟩
    constructor <;> simp_all [storeQtyHi, OnPath, stateCode]
  | qtyLo =>
    have hn' := hn (by simp [hs, stateCode])
    simp only [OnPath, hs] at hp
    rcases hp with ⟨hk, hc⟩ | hc
    · refine ⟨_, storeByte_qtyLo b i _ (by simp [hs]) (by simp [hk, hc, afterQty]; rfl), Stored.good_of_inv ?_⟩
      constructor <;> simp_all [OnPath, stateCode]
    · cases hk : d.kind <;>
      · refine ⟨_, storeByte_qtyLo b i _ (by simp [hs]) (by simp [hk, hc, afterQty]; rfl), Stored.good_of_inv ?_⟩
        constructor <;> simp_all [OnPath, stateCode]
  | data =>
    simp only [OnPath, hs] at hp
    obtain ⟨hc, hlt⟩ := hp
    have hcnt : (d.dataCnt + 1#8).toNat = d.dataCnt.toNat + 1 := by
      rw [BitVec.toNat_add]
      have := d.dataLen.isLt
      simp only [BitVec.toNat_ofNat]
      omega
    have hlen : (d.payload.length + 1#8).toNat = d.payload.length.toNat + 1 := by
      rw [BitVec.toNat_add]
      have := d.dataLen.isLt
      simp only [BitVec.toNat_ofNat]
      omega
    refine ⟨_, storeByte_data b i _ (by simp [hs]), Stored.good_of_inv ?_⟩
    by_cases he : d.dataCnt + 1#8 = d.dataLen
    · constructor <;> simp_all [storeData, OnPath, stateCode, Payload.extend]
      omega
    · have hne' : d.dataCnt.toNat + 1 ≠ d.dataLen.toNat := fun e => he (BitVec.eq_of_toNat_eq (by rw [hcnt, e]))
      constructor <;> simp_all [storeData, OnPath, stateCode, Payload.extend] <;> omega
  | crcLo =>
    have ha' := ha (by simp [hs, stateCode])
    refine ⟨_, storeByte_crcLo b i _ (by simp [hs]), Stored.good_of_inv ?_⟩
    constructor <;> simp_all [storeCrcLo, OnPath, stateCode]
  | crcHi =>
    have ha' := ha (by simp [hs, stateCode])
    have hck : d.checksum b = d := Desc.checksum_of_inCrcState d b (by simp [inCrcState, hs])
    rw [hck]
    refine ⟨_, storeByte_crcHi b i _ hs, Stored.good_of_inv ?_⟩
    by_cases hm : d.frameCrc ||| highPart b = d.runningCrc
    · rw [storeCrcHi_match b d hm]
      constructor <;> simp_all [OnPath, stateCode]
    · rw [storeCrcHi_mismatch b d hm]
      constructor <;> simp_all [OnPath, stateCode]

/-- One byte keeps the descriptor's invariant. -/
theorem stepByte_inv {b : Byte} {i : Nat} {s t : State} (h : stepByte b i s = .next t) (hi : s.d.Inv)
    (hg : gated s.d = false) : t.d.Inv := by
  obtain ⟨st, hst, hd, -⟩ := stepByte_next h
  obtain ⟨st', hst', hgood⟩ := storeByte_inv b i hi hg
  rw [hst] at hst'
  cases hst'
  rcases hd with hd | hd
  · rw [hd]; exact hgood.1
  · rw [hd]; exact hgood.2

/-! ### The loop of a call (42_parser_states.md R120, R121) -/

@[simp] theorem consume_nil (i : Nat) (s : State) : consume [] i s = .next (i, s) := rfl

theorem consume_gated (bs : List Byte) (i : Nat) (s : State) (hg : gated s.d = true) : consume bs i s = .next (i, s) := by
  cases bs <;> simp [consume, hg]

theorem consume_cons (b : Byte) (bs : List Byte) (i : Nat) (s : State) (hg : gated s.d = false) :
    consume (b :: bs) i s = andThen (stepByte b i s) (consume bs (i + 1)) := by simp [consume, hg]

/-- A property of index and state that every byte keeps holds after the loop. -/
theorem consume_keeps {P : Nat → State → Prop}
    (hstep : ∀ b i s t, P i s → gated s.d = false → stepByte b i s = .next t → P (i + 1) t)
    {bs : List Byte} {i : Nat} {s : State} {j : Nat} {t : State} (h0 : P i s) (h : consume bs i s = .next (j, t)) :
    P j t := by
  induction bs generalizing i s with
  | nil => simp at h; obtain ⟨rfl, rfl⟩ := h; exact h0
  | cons b rest ih =>
    cases hg : gated s.d with
    | true => rw [consume_gated _ _ _ hg] at h; cases h; exact h0
    | false =>
      rw [consume_cons _ _ _ _ hg, andThen_eq_next] at h
      obtain ⟨u, hu, h⟩ := h
      exact ih (hstep b i s u h0 hg hu) h

/-- How many bytes the loop consumes, and why it stopped where it did (R143). -/
theorem consume_count {bs : List Byte} {i : Nat} {s : State} {j : Nat} {t : State} (h : consume bs i s = .next (j, t)) :
    i ≤ j ∧ j ≤ i + bs.length ∧ (j < i + bs.length → gated t.d = true) := by
  induction bs generalizing i s with
  | nil => simp at h; obtain ⟨rfl, rfl⟩ := h; simp
  | cons b rest ih =>
    cases hg : gated s.d with
    | true => rw [consume_gated _ _ _ hg] at h; cases h; simp [hg]
    | false =>
      rw [consume_cons _ _ _ _ hg, andThen_eq_next] at h
      obtain ⟨u, hu, h⟩ := h
      obtain ⟨h1, h2, h3⟩ := ih h
      simp only [List.length_cons]
      exact ⟨by omega, by omega, fun hlt => h3 (by omega)⟩

/-- The loop over a concatenation is the loop over its parts. -/
theorem consume_append (a c : List Byte) (i : Nat) (s : State) :
    consume (a ++ c) i s = andThen (consume a i s) fun p => consume c p.1 p.2 := by
  induction a generalizing i s with
  | nil => rfl
  | cons b rest ih =>
    cases hg : gated s.d with
    | true => simp [consume_gated _ _ _ hg]
    | false =>
      rw [List.cons_append, consume_cons _ _ _ _ hg, consume_cons _ _ _ _ hg, andThen_assoc]
      congr 1
      funext u
      exact ih (i + 1) u

/-- The loop moves only the parser. -/
theorem consume_moves {bs : List Byte} {i : Nat} {s : State} {j : Nat} {t : State} (h : consume bs i s = .next (j, t)) :
    OnlyParserMoved s t := by
  refine consume_keeps (P := fun _ u => OnlyParserMoved s u) ?_ (.refl s) h
  intro b k u v hu _ hv
  obtain ⟨_, _, _, hm⟩ := stepByte_next hv
  exact hu.trans hm

/-- The loop keeps the descriptor's invariant. -/
theorem consume_inv {bs : List Byte} {i : Nat} {s : State} {j : Nat} {t : State} (h : consume bs i s = .next (j, t))
    (hi : s.d.Inv) : t.d.Inv :=
  consume_keeps (P := fun _ u => u.d.Inv) (fun _ _ _ _ hu hg hv => stepByte_inv hv hu hg) hi h

/-- From a descriptor that satisfies the invariant, with the hook table defined, the loop goes through. -/
theorem consume_answers (bs : List Byte) (i : Nat) (s : State) (hi : s.d.Inv) (hr : s.hooksReset = true) :
    ∃ j t, consume bs i s = .next (j, t) := by
  induction bs generalizing i s with
  | nil => exact ⟨i, s, rfl⟩
  | cons b rest ih =>
    cases hg : gated s.d with
    | true => exact ⟨i, s, consume_gated _ _ _ hg⟩
    | false =>
      obtain ⟨st, hst, -⟩ := storeByte_inv b i hi hg
      obtain ⟨u, hu⟩ := stepByte_answers (i := i) hr hst
      obtain ⟨_, _, _, hm⟩ := stepByte_next hu
      obtain ⟨j, t, ht⟩ := ih (i + 1) u (stepByte_inv hu hi hg) (by rw [hm.fields.2.1]; exact hr)
      exact ⟨j, t, by rw [consume_cons _ _ _ _ hg, hu]; exact ht⟩

/-- Everything P.EXEC can do. -/
theorem execute_next {bs : List Byte} {s t : State} (h : execute bs s = .next t) :
    s.initialised = true ∧ ∃ j u, consume bs 0 (s.startCall bs) = .next (j, u) ∧ t = u.returns (.consumed j) := by
  unfold execute at h
  cases hinit : s.initialised with
  | false => simp [hinit] at h
  | true =>
    simp only [hinit, Bool.true_eq_false, if_false, andThen_eq_next] at h
    obtain ⟨p, hp, ht⟩ := h
    cases ht
    exact ⟨rfl, p.1, p.2, hp, rfl⟩

/-- P.EXEC answers what its loop answers. -/
theorem execute_of_consume {bs : List Byte} {s : State} {j : Nat} {u : State} (hi : s.initialised = true)
    (h : consume bs 0 (s.startCall bs) = .next (j, u)) : execute bs s = .next (u.returns (.consumed j)) := by
  simp [execute, hi, h]

/-- Clearing the window keeps the descriptor's invariant. -/
theorem Desc.Inv.clearPayload {d : Desc} (h : d.Inv) : d.clearPayload.Inv :=
  ⟨h.onPath, h.notYetCounted, h.allCounted, by simp, h.unknownFunction, h.crcMismatch, h.complete⟩

/-- P.INIT's descriptor satisfies the invariant. -/
theorem Desc.Inv.fresh (k : Kind) (c : Context) : (Desc.fresh k c).Inv := by
  constructor <;> simp [Desc.fresh, OnPath, stateCode]

end Sys2Proof.Machine
end

