-- ==== Sys2Proof/Laws/Exec.lean ====
section
/-! SUPPORT. The shared operation each row runs, and what every row's execution can do. -/

namespace Sys2Proof.Machine

/-- A frame row is one P.EXEC on its bytes. -/
theorem exec_of_frameKind {i : Instr} {k : Kind} (h : frameKind i = some k) (s : State) :
    exec i s = execute (frameBytes i) s := by
  cases i <;> simp [frameKind] at h <;> rfl

/-- A row of unit GEN is G.GEN on some query descriptor. -/
theorem exec_of_isGen {i : Instr} (h : isGen i = true) : ∃ q n, encode i = .generate q n ∧ ∀ s, exec i s = generate q n s := by
  cases i <;> simp [isGen] at h <;> exact ⟨_, _, rfl, fun _ => rfl⟩

@[simp] theorem exec_pExec (bs : List Byte) (s : State) : exec (.pExec bs) s = execute bs s := rfl

@[simp] theorem exec_gGen (q : Query) (n : Nat) (s : State) : exec (.gGen q n) s = generate q n s := rfl

@[simp] theorem exec_pInit (k : Kind) (s : State) : exec (.pInit k) s = .next (initialise k s) := rfl

/-- Everything P.STEP can do, issued by the embedder. -/
theorem exec_pStep_next {b : Byte} {i : Nat} {s t : State} (h : exec (.pStep b i) s = .next t) :
    s.initialised = true ∧ gated s.d = false ∧ stepByte b i (s.begin.presentByte i b) = .next t := by
  change execPStep b i s = .next t at h
  unfold execPStep at h
  split at h
  · cases h
  · rename_i hi
    split at h
    · cases h
    · rename_i hg
      exact ⟨by simpa using hi, by simpa using hg, h⟩

/-- P.STEP in its precondition is the four phases. -/
theorem exec_pStep_of_ready {b : Byte} {i : Nat} {s : State} (hi : s.initialised = true) (hg : gated s.d = false) :
    exec (.pStep b i) s = stepByte b i (s.begin.presentByte i b) := by
  change execPStep b i s = _
  simp [execPStep, hi, hg]

end Sys2Proof.Machine
end

