-- ==== Sys2Proof/Laws/Fields.lean ====
section
/-! SUPPORT. The parser assembles a field from its bytes as the decoder does. -/

namespace Sys2Proof.Machine

/-- High byte first (42_parser_states.md R132, R133). -/
@[simp] theorem highPart_or_lowPart (h l : Byte) : highPart h ||| lowPart l = joinBytes h l := by
  refine BitVec.eq_of_getLsbD_eq fun i hi => ?_
  rw [joinBytes_getLsbD]
  simp only [highPart, lowPart, BitVec.getLsbD_or, BitVec.getLsbD_shiftLeft, BitVec.getLsbD_setWidth]
  by_cases h8 : i < 8
  · simp [h8, hi]
  · have h1 : i - 8 < 16 := by omega
    have h2 : l.getLsbD i = false := BitVec.getLsbD_of_ge l i (by omega)
    simp [h8, hi, h1, h2]

/-- Low byte first (R138, R139). -/
@[simp] theorem lowPart_or_highPart (h l : Byte) : lowPart l ||| highPart h = joinBytes h l := by
  rw [BitVec.or_comm, highPart_or_lowPart]

end Sys2Proof.Machine
end

