-- ==== Sys2Proof/Laws/Hooks.lean ====
section
/-! SUPPORT. The events of the hook phase and of a call: which replies they use up, and what a failing
reply leaves. -/

namespace Sys2Proof.Machine

/-- A byte may be consumed (42_parser_states.md R121). -/
theorem not_gated {d : Desc} (h1 : d.error = .none) (h2 : d.state ≠ .complete) : gated d = false := by simp [gated, h1, h2]

/-- Phase 1 outside the two CRC states (42_parser_states.md R122). -/
theorem checksum_outside_crc {d : Desc} {b : Byte} (h1 : d.state ≠ .crcLo) (h2 : d.state ≠ .crcHi) :
    d.checksum b = { d with runningCrc := crcUpdate d.runningCrc b } := by
  simp [Desc.checksum, inCrcState, h1, h2]

/-- One due hook, absent or present, whatever it replies. -/
theorem fireHooks_one (h : Hook) (s : State) (hr : s.hooksReset = true) :
    ∃ t, fireHooks [h] s = .next t ∧
      t.d = (if s.hookEn.getLsbD (hookId h) ∧ replyAt s 0 = .fail then s.d.raise .hookAborted else s.d) ∧
      t.events = s.events ++ eventsOf s h s.d ∧ RepliesUsed (eventsOf s h s.d).length s t ∧ OnlyParserMoved s t := by
  have hm : ∀ t, fireHooks [h] s = .next t → OnlyParserMoved s t := fun t ht => (fireHooks_next ht).2
  cases hp : hookPresent s.hookEn h with
  | false =>
    have e := fireHooks_absent h [] s hr hp
    unfold hookPresent at hp
    refine ⟨s, e, by simp [hp], by simp [eventsOf, hp], by simp [eventsOf, hp, RepliesUsed], hm _ e⟩
  | true =>
    cases hk : replyAt s 0 with
    | ok =>
      have e := fireHooks_ok h [] s hr hp hk
      unfold hookPresent at hp
      refine ⟨_, e, by simp, by simp [eventsOf, hp, State.emit], ?_, hm _ e⟩
      intro k
      rw [replyAt_afterReply]
      simp [eventsOf, hp, Nat.add_comm]; rfl
    | fail =>
      have e := fireHooks_fail h [] s hr hp hk
      unfold hookPresent at hp
      refine ⟨_, e, by simp [hp], by simp [eventsOf, hp, State.emit], ?_, hm _ e⟩
      intro k
      have : replyAt ((s.emit h).afterReply.setDesc (s.d.raise ErrorKind.hookAborted)) k =
          replyAt (s.emit h).afterReply k := rfl
      rw [this, replyAt_afterReply]
      simp [eventsOf, hp, Nat.add_comm]; rfl

/-- The events of the hook phase, the replies they use up, and what a failing reply leaves. -/
theorem fireHooks_trace {hs : List Hook} {s t : State} (h : fireHooks hs s = .next t) :
    ∃ evs, t.events = s.events ++ evs ∧ RepliesUsed evs.length s t ∧ evs.length ≤ hs.length ∧
      ((t.d = s.d ∧ ∀ k < evs.length, replyAt s k = .ok) ∨
       (∃ k, evs.length = k + 1 ∧ (∀ j < k, replyAt s j = .ok) ∧ replyAt s k = .fail ∧ t.d = s.d.raise .hookAborted)) := by
  induction hs generalizing s with
  | nil => simp at h; subst h; exact ⟨[], by simp, by intro k; simp, by simp, .inl ⟨rfl, by simp⟩⟩
  | cons k rest ih =>
    cases hr : s.hooksReset with
    | false => simp [fireHooks, hr] at h
    | true =>
      cases hp : hookPresent s.hookEn k with
      | false =>
        rw [fireHooks_absent k rest s hr hp] at h
        obtain ⟨evs, h1, h2, h3, h4⟩ := ih h
        exact ⟨evs, h1, h2, by simp; omega, h4⟩
      | true =>
        cases hk : replyAt s 0 with
        | ok =>
          rw [fireHooks_ok k rest s hr hp hk] at h
          have hsh : ∀ n, replyAt (s.emit k).afterReply n = replyAt s (n+1) := fun n => by rw [replyAt_afterReply]; rfl
          obtain ⟨evs, h1, h2, h3, h4⟩ := ih h
          refine ⟨{ hook := k, snapshot := s.d } :: evs, ?_, ?_, by simpa using h3, ?_⟩
          · rw [h1]; simp [State.emit]
          · intro n; rw [h2 n, hsh]; congr 1; simp; omega
          · rcases h4 with ⟨hd, ha⟩ | ⟨m, hm, ha, hf, hd⟩
            · refine .inl ⟨by rw [hd]; simp, ?_⟩
              intro n hn
              cases n with
              | zero => exact hk
              | succ n => rw [← hsh]; exact ha n (by simp at hn; omega)
            · refine .inr ⟨m+1, by simp [hm], ?_, by rw [← hsh]; exact hf, by rw [hd]; simp⟩
              intro n hn
              cases n with
              | zero => exact hk
              | succ n => rw [← hsh]; exact ha n (by omega)
        | fail =>
          rw [fireHooks_fail k rest s hr hp hk] at h
          cases h
          refine ⟨[{ hook := k, snapshot := s.d }], by simp [State.emit], ?_, by simp, .inr ⟨0, rfl, by simp, hk, rfl⟩⟩
          intro n
          have : replyAt ((s.emit k).afterReply.setDesc (s.d.raise ErrorKind.hookAborted)) n =
              replyAt (s.emit k).afterReply n := rfl
          rw [this, replyAt_afterReply]
          simp [Nat.add_comm]; rfl

/-- With every reply ok, the hook phase leaves the descriptor as it was. -/
theorem fireHooks_all_ok {hs s t} (h : fireHooks hs s = .next t) (n : Nat) (hok : RepliesOk (hs.length + n) s) : t.d = s.d ∧ RepliesOk n t := by
  obtain ⟨evs, h1, h2, h3, h4⟩ := fireHooks_trace h
  constructor
  · rcases h4 with ⟨hd, -⟩ | ⟨k, hk, -, hf, -⟩
    · exact hd
    · have := hok k (by omega); rw [this] at hf; cases hf
  · intro k hk; rw [h2]; exact hok _ (by omega)

/-- With every reply ok, the hooks of the events are the present ones, in order. -/
theorem fireHooks_events {hs s t} (hr : s.hooksReset = true) (hok : RepliesOk hs.length s) (h : fireHooks hs s = .next t) :
    t.events.map (·.hook) = s.events.map (·.hook) ++ hs.filter (fun h => s.hookEn.getLsbD (hookId h)) := by
  induction hs generalizing s with
  | nil => simp at h; subst h; simp
  | cons k rest ih =>
    cases hp : hookPresent s.hookEn k with
    | false =>
      rw [fireHooks_absent k rest s hr hp] at h
      have := ih hr (fun n hn => hok n (by simp; omega)) h
      unfold hookPresent at hp
      rw [this]; simp [hp]
    | true =>
      have hk := hok 0 (by simp)
      rw [fireHooks_ok k rest s hr hp hk] at h
      have := ih (by simpa using hr) (fun n hn => by
        rw [replyAt_afterReply]; exact hok (n+1) (by simp; omega)) h
      unfold hookPresent at hp
      rw [this]; simp [hp, State.emit]

/-- What the rule of a state can do to the error. -/
theorem storeByte_error {b i d st} (h : storeByte b i d = some st) (he : d.error = .none) :
    (st.d.error = .none) ∨ (st.d.error = .unknownFunction ∧ st.hooks = []) ∨ (st.d.error = .crcMismatch) := by
  unfold storeByte at h
  split at h <;> (try simp only [Option.some.injEq, reduceCtorEq] at h) <;> (try subst h)
  · left; simp [storeSlaveAddress, he]
  · unfold storeFunction; split
    · left; simp [he]
    · right; left; simp [Desc.raise, he]
  · left; simp [storeByteCount, he]
  · left; simp [storeSingleAddrHi, he]
  · left; simp [storeSingleAddrLo, he]
  · left; simp [storeStartAddrHi, he]
  · left; simp [storeStartAddrLo, he]
  · left; simp [storeQtyHi, he]
  · simp [storeQtyLo] at h; obtain ⟨_, _, rfl⟩ := h; left; exact he
  · left; simp [storeData, he]
  · left; simp [storeCrcLo, he]
  · unfold storeCrcHi; dsimp only; split
    · left; simp [he]
    · right; right; simp [Desc.raise, he]

/-- No byte makes more than two hooks due. -/
theorem storeByte_hooks_length {b i d st} (h : storeByte b i d = some st) : st.hooks.length ≤ 2 := by
  unfold storeByte at h
  split at h <;> (try simp only [Option.some.injEq, reduceCtorEq] at h) <;> (try subst h)
  all_goals try (first
    | simp [storeSlaveAddress] | simp [storeByteCount] | simp [storeSingleAddrHi] | simp [storeSingleAddrLo]
    | simp [storeStartAddrHi] | simp [storeStartAddrLo] | simp [storeQtyHi] | simp [storeCrcLo])
  · unfold storeFunction; split <;> simp
  · simp [storeQtyLo] at h; obtain ⟨_, _, rfl⟩ := h; simp
  · simp [storeData]; split <;> split <;> simp
  · unfold storeCrcHi; dsimp only; split <;> simp

/-- The parts of one byte that goes through. -/
theorem stepByte_parts {b i s t} (h : stepByte b i s = .next t) : ∃ st u, storeByte b i (s.d.checksum b) = some st ∧
    fireHooks st.hooks (s.setDesc st.d) = .next u ∧ t = u.setDesc (u.d.advance st.next) := by
  unfold stepByte at h
  cases hst : storeByte b i (s.d.checksum b) with
  | none => simp [hst] at h
  | some st =>
    simp only [hst, andThen_eq_next] at h
    obtain ⟨u, hu, ht⟩ := h
    cases ht
    exact ⟨st, u, rfl, hu, rfl⟩

/-- What the events from `s` to `t` look like: each used one reply, all before the last were ok, and the
error says whether the last one failed. -/
def Traced (s t : State) : Prop := ∃ evs, t.events = s.events ++ evs ∧ RepliesUsed evs.length s t ∧
  (t.d.error = .none → ∀ k < evs.length, replyAt s k = .ok) ∧
  (∀ k, k + 1 < evs.length → replyAt s k = .ok) ∧
  (t.d.error = .hookAborted → ∃ k, evs.length = k+1 ∧ replyAt s k = .fail) ∧
  (∀ k, evs.length = k+1 → replyAt s k = .fail → t.d.error = .hookAborted ∨ t.d.error = .crcMismatch)

/-- One byte, from a descriptor without an error. -/
theorem stepByte_trace {b i s t} (h : stepByte b i s = .next t) (he : s.d.error = .none) : Traced s t := by
  obtain ⟨st, u, hst, hu, rfl⟩ := stepByte_parts h
  obtain ⟨evs, h1, h2, h3, h4⟩ := fireHooks_trace hu
  have hrep : ∀ k, replyAt (s.setDesc st.d) k = replyAt s k := fun _ => rfl
  have herr : (u.setDesc (u.d.advance st.next)).d.error = u.d.error := rfl
  simp only [hrep, State.setDesc_d] at h4
  have hse := storeByte_error hst (by simpa using he)
  refine ⟨evs, h1, h2, ?_, ?_, ?_, ?_⟩ <;> (try simp only [herr])
  · intro hn
    rcases h4 with ⟨hd, ha⟩ | ⟨m, hm, ha, hf, hd⟩
    · exact ha
    · rw [hd] at hn; unfold Desc.raise at hn; split at hn <;> simp_all
  · intro k hk
    rcases h4 with ⟨hd, ha⟩ | ⟨m, hm, ha, hf, hd⟩
    · exact ha k (by omega)
    · exact ha k (by omega)
  · intro hn
    rcases h4 with ⟨hd, ha⟩ | ⟨m, hm, ha, hf, hd⟩
    · rw [hd] at hn; rcases hse with h | ⟨h, -⟩ | h <;> simp [h] at hn
    · exact ⟨m, hm, hf⟩
  · intro k hk hkf
    rcases h4 with ⟨hd, ha⟩ | ⟨m, hm, ha, hf, hd⟩
    · have := ha k (by omega); rw [this] at hkf; cases hkf
    · rw [hd]
      rcases hse with h | ⟨h, hh⟩ | h
      · left; simp [Desc.raise, h]
      · rw [hh] at h3; simp at h3; subst h3; simp at hk
      · right; simp [Desc.raise, h]

theorem Traced.refl (s : State) (he : s.d.error = .none) : Traced s s :=
  ⟨[], by simp, by intro k; simp, by simp, by simp, by simp [he], by simp⟩

theorem Traced.trans {s t u : State} (h1 : Traced s t) (he : t.d.error = .none) (h2 : Traced t u) : Traced s u := by
  obtain ⟨e1, a1, a2, a3, a4, a5, a6⟩ := h1
  obtain ⟨e2, b1, b2, b3, b4, b5, b6⟩ := h2
  have hok := a3 he
  have split : ∀ k, k ≥ e1.length → replyAt s k = replyAt t (k - e1.length) := by
    intro k hk; rw [a2]; congr 1; omega
  refine ⟨e1 ++ e2, by rw [b1, a1]; simp, ?_, ?_, ?_, ?_, ?_⟩
  · intro k; rw [b2, a2]; congr 1; simp; omega
  · intro hn k hk
    by_cases hlt : k < e1.length
    · exact hok k hlt
    · rw [split k (by omega)]; exact b3 hn _ (by simp at hk; omega)
  · intro k hk
    by_cases hlt : k < e1.length
    · exact hok k hlt
    · rw [split k (by omega)]; exact b4 _ (by simp at hk; omega)
  · intro hn
    obtain ⟨k, hk, hf⟩ := b5 hn
    exact ⟨e1.length + k, by simp [hk]; omega, by rw [split _ (by omega)]; simpa using hf⟩
  · intro k hk hf
    simp at hk
    by_cases hlt : k < e1.length
    · rw [hok k hlt] at hf; cases hf
    · exact b6 (k - e1.length) (by omega) (by rw [← split k (by omega)]; exact hf)

/-- The loop of a call, from a descriptor without an error. -/
theorem consume_trace {bs : List Byte} {i : Nat} {s : State} {j : Nat} {t : State} (h : consume bs i s = .next (j, t))
   (he : s.d.error = .none) : Traced s t := by
  induction bs generalizing i s with
  | nil => simp at h; obtain ⟨rfl, rfl⟩ := h; exact .refl _ he
  | cons b rest ih =>
    cases hg : gated s.d with
    | true => rw [consume_gated _ _ _ hg] at h; cases h; exact .refl _ he
    | false =>
      rw [consume_cons _ _ _ _ hg, andThen_eq_next] at h
      obtain ⟨u, hu, h⟩ := h
      have h1 := stepByte_trace hu he
      by_cases hue : u.d.error = .none
      · exact h1.trans hue (ih h hue)
      · rw [consume_gated _ _ _ (by simp [gated, hue])] at h; cases h; exact h1

end Sys2Proof.Machine
end

