-- ==== Sys2Proof/Laws/Instances.lean ====
section
/-! SUPPORT. What an operation, and a sequence of them, can do to a system of instances. -/

namespace Sys2Proof.Machine

/-- Everything an operation on instance `k` can do. -/
theorem Instances.run_eq_next {sys t : Instances} {k : Nat} {i : Instr} :
    sys.run k i = some (.next t) ↔ ∃ s u, sys[k]? = some s ∧ exec i s = .next u ∧ t = sys.set k u := by
  simp only [Instances.run, Option.map_eq_some_iff, andThen_eq_next]
  constructor
  · rintro ⟨s, hs, u, hu, ht⟩
    cases ht
    exact ⟨s, u, hs, hu, rfl⟩
  · rintro ⟨s, u, hs, hu, rfl⟩
    exact ⟨s, hs, u, hu, rfl⟩

@[simp] theorem Instances.runAll_nil (sys : Instances) : sys.runAll [] = some sys := rfl

/-- A sequence is its first operation and then the rest. -/
theorem Instances.runAll_cons {sys t : Instances} {op : Nat × Instr} {ops : List (Nat × Instr)} :
    sys.runAll (op :: ops) = some t ↔ ∃ u, sys.run op.1 op.2 = some (.next u) ∧ Instances.runAll u ops = some t := by
  simp only [Instances.runAll, Option.bind_eq_some_iff]
  constructor
  · rintro ⟨u, ⟨o, ho, hu⟩, ht⟩
    cases o <;> simp [nextValue] at hu
    subst hu
    exact ⟨_, ho, ht⟩
  · rintro ⟨u, hu, ht⟩
    exact ⟨u, ⟨_, hu, rfl⟩, ht⟩

/-- A sequence that does not name instance `j` goes the same way whatever state `j` is in, and leaves
that state. -/
theorem Instances.runAll_set {sys t : Instances} {j : Nat} {ops : List (Nat × Instr)} (x : State)
    (hj : ∀ op ∈ ops, op.1 ≠ j) (h : sys.runAll ops = some t) :
    Instances.runAll (sys.set j x) ops = some (t.set j x) ∧ t[j]? = sys[j]? := by
  induction ops generalizing sys with
  | nil => simp at h; subst h; simp
  | cons op rest ih =>
    obtain ⟨u, hu, ht⟩ := Instances.runAll_cons.mp h
    obtain ⟨s, v, hs, hv, rfl⟩ := Instances.run_eq_next.mp hu
    have hne : op.1 ≠ j := hj op (by simp)
    obtain ⟨h1, h2⟩ := ih (fun o ho => hj o (by simp [ho])) ht
    refine ⟨Instances.runAll_cons.mpr ⟨_, Instances.run_eq_next.mpr ⟨s, v, ?_, hv, rfl⟩, ?_⟩, ?_⟩
    · rw [List.getElem?_set_ne (Ne.symm hne), hs]
    · rw [List.set_comm _ _ (Ne.symm hne)]
      exact h1
    · rw [h2, List.getElem?_set_ne hne]

end Sys2Proof.Machine
end

