-- ==== Sys2Proof/Laws/PerInstr.lean ====
section
/-! SUPPORT. For each row: its frame, where it is one, has from 5 to 264 bytes, and no bytes where it is
none (30_encoding.md R70). -/

namespace Sys2Proof.Laws

/-- A well-formed frame row has 5 to 264 bytes; every other row has none. -/
def FrameLength.Statement (i : Instr) : Prop :=
  WellFormed i = true →
    match frameKind i with
    | some _ => 5 ≤ (frameBytes i).length ∧ (frameBytes i).length ≤ 264
    | none => frameBytes i = []

theorem FrameLength.qReadCoils (slave : Byte) (address quantity crc : Half) :
    FrameLength.Statement (.qReadCoils slave address quantity crc) := by
  simp [FrameLength.Statement, frameKind, frameBytes, encode, layoutTwoFields]

theorem FrameLength.qReadDiscrete (slave : Byte) (address quantity crc : Half) :
    FrameLength.Statement (.qReadDiscrete slave address quantity crc) := by
  simp [FrameLength.Statement, frameKind, frameBytes, encode, layoutTwoFields]

theorem FrameLength.qReadHoldReg (slave : Byte) (address quantity crc : Half) :
    FrameLength.Statement (.qReadHoldReg slave address quantity crc) := by
  simp [FrameLength.Statement, frameKind, frameBytes, encode, layoutTwoFields]

theorem FrameLength.qReadInputReg (slave : Byte) (address quantity crc : Half) :
    FrameLength.Statement (.qReadInputReg slave address quantity crc) := by
  simp [FrameLength.Statement, frameKind, frameBytes, encode, layoutTwoFields]

theorem FrameLength.qWriteSingleCoil (slave : Byte) (address value crc : Half) :
    FrameLength.Statement (.qWriteSingleCoil slave address value crc) := by
  simp [FrameLength.Statement, frameKind, frameBytes, encode, layoutTwoFields]

theorem FrameLength.qWriteSingleReg (slave : Byte) (address value crc : Half) :
    FrameLength.Statement (.qWriteSingleReg slave address value crc) := by
  simp [FrameLength.Statement, frameKind, frameBytes, encode, layoutTwoFields]

theorem FrameLength.qWriteMultiCoils (slave : Byte) (address quantity : Half) (data : List Byte) (crc : Half) :
    FrameLength.Statement (.qWriteMultiCoils slave address quantity data crc) := by
  intro h
  have hl : data.length ≤ 255 := by simpa [WellFormed, dataFits] using h
  simp only [frameKind, frameBytes, encode, layoutMultiQuery, List.length_append, List.length_cons, List.length_nil]
  omega

theorem FrameLength.qWriteMultiRegs (slave : Byte) (address quantity : Half) (data : List Byte) (crc : Half) :
    FrameLength.Statement (.qWriteMultiRegs slave address quantity data crc) := by
  intro h
  have hl : data.length ≤ 255 := by simpa [WellFormed, dataFits] using h
  simp only [frameKind, frameBytes, encode, layoutMultiQuery, List.length_append, List.length_cons, List.length_nil]
  omega

theorem FrameLength.rReadCoils (slave : Byte) (data : List Byte) (crc : Half) :
    FrameLength.Statement (.rReadCoils slave data crc) := by
  intro h
  have hl : data.length ≤ 255 := by simpa [WellFormed, dataFits] using h
  simp only [frameKind, frameBytes, encode, layoutReadResponse, List.length_append, List.length_cons, List.length_nil]
  omega

theorem FrameLength.rReadDiscrete (slave : Byte) (data : List Byte) (crc : Half) :
    FrameLength.Statement (.rReadDiscrete slave data crc) := by
  intro h
  have hl : data.length ≤ 255 := by simpa [WellFormed, dataFits] using h
  simp only [frameKind, frameBytes, encode, layoutReadResponse, List.length_append, List.length_cons, List.length_nil]
  omega

theorem FrameLength.rReadHoldReg (slave : Byte) (data : List Byte) (crc : Half) :
    FrameLength.Statement (.rReadHoldReg slave data crc) := by
  intro h
  have hl : data.length ≤ 255 := by simpa [WellFormed, dataFits] using h
  simp only [frameKind, frameBytes, encode, layoutReadResponse, List.length_append, List.length_cons, List.length_nil]
  omega

theorem FrameLength.rReadInputReg (slave : Byte) (data : List Byte) (crc : Half) :
    FrameLength.Statement (.rReadInputReg slave data crc) := by
  intro h
  have hl : data.length ≤ 255 := by simpa [WellFormed, dataFits] using h
  simp only [frameKind, frameBytes, encode, layoutReadResponse, List.length_append, List.length_cons, List.length_nil]
  omega

theorem FrameLength.rWriteSingleCoil (slave : Byte) (address value crc : Half) :
    FrameLength.Statement (.rWriteSingleCoil slave address value crc) := by
  simp [FrameLength.Statement, frameKind, frameBytes, encode, layoutTwoFields]

theorem FrameLength.rWriteSingleReg (slave : Byte) (address value crc : Half) :
    FrameLength.Statement (.rWriteSingleReg slave address value crc) := by
  simp [FrameLength.Statement, frameKind, frameBytes, encode, layoutTwoFields]

theorem FrameLength.rWriteMultiCoils (slave : Byte) (address quantity crc : Half) :
    FrameLength.Statement (.rWriteMultiCoils slave address quantity crc) := by
  simp [FrameLength.Statement, frameKind, frameBytes, encode, layoutTwoFields]

theorem FrameLength.rWriteMultiRegs (slave : Byte) (address quantity crc : Half) :
    FrameLength.Statement (.rWriteMultiRegs slave address quantity crc) := by
  simp [FrameLength.Statement, frameKind, frameBytes, encode, layoutTwoFields]

theorem FrameLength.gReadCoils (q : GenArgs) (capacity : Nat) : FrameLength.Statement (.gReadCoils q capacity) :=
  fun _ => rfl

theorem FrameLength.gReadDiscrete (q : GenArgs) (capacity : Nat) : FrameLength.Statement (.gReadDiscrete q capacity) :=
  fun _ => rfl

theorem FrameLength.gReadHoldReg (q : GenArgs) (capacity : Nat) : FrameLength.Statement (.gReadHoldReg q capacity) :=
  fun _ => rfl

theorem FrameLength.gReadInputReg (q : GenArgs) (capacity : Nat) : FrameLength.Statement (.gReadInputReg q capacity) :=
  fun _ => rfl

theorem FrameLength.gWriteSingleCoil (q : GenArgs) (capacity : Nat) : FrameLength.Statement (.gWriteSingleCoil q capacity) :=
  fun _ => rfl

theorem FrameLength.gWriteSingleReg (q : GenArgs) (capacity : Nat) : FrameLength.Statement (.gWriteSingleReg q capacity) :=
  fun _ => rfl

theorem FrameLength.gWriteMultiCoils (q : GenArgs) (capacity : Nat) : FrameLength.Statement (.gWriteMultiCoils q capacity) :=
  fun _ => rfl

theorem FrameLength.gWriteMultiRegs (q : GenArgs) (capacity : Nat) : FrameLength.Statement (.gWriteMultiRegs q capacity) :=
  fun _ => rfl

theorem FrameLength.crcUpdate (c : Half) (b : Byte) : FrameLength.Statement (.crcUpdate c b) :=
  fun _ => rfl

theorem FrameLength.crcCompute (s : List Byte) : FrameLength.Statement (.crcCompute s) :=
  fun _ => rfl

theorem FrameLength.pInit (k : Kind) : FrameLength.Statement (.pInit k) :=
  fun _ => rfl

theorem FrameLength.pReset : FrameLength.Statement (.pReset) :=
  fun _ => rfl

theorem FrameLength.hReset : FrameLength.Statement (.hReset) :=
  fun _ => rfl

theorem FrameLength.hSet (h : Nat) (present : Bool) : FrameLength.Statement (.hSet h present) :=
  fun _ => rfl

theorem FrameLength.ctxWrite (v : Context) : FrameLength.Statement (.ctxWrite v) :=
  fun _ => rfl

theorem FrameLength.pStep (b : Byte) (i : Nat) : FrameLength.Statement (.pStep b i) :=
  fun _ => rfl

theorem FrameLength.pExec (input : List Byte) : FrameLength.Statement (.pExec input) :=
  fun _ => rfl

theorem FrameLength.gGen (q : Query) (capacity : Nat) : FrameLength.Statement (.gGen q capacity) :=
  fun _ => rfl

end Sys2Proof.Laws
end

