-- ==== Sys2Proof/Laws/Run.lean ====
section
/-! SUPPORT. What a run of bytes does to a descriptor when every reply is ok, one lemma for each field
of a frame; the frames are their composition. -/

namespace Sys2Proof.Machine

/-- With every reply ok, the bytes `bs` from index `i` take descriptor `d` to `d'` and make the hooks
`hs` due, in order. -/
def Runs (bs : List Byte) (i : Nat) (d d' : Desc) (hs : List Hook) : Prop :=
  ∀ s : State, s.d = d → s.hooksReset = true → RepliesOk hs.length s →
    ∃ t, consume bs i s = .next (i + bs.length, t) ∧ t.d = d' ∧
      t.events.map (·.hook) = s.events.map (·.hook) ++ hs.filter (fun h => s.hookEn.getLsbD (hookId h))

/-- No byte. -/
theorem Runs.nil (i d) : Runs [] i d d [] := by
  intro s hd hr hok
  exact ⟨s, rfl, hd, by simp⟩

/-- One byte and then the rest. -/
theorem Runs.cons {b i d st rest d' hs} (hg : gated d = false) (hst : storeByte b i (d.checksum b) = some st)
    (h : Runs rest (i+1) (st.d.advance st.next) d' hs) : Runs (b :: rest) i d d' (st.hooks ++ hs) := by
  intro s hd hr hok
  subst hd
  obtain ⟨u, hu⟩ := fireHooks_answers st.hooks (s.setDesc st.d) hr
  have hok1 : RepliesOk (st.hooks.length + hs.length) (s.setDesc st.d) := fun n hn => hok n (by simpa using hn)
  obtain ⟨h1, h2⟩ := fireHooks_all_ok hu hs.length hok1
  have hev := fireHooks_events (s := s.setDesc st.d) hr (fun n hn => hok1 n (by omega)) hu
  have hstep : stepByte b i s = .next (u.setDesc (u.d.advance st.next)) := by
    unfold stepByte; rw [hst]; simp only [hu]; rfl
  obtain ⟨_, _, _, hm⟩ := stepByte_next hstep
  obtain ⟨f1,f2,-⟩ := hm.fields
  obtain ⟨t, ht, hd', he⟩ := h (u.setDesc (u.d.advance st.next)) (by rw [State.setDesc_d, h1]; rfl) (by rw [f2, hr]) h2
  refine ⟨t, ?_, hd', ?_⟩
  · rw [consume_cons _ _ _ _ hg, hstep]
    have : i + (b :: rest).length = i + 1 + rest.length := by simp; omega
    rw [this]; exact ht
  · rw [he, f1]
    have : (u.setDesc (u.d.advance st.next)).events = u.events := rfl
    rw [this, hev]; simp

/-- One run after another. -/
theorem Runs.append {a b i d d1 d2 h1 h2} (ha : Runs a i d d1 h1) (hb : Runs b (i + a.length) d1 d2 h2) : Runs (a ++ b) i d d2 (h1 ++ h2) := by
  intro s hd hr hok
  obtain ⟨t, ht, hd1, he⟩ := ha s hd hr (fun n hn => hok n (by simp; omega))
  have hm := (consume_moves ht).fields
  have hrep : RepliesOk h2.length t := by
    -- all replies used were ok: count ≤ h1.length
    by_cases hse : s.d.error = .none
    · obtain ⟨evs, a1, a2, -⟩ := consume_trace ht hse
      have hl : evs.length ≤ h1.length := by
        have h3 : t.events.length = s.events.length + evs.length := by rw [a1]; simp
        have h4 := congrArg List.length he
        simp only [List.length_map, List.length_append] at h4
        have := List.length_filter_le (fun h => s.hookEn.getLsbD (hookId h)) h1
        omega
      intro n hn
      rw [a2]; exact hok _ (by simp; omega)
    · rw [consume_gated _ _ _ (by simp [gated, hse])] at ht; injection ht with ht; injection ht with _ ht; subst ht
      intro n hn; exact hok _ (by simp; omega)
  obtain ⟨u, hu, hd2, he2⟩ := hb t hd1 (by rw [hm.2.1, hr]) hrep
  refine ⟨u, ?_, hd2, ?_⟩
  · rw [consume_append, ht]; simp only [andThen_next, hu]; simp; omega
  · rw [he2, he, hm.1]; simp

/-- The same run, its end written otherwise. -/
theorem Runs.congr {bs i d d1 d2 h1 h2} (h : Runs bs i d d1 h1) (e1 : d1 = d2) (e2 : h1 = h2) : Runs bs i d d2 h2 := by
  subst e1 e2; exact h

/-- Low byte first: the checksum is read back. -/
theorem lowPart_loByte_or_highPart (a : Half) : lowPart (loByte a) ||| highPart (hiByte a) = a := by simp

/-- One byte. -/
theorem Runs.one {b i d st} (hg : gated d = false) (hst : storeByte b i (d.checksum b) = some st) :
    Runs [b] i d (st.d.advance st.next) st.hooks := by
  have := Runs.cons hg hst (Runs.nil _ _)
  simpa using this

/-- The slave address (R125). -/
theorem runs_slaveAddress (b i) (d : Desc) (he : d.error = .none) (hs : d.state = .slaveAddress) :
    Runs [b] i d
      { d with
        runningCrc := crcUpdate d.runningCrc b,
        slaveAddress := b,
        state := .function } [.onSlaveAddress] := by
  have := Runs.one (b := b) (i := i) (not_gated he (by simp [hs])) (storeByte_slaveAddress b i _ (by simp [hs]))
  rw [checksum_outside_crc (by simp [hs]) (by simp [hs])] at this
  exact this

/-- A recognized function code (R126). -/
theorem runs_function (b i) (d : Desc) (c) (hc : classify b = some c) (he : d.error = .none) (hs : d.state = .function) :
    Runs [b] i d
      { d with
        runningCrc := crcUpdate d.runningCrc b,
        function := b,
        state := branch d.kind c } [.onFunction] := by
  have := Runs.one (b := b) (i := i) (not_gated he (by simp [hs])) (storeByte_function b i _ (by simp [hs]))
  rw [checksum_outside_crc (by simp [hs]) (by simp [hs])] at this
  simp only [storeFunction, hc] at this
  exact this

/-- A byte count (R129). -/
theorem runs_byteCount (b i) (d : Desc) (he : d.error = .none) (hs : d.state = .byteCount) :
    Runs [b] i d
      { d with
        runningCrc := crcUpdate d.runningCrc b,
        byteCount := b,
        dataLen := b,
        dataCnt := 0#8,
        state := if b = 0#8 then .crcLo else .data } [.onByteCount] := by
  have := Runs.one (b := b) (i := i) (not_gated he (by simp [hs])) (storeByte_byteCount b i _ (by simp [hs]))
  rw [checksum_outside_crc (by simp [hs]) (by simp [hs])] at this
  exact this

/-- A starting address (R132, R133). -/
theorem runs_startAddr (a : Half) (i) (d : Desc) (he : d.error = .none) (hs : d.state = .startAddrHi) :
    Runs [hiByte a, loByte a] i d
      { d with
        runningCrc := crcFold d.runningCrc [hiByte a, loByte a],
        address := a,
        state := .qtyHi } [.onAddress] := by
  have h1 := Runs.one (b := hiByte a) (i := i) (not_gated he (by simp [hs])) (storeByte_startAddrHi _ i _ (by simp [hs]))
  rw [checksum_outside_crc (by simp [hs]) (by simp [hs])] at h1
  have h2 := fun (d : Desc) (he : d.error = .none) (hs : d.state = .startAddrLo) =>
    Runs.one (b := loByte a) (i := i + 1) (not_gated he (by simp [hs]))
      (storeByte_startAddrLo _ (i+1) (d.checksum (loByte a)) (by simp [hs]))
  have h3 := h1.append (h2 _ he rfl)
  refine h3.congr ?_ rfl
  rw [checksum_outside_crc (show ParserState.startAddrLo ≠ .crcLo by decide) (show ParserState.startAddrLo ≠ .crcHi by decide)]
  simp [storeStartAddrLo, storeStartAddrHi, Desc.advance]

/-- A single write's address (R130, R131). -/
theorem runs_singleAddr (a : Half) (i) (d : Desc) (he : d.error = .none) (hs : d.state = .singleAddrHi) :
    Runs [hiByte a, loByte a] i d
      { d with
        runningCrc := crcFold d.runningCrc [hiByte a, loByte a],
        address := a,
        dataLen := 2#8,
        dataCnt := 0#8,
        state := .data } [.onAddress] := by
  have h1 := Runs.one (b := hiByte a) (i := i) (not_gated he (by simp [hs])) (storeByte_singleAddrHi _ i _ (by simp [hs]))
  rw [checksum_outside_crc (by simp [hs]) (by simp [hs])] at h1
  have h2 := fun (d : Desc) (he : d.error = .none) (hs : d.state = .singleAddrLo) =>
    Runs.one (b := loByte a) (i := i + 1) (not_gated he (by simp [hs]))
      (storeByte_singleAddrLo _ (i+1) (d.checksum (loByte a)) (by simp [hs]))
  have h3 := h1.append (h2 _ he rfl)
  refine h3.congr ?_ rfl
  rw [checksum_outside_crc (show ParserState.singleAddrLo ≠ .crcLo by decide) (show ParserState.singleAddrLo ≠ .crcHi by decide)]
  simp [storeSingleAddrLo, storeSingleAddrHi, Desc.advance]

/-- A quantity (R134, R135). -/
theorem runs_qty (a : Half) (i) (d : Desc) (n) (he : d.error = .none) (hs : d.state = .qtyHi)
    (hn : afterQty d.kind (classify d.function) = some n) :
    Runs [hiByte a, loByte a] i d
      { d with
        runningCrc := crcFold d.runningCrc [hiByte a, loByte a],
        quantity := a,
        state := n } [.onQuantity] := by
  have h1 := Runs.one (b := hiByte a) (i := i) (not_gated he (by simp [hs])) (storeByte_qtyHi _ i _ (by simp [hs]))
  rw [checksum_outside_crc (by simp [hs]) (by simp [hs])] at h1
  have h2 := fun (d : Desc) (he : d.error = .none) (hs : d.state = .qtyLo)
      (hn : afterQty d.kind (classify d.function) = some n) =>
    Runs.one (b := loByte a) (i := i + 1) (not_gated he (by simp [hs]))
      (storeByte_qtyLo _ (i+1) (d.checksum (loByte a)) (by simp [hs]) (by simpa using hn))
  have h3 := h1.append (h2 _ he rfl hn)
  refine h3.congr ?_ rfl
  rw [checksum_outside_crc (show ParserState.qtyLo ≠ .crcLo by decide) (show ParserState.qtyLo ≠ .crcHi by decide)]
  simp [storeQtyHi, Desc.advance]

/-- One data byte (R137). -/
theorem runs_dataByte (b i) (d : Desc) (he : d.error = .none) (hs : d.state = .data) :
    Runs [b] i d
      { d with
        runningCrc := crcUpdate d.runningCrc b,
        payload := d.payload.extend i,
        dataCnt := d.dataCnt + 1#8,
        state := if d.dataCnt + 1#8 = d.dataLen then .crcLo else .data }
     ((if d.dataCnt + 1#8 = 1#8 then [.onDataStart] else []) ++ (if d.dataCnt + 1#8 = d.dataLen then [.onDataEnd] else [])) := by
  have := Runs.one (b := b) (i := i) (not_gated he (by simp [hs])) (storeByte_data b i _ (by simp [hs]))
  rw [checksum_outside_crc (by simp [hs]) (by simp [hs])] at this
  exact this

/-- Only 0 counts up to 1. -/
theorem add_one_eq (x : Byte) : x + 1#8 = 1#8 ↔ x = 0#8 := by
  constructor
  · intro h; have := congrArg BitVec.toNat h; rw [BitVec.toNat_add] at this; simp at this
    apply BitVec.eq_of_toNat_eq; have := x.isLt; simp; omega
  · rintro rfl; rfl

/-- A whole data region (R137). -/
theorem runs_data (bs : List Byte) (i) (d : Desc) (he : d.error = .none) (hs : d.state = .data) (hne : bs ≠ [])
    (hlen : d.dataCnt.toNat + bs.length = d.dataLen.toNat)
    (hpl : d.payload.length.toNat ≤ d.dataCnt.toNat) :
    Runs bs i d { d with runningCrc := crcFold d.runningCrc bs, dataCnt := d.dataLen, state := .crcLo,
                         payload := { offset := if d.payload.length = 0#8 then i else d.payload.offset, length := d.payload.length + BitVec.ofNat 8 bs.length } }
       ((if d.dataCnt = 0#8 then [.onDataStart] else []) ++ [.onDataEnd]) := by
  induction bs generalizing i d with
  | nil => exact absurd rfl hne
  | cons b rest ih =>
    have hl := d.dataLen.isLt
    have h1 := runs_dataByte b i d he hs
    have hc : (d.dataCnt + 1#8).toNat = d.dataCnt.toNat + 1 := by
      rw [BitVec.toNat_add]; simp only [BitVec.toNat_ofNat, List.length_cons] at *; omega
    by_cases hr : rest = []
    · subst hr
      have e : d.dataCnt + 1#8 = d.dataLen := BitVec.eq_of_toNat_eq (by rw [hc]; simpa using hlen)
      refine h1.congr ?_ ?_
      · rw [if_pos e, e]; rfl
      · rw [if_pos e]; simp only [add_one_eq]
    · have hpos : 0 < rest.length := by cases rest with | nil => exact absurd rfl hr | cons => simp
      have e : d.dataCnt + 1#8 ≠ d.dataLen := fun h => by
        have := congrArg BitVec.toNat h; rw [hc] at this; simp only [List.length_cons] at hlen; omega
      rw [if_neg e, if_neg e] at h1
      have hpl2 : (d.payload.length + 1#8).toNat = d.payload.length.toNat + 1 := by
        rw [BitVec.toNat_add]; simp only [BitVec.toNat_ofNat, List.length_cons] at *; omega
      have hpn : d.payload.length + 1#8 ≠ 0#8 := fun h => by
        have := congrArg BitVec.toNat h; rw [hpl2] at this; simp at this
      have hcn : d.dataCnt + 1#8 ≠ 0#8 := fun h => by
        have := congrArg BitVec.toNat h; rw [hc] at this; simp at this
      have h2 := ih (i+1) { d with runningCrc := crcUpdate d.runningCrc b, payload := d.payload.extend i, dataCnt := d.dataCnt + 1#8, state := .data }
        he rfl hr
        (by show (d.dataCnt + 1#8).toNat + _ = _; rw [hc]; simp only [List.length_cons] at hlen; show _ = d.dataLen.toNat; omega)
        (by show (d.payload.length + 1#8).toNat ≤ (d.dataCnt + 1#8).toNat; omega)
      have h3 := h1.append h2
      refine h3.congr ?_ ?_
      · simp only [Payload.extend, hpn, if_false, crcFold_cons]
        congr 2
        apply BitVec.eq_of_toNat_eq
        simp [BitVec.toNat_add]; omega
      · simp only [hcn, if_false, add_one_eq]; simp

/-- A checksum that is right (R138, R139). -/
theorem runs_crc_match (crc : Half) (i) (d : Desc) (he : d.error = .none) (hs : d.state = .crcLo) (hc : crc = d.runningCrc) :
    Runs [loByte crc, hiByte crc] i d
      { d with
        frameCrc := crc,
        state := .complete } [.onComplete] := by
  have h1 := Runs.one (b := loByte crc) (i := i) (not_gated he (by simp [hs])) (storeByte_crcLo _ i _ (by simp [hs]))
  rw [Desc.checksum_of_inCrcState d _ (by simp [inCrcState, hs])] at h1
  have h2 := fun (d : Desc) (he : d.error = .none) (hs : d.state = .crcHi) (hm : d.frameCrc ||| highPart (hiByte crc) = d.runningCrc) =>
    Runs.one (b := hiByte crc) (i := i + 1) (st := _) (not_gated he (by simp [hs]))
      (by rw [Desc.checksum_of_inCrcState d _ (by simp [inCrcState, hs]), storeByte_crcHi _ (i+1) d hs, storeCrcHi_match _ _ hm])
  have h3 := h1.append (h2 _ he rfl ((lowPart_loByte_or_highPart crc).trans hc))
  refine h3.congr ?_ rfl
  simp [storeCrcLo, Desc.advance]

/-- A checksum that is wrong (R138, R139). -/
theorem runs_crc_mismatch (crc : Half) (i) (d : Desc) (he : d.error = .none) (hs : d.state = .crcLo) (hc : crc ≠ d.runningCrc) :
    Runs [loByte crc, hiByte crc] i d
      { d with
        frameCrc := crc,
        state := .crcHi,
        error := .crcMismatch } [.onCrcError] := by
  have h1 := Runs.one (b := loByte crc) (i := i) (not_gated he (by simp [hs])) (storeByte_crcLo _ i _ (by simp [hs]))
  rw [Desc.checksum_of_inCrcState d _ (by simp [inCrcState, hs])] at h1
  have h2 := fun (d : Desc) (he : d.error = .none) (hs : d.state = .crcHi) (hm : d.frameCrc ||| highPart (hiByte crc) ≠ d.runningCrc) =>
    Runs.one (b := hiByte crc) (i := i + 1) (st := _) (not_gated he (by simp [hs]))
      (by rw [Desc.checksum_of_inCrcState d _ (by simp [inCrcState, hs]), storeByte_crcHi _ (i+1) d hs, storeCrcHi_mismatch _ _ hm])
  have h3 := h1.append (h2 _ he rfl (by show lowPart _ ||| _ ≠ d.runningCrc; rw [lowPart_loByte_or_highPart]; exact hc))
  refine h3.congr ?_ rfl
  simp [storeCrcLo, Desc.advance, Desc.raise, he]

end Sys2Proof.Machine
end

