-- ==== Sys2Proof/Tests/Slice0.lean ====
section
/-! SUPPORT. The model's own tests. Expected values are those of 95_test_vectors.md and the worked
examples of the rules; each test is one decoding or one step. -/

namespace Sys2Proof.Tests

-- the tests one after another: many kernel evaluations at once need a thread each
set_option Elab.async false

open Sys2Proof.Machine

/-- The value of `f` after an outcome that answers next. -/
def after (o : Outcome State) (f : State → α) : Option α := (nextValue o).map f

/-- A fresh descriptor of kind `k`, all nine hooks present, all replies ok ("Fresh" of 95_test_vectors.md). -/
def fresh (k : Kind) : State :=
  { State.reset with
    d := Desc.fresh k (BitVec.zero _), initialised := true, hooksReset := true, hookEn := 0x1FF, replies := List.replicate 9 .ok }

/-- `fresh` with the given replies. -/
def freshWith (k : Kind) (rs : List Reply) : State := { fresh k with replies := rs }

/-- What a frame's vector lists: address, quantity, byte count, payload, frame CRC. -/
def fields (s : State) : List Nat :=
  [s.d.address.toNat, s.d.quantity.toNat, s.d.byteCount.toNat, s.d.payload.offset, s.d.payload.length.toNat,
    s.d.frameCrc.toNat]

/-- State, error and what the operation returned. -/
def ending (s : State) : ParserState × ErrorKind × Result := (s.d.state, s.d.error, s.result)

/-- The hooks of the events, with the running CRC each snapshot shows. -/
def trace (s : State) : List (Hook × Half) := s.events.map fun e => (e.hook, e.snapshot.runningCrc)

/-- The result of an outcome's refusal. -/
def refusal (o : Outcome State) : Option Refusal :=
  match o with
  | .refused r => some r
  | .next _ => none
  | .fault _ => none

/-- The first `n` bytes of OUT. -/
def outBytes (n : Nat) (s : State) : List (Option Byte) := (List.range n).map (Memory.read s.out)

/-! ### Ill-formed terms are refused by WellFormed -/

theorem test_wf_data_too_long :
    WellFormed (.qWriteMultiRegs 0 0 0 (List.replicate 256 0#8) 0) = false := by decide +kernel

theorem test_wf_data_longest :
    WellFormed (.rReadCoils 0 (List.replicate 255 0#8) 0) = true := by decide +kernel

theorem test_wf_words_missing :
    WellFormed (.gWriteMultiRegs ⟨0, 0, 0, [1#16], 2⟩ 20) = false := by decide +kernel

theorem test_wf_gen_words_missing :
    WellFormed (.gGen ⟨0, 6, 0, 0, [], 1⟩ 20) = false := by decide +kernel

theorem test_wf_hook_id :
    WellFormed (.hSet 9 true) = false := by decide +kernel

/-! ### Decoding: words written out from the formats of 30_encoding.md -/

theorem test_decode_qReadCoils :
    decode (some .query) (.execute [0x11, 0x01, 0x00, 0x13, 0x00, 0x0A, 0x4F, 0x58]) =
      .qReadCoils 0x11 0x0013 0x000A 0x584F := by decide +kernel

theorem test_decode_qReadDiscrete :
    decode (some .query) (.execute [0x11, 0x02, 0x00, 0x6B, 0x00, 0x03, 0x4B, 0x47]) =
      .qReadDiscrete 0x11 0x006B 0x0003 0x474B := by decide +kernel

theorem test_decode_qReadHoldReg :
    decode (some .query) (.execute [0x11, 0x03, 0x00, 0x6B, 0x00, 0x03, 0x76, 0x87]) =
      .qReadHoldReg 0x11 0x006B 0x0003 0x8776 := by decide +kernel

theorem test_decode_qReadInputReg :
    decode (some .query) (.execute [0x11, 0x04, 0x00, 0x6B, 0x00, 0x03, 0xC3, 0x47]) =
      .qReadInputReg 0x11 0x006B 0x0003 0x47C3 := by decide +kernel

theorem test_decode_qWriteSingleCoil :
    decode (some .query) (.execute [0x11, 0x05, 0x00, 0xAC, 0xFF, 0x00, 0x4E, 0x8B]) =
      .qWriteSingleCoil 0x11 0x00AC 0xFF00 0x8B4E := by decide +kernel

theorem test_decode_qWriteSingleReg :
    decode (some .query) (.execute [0x11, 0x06, 0x00, 0x01, 0x00, 0x03, 0x9A, 0x9B]) =
      .qWriteSingleReg 0x11 0x0001 0x0003 0x9B9A := by decide +kernel

theorem test_decode_qWriteMultiCoils :
    decode (some .query) (.execute [0x11, 0x0F, 0x00, 0x13, 0x00, 0x10, 0x02, 0x0F, 0x55, 0xE8, 0x8C]) =
      .qWriteMultiCoils 0x11 0x0013 0x0010 [0x0F, 0x55] 0x8CE8 := by decide +kernel

theorem test_decode_qWriteMultiRegs :
    decode (some .query) (.execute [0x11, 0x10, 0x00, 0x01, 0x00, 0x02, 0x04, 0x00, 0x0A, 0x01, 0x02, 0xC6, 0xF0]) =
      .qWriteMultiRegs 0x11 0x0001 0x0002 [0x00, 0x0A, 0x01, 0x02] 0xF0C6 := by decide +kernel

theorem test_decode_rReadCoils :
    decode (some .response) (.execute [0x11, 0x01, 0x05, 0xCD, 0x6B, 0xB2, 0x0E, 0x1B, 0x45, 0xE6]) =
      .rReadCoils 0x11 [0xCD, 0x6B, 0xB2, 0x0E, 0x1B] 0xE645 := by decide +kernel

theorem test_decode_rReadDiscrete :
    decode (some .response) (.execute [0x11, 0x02, 0x03, 0xAC, 0xDB, 0x35, 0x20, 0x18]) =
      .rReadDiscrete 0x11 [0xAC, 0xDB, 0x35] 0x1820 := by decide +kernel

theorem test_decode_rReadHoldReg :
    decode (some .response) (.execute [0x11, 0x03, 0x06, 0x02, 0x2B, 0x00, 0x00, 0x00, 0x64, 0xC8, 0xBA]) =
      .rReadHoldReg 0x11 [0x02, 0x2B, 0x00, 0x00, 0x00, 0x64] 0xBAC8 := by decide +kernel

theorem test_decode_rReadInputReg :
    decode (some .response) (.execute [0x11, 0x04, 0x02, 0x00, 0x0A, 0xF8, 0xF4]) =
      .rReadInputReg 0x11 [0x00, 0x0A] 0xF4F8 := by decide +kernel

theorem test_decode_rWriteSingleCoil :
    decode (some .response) (.execute [0x11, 0x05, 0x00, 0xAC, 0xFF, 0x00, 0x4E, 0x8B]) =
      .rWriteSingleCoil 0x11 0x00AC 0xFF00 0x8B4E := by decide +kernel

theorem test_decode_rWriteSingleReg :
    decode (some .response) (.execute [0x11, 0x06, 0x00, 0x01, 0x00, 0x03, 0x9A, 0x9B]) =
      .rWriteSingleReg 0x11 0x0001 0x0003 0x9B9A := by decide +kernel

theorem test_decode_rWriteMultiCoils :
    decode (some .response) (.execute [0x11, 0x0F, 0x00, 0x13, 0x00, 0x0A, 0x26, 0x99]) =
      .rWriteMultiCoils 0x11 0x0013 0x000A 0x9926 := by decide +kernel

theorem test_decode_rWriteMultiRegs :
    decode (some .response) (.execute [0x11, 0x10, 0x00, 0x01, 0x00, 0x02, 0x12, 0x98]) =
      .rWriteMultiRegs 0x11 0x0001 0x0002 0x9812 := by decide +kernel

/-- F-RQ (30_encoding.md R64), bit by bit: slave 0x11, code 1, address 0x0013, quantity 0x000A, CRC 0x584F low
byte first. -/
theorem test_decode_bits :
    decodeFrame .query [0b00010001#8, 0b00000001#8, 0b00000000#8, 0b00010011#8, 0b00000000#8, 0b00001010#8,
      0b01001111#8, 0b01011000#8] = .ok (.qReadCoils 0x11 0x0013 0x000A 0x584F, []) := by rfl

theorem test_decode_gReadCoils :
    decode none (.generate ⟨0x11, 1, 0x0001, 0x0002, [7], 1⟩ 20) = .gReadCoils ⟨0x11, 0x0001, 0x0002, [7], 1⟩ 20 := by decide +kernel

theorem test_decode_gReadDiscrete :
    decode none (.generate ⟨0x11, 2, 0x0001, 0x0002, [7], 1⟩ 20) = .gReadDiscrete ⟨0x11, 0x0001, 0x0002, [7], 1⟩ 20 := by decide +kernel

theorem test_decode_gReadHoldReg :
    decode none (.generate ⟨0x11, 3, 0x0001, 0x0002, [7], 1⟩ 20) = .gReadHoldReg ⟨0x11, 0x0001, 0x0002, [7], 1⟩ 20 := by decide +kernel

theorem test_decode_gReadInputReg :
    decode none (.generate ⟨0x11, 4, 0x0001, 0x0002, [7], 1⟩ 20) = .gReadInputReg ⟨0x11, 0x0001, 0x0002, [7], 1⟩ 20 := by decide +kernel

theorem test_decode_gWriteSingleCoil :
    decode none (.generate ⟨0x11, 5, 0x0001, 0x0002, [7], 1⟩ 20) = .gWriteSingleCoil ⟨0x11, 0x0001, 0x0002, [7], 1⟩ 20 := by decide +kernel

theorem test_decode_gWriteSingleReg :
    decode none (.generate ⟨0x11, 6, 0x0001, 0x0002, [7], 1⟩ 20) = .gWriteSingleReg ⟨0x11, 0x0001, 0x0002, [7], 1⟩ 20 := by decide +kernel

theorem test_decode_gWriteMultiCoils :
    decode none (.generate ⟨0x11, 15, 0x0001, 0x0002, [7], 1⟩ 20) = .gWriteMultiCoils ⟨0x11, 0x0001, 0x0002, [7], 1⟩ 20 := by decide +kernel

theorem test_decode_gWriteMultiRegs :
    decode none (.generate ⟨0x11, 16, 0x0001, 0x0002, [7], 1⟩ 20) = .gWriteMultiRegs ⟨0x11, 0x0001, 0x0002, [7], 1⟩ 20 := by decide +kernel

/-- 20_memory.md R59. -/
theorem test_decode_operations :
    ∀ c : Context, [Request.init .response, .reset, .resetHooks, .setHook 3 true, .attachContext c, .execute [0x11], .stepByte 0x11 4,
      .crc16 [1, 2], .update 0xFFFF 0x11].map (decode (some .query)) =
    [.pInit .response, .pReset, .hReset, .hSet 3 true, .ctxWrite c, .pExec [0x11], .pStep 0x11 4, .crcCompute [1, 2],
      .crcUpdate 0xFFFF 0x11] := fun _ => rfl

theorem test_decode_gen_unknown_code :
    decode none (.generate ⟨0x11, 7, 0, 0, [], 0⟩ 100) = .gGen ⟨0x11, 7, 0, 0, [], 0⟩ 100 := by decide +kernel

/-- Bytes that arrive mid-frame are no frame of their own. -/
theorem test_decode_mid_frame :
    decode none (.execute [0x11, 0x01, 0x00, 0x13, 0x00, 0x0A, 0x4F, 0x58]) =
      .pExec [0x11, 0x01, 0x00, 0x13, 0x00, 0x0A, 0x4F, 0x58] := by decide +kernel

theorem test_decode_unknown_code :
    decodeFrame .response [0x11, 0x83, 0x02, 0xC1, 0x34] = .error .unknownFunction := by rfl

theorem test_decode_truncated :
    decodeFrame .query [0x11, 0x10, 0x00, 0x01, 0x00] = .error .truncated := by rfl

theorem test_decode_table_word :
    decodeTableWord 8 0x0F = some (.qWriteMultiCoils 0 0 0 [] 0) := by decide +kernel

/-! ### One step: the frames (95_test_vectors.md V3.1, V3.2) -/

theorem test_qReadCoils :
    after (exec (.qReadCoils 0x11 0x0013 0x000A 0x584F) (fresh .query)) (fun t => (fields t, ending t)) =
      some ([0x0013, 0x000A, 0, 0, 0, 0x584F], (.complete, .none, .consumed 8)) := by decide +kernel

theorem test_qReadDiscrete :
    after (exec (.qReadDiscrete 0x11 0x006B 0x0003 0x474B) (fresh .query)) (fun t => (fields t, ending t)) =
      some ([0x006B, 3, 0, 0, 0, 0x474B], (.complete, .none, .consumed 8)) := by decide +kernel

theorem test_qReadHoldReg :
    after (exec (.qReadHoldReg 0x11 0x006B 0x0003 0x8776) (fresh .query)) (fun t => (fields t, ending t)) =
      some ([0x006B, 3, 0, 0, 0, 0x8776], (.complete, .none, .consumed 8)) := by decide +kernel

theorem test_qReadInputReg :
    after (exec (.qReadInputReg 0x11 0x006B 0x0003 0x47C3) (fresh .query)) (fun t => (fields t, ending t)) =
      some ([0x006B, 3, 0, 0, 0, 0x47C3], (.complete, .none, .consumed 8)) := by decide +kernel

theorem test_qWriteSingleCoil :
    after (exec (.qWriteSingleCoil 0x11 0x00AC 0xFF00 0x8B4E) (fresh .query)) (fun t => (fields t, ending t)) =
      some ([0x00AC, 0, 0, 4, 2, 0x8B4E], (.complete, .none, .consumed 8)) := by decide +kernel

theorem test_qWriteSingleReg :
    after (exec (.qWriteSingleReg 0x11 0x0001 0x0003 0x9B9A) (fresh .query)) (fun t => (fields t, ending t)) =
      some ([1, 0, 0, 4, 2, 0x9B9A], (.complete, .none, .consumed 8)) := by decide +kernel

theorem test_qWriteMultiCoils :
    after (exec (.qWriteMultiCoils 0x11 0x0013 0x0010 [0x0F, 0x55] 0x8CE8) (fresh .query)) (fun t => (fields t, ending t)) =
      some ([0x0013, 0x0010, 2, 7, 2, 0x8CE8], (.complete, .none, .consumed 11)) := by decide +kernel

theorem test_qWriteMultiRegs :
    after (exec (.qWriteMultiRegs 0x11 0x0001 0x0002 [0x00, 0x0A, 0x01, 0x02] 0xF0C6) (fresh .query)) (fun t => (fields t, ending t)) =
      some ([1, 2, 4, 7, 4, 0xF0C6], (.complete, .none, .consumed 13)) := by decide +kernel

theorem test_rReadCoils :
    after (exec (.rReadCoils 0x11 [0xCD, 0x6B, 0xB2, 0x0E, 0x1B] 0xE645) (fresh .response)) (fun t => (fields t, ending t)) =
      some ([0, 0, 5, 3, 5, 0xE645], (.complete, .none, .consumed 10)) := by decide +kernel

theorem test_rReadDiscrete :
    after (exec (.rReadDiscrete 0x11 [0xAC, 0xDB, 0x35] 0x1820) (fresh .response)) (fun t => (fields t, ending t)) =
      some ([0, 0, 3, 3, 3, 0x1820], (.complete, .none, .consumed 8)) := by decide +kernel

theorem test_rReadHoldReg :
    after (exec (.rReadHoldReg 0x11 [0x02, 0x2B, 0x00, 0x00, 0x00, 0x64] 0xBAC8) (fresh .response)) (fun t => (fields t, ending t)) =
      some ([0, 0, 6, 3, 6, 0xBAC8], (.complete, .none, .consumed 11)) := by decide +kernel

theorem test_rReadInputReg :
    after (exec (.rReadInputReg 0x11 [0x00, 0x0A] 0xF4F8) (fresh .response)) (fun t => (fields t, ending t)) =
      some ([0, 0, 2, 3, 2, 0xF4F8], (.complete, .none, .consumed 7)) := by decide +kernel

theorem test_rWriteSingleCoil :
    after (exec (.rWriteSingleCoil 0x11 0x00AC 0xFF00 0x8B4E) (fresh .response)) (fun t => (fields t, ending t)) =
      some ([0x00AC, 0, 0, 4, 2, 0x8B4E], (.complete, .none, .consumed 8)) := by decide +kernel

theorem test_rWriteSingleReg :
    after (exec (.rWriteSingleReg 0x11 0x0001 0x0003 0x9B9A) (fresh .response)) (fun t => (fields t, ending t)) =
      some ([1, 0, 0, 4, 2, 0x9B9A], (.complete, .none, .consumed 8)) := by decide +kernel

theorem test_rWriteMultiCoils :
    after (exec (.rWriteMultiCoils 0x11 0x0013 0x000A 0x9926) (fresh .response)) (fun t => (fields t, ending t)) =
      some ([0x0013, 0x000A, 0, 0, 0, 0x9926], (.complete, .none, .consumed 8)) := by decide +kernel

theorem test_rWriteMultiRegs :
    after (exec (.rWriteMultiRegs 0x11 0x0001 0x0002 0x9812) (fresh .response)) (fun t => (fields t, ending t)) =
      some ([1, 2, 0, 0, 0, 0x9812], (.complete, .none, .consumed 8)) := by decide +kernel

/-! ### One step: events, errors and gating (95_test_vectors.md V3, V5) -/

/-- V3.1, seventh row. -/
theorem test_events_multi_write :
    after (exec (.qWriteMultiCoils 0x11 0x0013 0x0010 [0x0F, 0x55] 0x8CE8) (fresh .query)) trace =
      some [(.onSlaveAddress, 0x4C7F), (.onFunction, 0xE44D), (.onAddress, 0xD674), (.onQuantity, 0x52A7),
        (.onByteCount, 0x7B92), (.onDataStart, 0xA9BA), (.onDataEnd, 0x8CE8), (.onComplete, 0x8CE8)] := by decide +kernel

/-- V5.1. -/
theorem test_crc_mismatch :
    after (exec (.pExec [0x11, 0x03, 0x06, 0x02, 0x2B, 0x00, 0x00, 0x00, 0x64, 0xC8, 0xBB, 0x55]) (fresh .response))
      (fun t => (ending t, t.d.frameCrc, t.d.runningCrc)) =
      some ((.crcHi, .crcMismatch, .consumed 11), 0xBBC8, 0xBAC8) := by decide +kernel

/-- V3.4, wrong kind. -/
theorem test_wrong_kind :
    after (exec (.qReadCoils 0x11 0x0013 0x000A 0x584F) (fresh .response)) (fun t => (fields t, ending t)) =
      some ([0, 0, 0, 0, 0, 0x0013], (.crcHi, .crcMismatch, .consumed 5)) := by decide +kernel

/-- V5.3. -/
theorem test_unknown_function :
    after (exec (.pExec [0x11, 0x83, 0x02, 0xC1, 0x34]) (fresh .response))
      (fun t => (ending t, t.d.function, t.d.runningCrc, trace t)) =
      some ((.function, .unknownFunction, .consumed 2), 0x83, 0x414C, [(.onSlaveAddress, 0x4C7F)]) := by decide +kernel

/-- V5.4. -/
theorem test_hook_fails_on_function :
    after (exec (.pExec [0x11, 0x03, 0x06, 0x02, 0x2B, 0x00, 0x00, 0x00, 0x64, 0xC8, 0xBA]) (freshWith .response [.ok, .fail]))
      (fun t => (ending t, t.d.runningCrc)) = some ((.byteCount, .hookAborted, .consumed 2), 0xE14D) := by decide +kernel

/-- V5.7. -/
theorem test_hook_fails_on_data_start :
    after (exec (.rReadCoils 0x11 [0xCD] 0xDD94) (freshWith .response [.ok, .ok, .ok, .fail]))
      (fun t => (ending t, t.d.payload.length, t.events.length)) =
      some ((.crcLo, .hookAborted, .consumed 4), 1, 4) := by decide +kernel

/-- V5.8. -/
theorem test_hook_fails_on_crc_error :
    after (exec (.rReadHoldReg 0x11 [0x02, 0x2B, 0x00, 0x00, 0x00, 0x64] 0xBBC8)
      (freshWith .response [.ok, .ok, .ok, .ok, .ok, .fail])) ending = some (.crcHi, .crcMismatch, .consumed 11) := by decide +kernel

/-- V5.9. -/
theorem test_hook_fails_on_complete :
    after (exec (.pExec [0x11, 0x03, 0x06, 0x02, 0x2B, 0x00, 0x00, 0x00, 0x64, 0xC8, 0xBA]) (freshWith .response [.ok, .ok, .ok, .ok, .ok, .fail])) ending =
      some (.complete, .hookAborted, .consumed 11) := by decide +kernel

/-- V3.3, split 5 + 6. -/
theorem test_split_data_window :
    after (exec (.pExec [0x00, 0x00, 0x00, 0x64, 0xC8, 0xBA])
      { fresh .response with
        d := { Desc.fresh .response (BitVec.zero _) with
               state := .data, function := 3, byteCount := 6, dataLen := 6, dataCnt := 2, payload := ⟨3, 2⟩, runningCrc := 0x3979 } })
      (fun t => (fields t, windowBytes t.input t.d.payload)) =
      some ([0, 0, 6, 0, 4, 0xBAC8], [some 0, some 0, some 0, some 0x64]) := by decide +kernel

/-- V3.4. -/
theorem test_half_field :
    after (exec (.pExec [0x11, 0x10, 0x12]) (fresh .query)) (fun t => (t.d.address, ending t)) =
      some (0x1200, (.startAddrLo, .none, .consumed 3)) := by decide +kernel

/-- R140. -/
theorem test_gated_after_complete :
    after (exec (.pExec [0x11])
      { fresh .query with d := { Desc.fresh .query (BitVec.zero _) with state := .complete, payload := ⟨3, 6⟩ } })
      (fun t => (t.d.payload.length, ending t)) = some (0, (.complete, .none, .consumed 0)) := by decide +kernel

/-- V2.8. -/
theorem test_refused_before_init :
    refusal (exec (.pExec [0x11]) State.reset) = some .uninitialised := by decide +kernel

/-- 70_reset_and_hazards.md R242. -/
theorem test_refused_hooks_undefined :
    refusal (exec (.pExec [0x11]) { fresh .query with hooksReset := false }) = some .hooksUndefined := by decide +kernel

/-- R122. -/
theorem test_p_step :
    after (exec (.pStep 0x11 0) (fresh .query)) (fun t => (t.d.slaveAddress, t.d.runningCrc, t.d.state)) =
      some (0x11, 0x4C7F, .function) := by decide +kernel

/-- R122, precondition. -/
theorem test_p_step_gated :
    refusal (exec (.pStep 0x11 0) { fresh .query with d := { Desc.fresh .query (BitVec.zero _) with error := .hookAborted } }) =
      some .stepGated := by decide +kernel

/-! ### One step: CRCU, descriptor and hook table (95_test_vectors.md V1, V2) -/

theorem test_crc_update :
    after (exec (.crcUpdate 0x1234 0x56) State.reset) (·.result) = some (.crc 0xE993) := by decide +kernel

theorem test_crc_update_low_byte :
    after (exec (.crcUpdate 0xBAC8 0xC8) State.reset) (·.result) = some (.crc 0x00BA) := by decide +kernel

theorem test_crc_compute :
    after (exec (.crcCompute [0x31, 0x32, 0x33, 0x34, 0x35, 0x36, 0x37, 0x38, 0x39]) State.reset) (·.result) =
      some (.crc 0x4B37) := by decide +kernel

theorem test_crc_compute_empty :
    after (exec (.crcCompute []) State.reset) (·.result) = some (.crc 0xFFFF) := by decide +kernel

/-- V2.1, V2.7, for every context. -/
theorem test_p_init :
    ∀ c, after (exec (.pInit .query)
      { fresh .response with d := { Desc.fresh .response c with state := .crcHi, error := .crcMismatch, frameCrc := 0xBAC8 } }) (·.d) = some (Desc.fresh .query c) := fun _ => rfl

/-- V2.3, for every context. -/
theorem test_p_reset :
    ∀ c, after (exec .pReset
      { fresh .response with d := { Desc.fresh .response c with state := .crcHi, error := .crcMismatch, frameCrc := 0xBAC8 } }) (·.d) = some (Desc.fresh .response c) := fun _ => rfl

/-- V2.8. -/
theorem test_p_reset_refused :
    refusal (exec .pReset State.reset) = some .uninitialised := by decide +kernel

/-- V2.5. -/
theorem test_h_reset :
    after (exec .hReset { State.reset with hookEn := 0b110000011 }) (·.hookEn) = some 0 := by decide +kernel

/-- V2.6. -/
theorem test_h_set_on :
    after (exec (.hSet 8 true) { State.reset with hookEn := 0b001000000 }) (·.hookEn) = some 0b101000000 := by decide +kernel

/-- V2.6. -/
theorem test_h_set_off :
    after (exec (.hSet 6 false) { State.reset with hookEn := 0b101000000 }) (·.hookEn) = some 0b100000000 := by decide +kernel

/-- V2.8. -/
theorem test_h_set_refused :
    refusal (exec (.hSet 9 true) State.reset) = some .hookIdOutOfRange := by decide +kernel

/-- V2.7, for every context. -/
theorem test_ctx_write :
    ∀ c, after (exec (.ctxWrite c) State.reset) (·.d.userContext) = some c := fun _ => rfl

/-! ### One step: GEN (95_test_vectors.md V4) -/

theorem test_gReadCoils :
    after (exec (.gReadCoils ⟨0x11, 0x0013, 0x000A, [], 0⟩ 8) State.reset) (fun t => (t.result, outBytes 9 t)) =
      some (.generated 8, [some 0x11, some 0x01, some 0x00, some 0x13, some 0x00, some 0x0A, some 0x4F, some 0x58, none]) := by decide +kernel

theorem test_gReadDiscrete :
    after (exec (.gReadDiscrete ⟨0x11, 0x006B, 3, [], 0⟩ 8) State.reset) (fun t => (t.result, outBytes 9 t)) =
      some (.generated 8, [some 0x11, some 0x02, some 0x00, some 0x6B, some 0x00, some 0x03, some 0x4B, some 0x47, none]) := by decide +kernel

theorem test_gReadHoldReg :
    after (exec (.gReadHoldReg ⟨0x00, 0xFFFF, 0xFFFF, [], 0⟩ 8) State.reset) (fun t => (t.result, outBytes 9 t)) =
      some (.generated 8, [some 0x00, some 0x03, some 0xFF, some 0xFF, some 0xFF, some 0xFF, some 0x45, some 0x8F, none]) := by decide +kernel

theorem test_gReadInputReg :
    after (exec (.gReadInputReg ⟨0x11, 0x006B, 3, [], 0⟩ 8) State.reset) (fun t => (t.result, outBytes 9 t)) =
      some (.generated 8, [some 0x11, some 0x04, some 0x00, some 0x6B, some 0x00, some 0x03, some 0xC3, some 0x47, none]) := by decide +kernel

theorem test_gWriteSingleCoil :
    after (exec (.gWriteSingleCoil ⟨0x11, 0x00AC, 0, [0x1234], 1⟩ 8) State.reset) (fun t => (t.result, outBytes 9 t)) =
      some (.generated 8, [some 0x11, some 0x05, some 0x00, some 0xAC, some 0x12, some 0x34, some 0x02, some 0x0C, none]) := by decide +kernel

theorem test_gWriteSingleReg :
    after (exec (.gWriteSingleReg ⟨0x11, 0x0001, 0x9999, [3, 7], 2⟩ 8) State.reset) (fun t => (t.result, outBytes 9 t)) =
      some (.generated 8, [some 0x11, some 0x06, some 0x00, some 0x01, some 0x00, some 0x03, some 0x9A, some 0x9B, none]) := by decide +kernel

theorem test_gWriteMultiCoils :
    after (exec (.gWriteMultiCoils ⟨0x11, 0x0000, 0x0011, [0xFFFF, 0x0001], 2⟩ 12) State.reset) (fun t => (t.result, outBytes 13 t)) =
      some (.generated 12, [some 0x11, some 0x0F, some 0x00, some 0x00, some 0x00, some 0x11, some 0x03, some 0xFF, some 0xFF, some 0x01, some 0x2D, some 0xE0, none]) := by decide +kernel

theorem test_gWriteMultiCoils_pad :
    after (exec (.gWriteMultiCoils ⟨0x11, 0x0013, 0x000A, [0xFFCD], 1⟩ 11) State.reset) (fun t => (t.result, outBytes 12 t)) =
      some (.generated 11, [some 0x11, some 0x0F, some 0x00, some 0x13, some 0x00, some 0x0A, some 0x02, some 0xCD, some 0xFF, some 0x3E, some 0x8B, none]) := by decide +kernel

theorem test_gWriteMultiRegs :
    after (exec (.gWriteMultiRegs ⟨0x11, 0x0001, 0, [0x000A, 0x0102], 2⟩ 13) State.reset) (fun t => (t.result, outBytes 14 t)) =
      some (.generated 13, [some 0x11, some 0x10, some 0x00, some 0x01, some 0x00, some 0x02, some 0x04, some 0x00, some 0x0A, some 0x01, some 0x02, some 0xC6, some 0xF0, none]) := by decide +kernel

theorem test_gGen_quantity_given :
    after (exec (.gGen ⟨0x11, 16, 0x0001, 5, [0x000A, 0x0102], 2⟩ 13) State.reset) (fun t => (t.result, outBytes 14 t)) =
      some (.generated 13, [some 0x11, some 0x10, some 0x00, some 0x01, some 0x00, some 0x05, some 0x04, some 0x00, some 0x0A, some 0x01, some 0x02, some 0xC7, some 0x47, none]) := by decide +kernel

theorem test_gen_too_small :
    after (exec (.gWriteMultiRegs ⟨0x11, 1, 0, [0x000A, 0x0102], 2⟩ 12) State.reset) (fun t => (t.result, t.out)) =
      some (.generated (-1), []) := by decide +kernel

theorem test_gen_unknown_function :
    after (exec (.gGen ⟨0x11, 0, 0, 0, [], 0⟩ 0) State.reset) (fun t => (t.result, t.out)) = some (.generated (-2), []) := by decide +kernel

/-- V4.2. -/
theorem test_gen_refused_single :
    refusal (exec (.gWriteSingleCoil ⟨0x11, 0, 0, [], 0⟩ 8) State.reset) = some .generatorPrecondition := by decide +kernel

/-- V4.2. -/
theorem test_gen_refused_coils :
    refusal (exec (.gWriteMultiCoils ⟨0x11, 0, 17, [1], 1⟩ 300) State.reset) = some .generatorPrecondition := by decide +kernel

/-- V4.2. -/
theorem test_gen_refused_regs :
    refusal (exec (.gWriteMultiRegs ⟨0x11, 0, 0, List.replicate 128 0, 128⟩ 300) State.reset) = some .generatorPrecondition := by decide +kernel

/-! ### The step -/

theorem test_step_runs_request :
    after (step { fresh .query with requests := [.execute [0x11, 0x06, 0x00, 0x01, 0x00, 0x03, 0x9A, 0x9B], .reset] })
      (fun t => (ending t, t.requests)) = some ((.complete, .none, .consumed 8), [.reset]) := by decide +kernel

theorem test_step_idle :
    after (step State.reset) id = some State.reset := by decide +kernel

theorem test_step_table_word :
    after (step (State.reset.withFetchWord 8 0x05)) (fun t => (t.d.function, t.d.state, t.result)) =
      some (5, .crcHi, .consumed 8) := by decide +kernel


/-! ### Witnesses: for every statement with hypotheses, a state and operands that meet them together -/

/-- A descriptor of kind `k` in state `p` with function byte `f`, on an instance like `fresh k`. -/
def inState (k : Kind) (p : ParserState) (f : Byte) : State :=
  { fresh k with d := { Desc.fresh k (BitVec.zero _) with state := p, function := f } }

/-- A data state with `cnt` of `len` data bytes counted. -/
def inData (cnt len : Byte) : State :=
  { fresh .response with d := { Desc.fresh .response (BitVec.zero _) with state := .data, function := 3, dataCnt := cnt, dataLen := len } }

/-- An instance with a request to give the frame `bs`. -/
def asked (k : Kind) (bs : List Byte) : State := { fresh k with requests := [.execute bs] }

theorem fresh_freshFor (k : Kind) : FreshFor k (fresh k) := ⟨⟨rfl, rfl⟩, rfl⟩

theorem fresh_repliesOk (k : Kind) : RepliesOk 9 (fresh k) := by
  cases k <;> (unfold RepliesOk; decide +kernel)

theorem fresh_inv (k : Kind) : Inv (fresh k) := by
  refine ⟨?_, .nil, .nil⟩
  constructor <;> simp [fresh, Desc.fresh, OnPath, stateCode]

theorem reset_ready_inv : Inv { State.reset with initialised := true, hooksReset := true } := by
  refine ⟨?_, .nil, .nil⟩
  constructor <;> simp [State.reset, Desc.fresh, OnPath, stateCode]

theorem witness_FrameDecodesToItsRow :
    WellFormed (.rReadCoils 1 (List.replicate 255 0) 0) = true ∧
      frameKind (.rReadCoils 1 (List.replicate 255 0) 0) = some .response ∧
      WellFormed (.qWriteMultiRegs 1 0 0 [] 0) = true ∧ frameKind (.qWriteMultiRegs 1 0 0 [] 0) = some .query := by
  decide +kernel

theorem witness_OperationDecodesToItsRow :
    frameKind (.pStep 0 0) = none ∧ (∀ bs, Instr.pStep 0 0 ≠ .pExec bs) ∧ (∀ q n, Instr.pStep 0 0 ≠ .gGen q n) ∧
      classify (⟨1, 7, 0, 0, [], 0⟩ : Query).function = none :=
  ⟨rfl, by simp, by simp, rfl⟩

theorem witness_DecodedRowIsItsFrame :
    decodeFrame .response [1, 3, 0, 0xAA, 0xBB, 7] = .ok (.rReadHoldReg 1 [] 0xBBAA, [7]) := by decide +kernel

theorem witness_StepRunsTheDecodedRequest :
    State.reset.requests = [] ∧ (asked .query []).requests = .execute [] :: [] ∧
      (asked .query (frameBytes (.qReadCoils 1 2 3 4))).requests = .execute (frameBytes (.qReadCoils 1 2 3 4)) :: [] ∧
      WellFormed (.qReadCoils 1 2 3 4) = true ∧ frameKind (.qReadCoils 1 2 3 4) = some .query ∧
      frameMode (asked .query (frameBytes (.qReadCoils 1 2 3 4))) = some .query := by decide +kernel

theorem witness_UnrecognizedCodesAreNoFrame :
    classify 0 = none ∧ classify 7 = none ∧ classify 14 = none ∧ classify 17 = none ∧ classify 0x81 = none := by
  decide +kernel

/-- The shortest and the longest frame. -/
theorem witness_FrameLengths :
    WellFormed (.rReadCoils 1 [] 0) = true ∧ frameKind (.rReadCoils 1 [] 0) = some .response ∧
      WellFormed (.qWriteMultiCoils 1 2 3 (List.replicate 255 0) 0) = true ∧
      frameKind (.qWriteMultiCoils 1 2 3 (List.replicate 255 0) 0) = some .query := by decide +kernel

theorem witness_PInitLeavesTheResetTable : ∃ t, exec (.pInit .response) State.reset = .next t := ⟨_, rfl⟩

theorem witness_PResetIsPInitOfTheSameKind :
    (fresh .response).initialised = true ∧ State.reset.initialised = false := ⟨rfl, rfl⟩

theorem witness_HSetWritesOneBit : (0 : Nat) ≤ 8 ∧ (8 : Nat) ≤ 8 ∧ (8 : Nat) < 9 := by decide

theorem witness_CtxWriteSetsTheContext :
    ∃ t u, exec (.ctxWrite 5) State.reset = .next t ∧ exec (.pInit .query) t = .next u := ⟨_, _, rfl, rfl⟩

theorem witness_StepStoresSlaveAddress :
    Ready (fresh .query) ∧ (fresh .query).d.error = .none ∧ (fresh .query).d.state = .slaveAddress :=
  ⟨⟨rfl, rfl⟩, rfl, rfl⟩

theorem witness_StepStoresRecognizedFunction :
    Ready (inState .query .function 0) ∧ (inState .query .function 0).d.error = .none ∧
      (inState .query .function 0).d.state = .function ∧ classify 1 = some .read ∧ classify 6 = some .single ∧
      classify 16 = some .multi := ⟨⟨rfl, rfl⟩, rfl, rfl, rfl, rfl, rfl⟩

theorem witness_StepAbortsOnUnrecognizedFunction :
    (inState .response .function 0).initialised = true ∧ (inState .response .function 0).d.error = .none ∧
      (inState .response .function 0).d.state = .function ∧ classify 0x83 = none := ⟨rfl, rfl, rfl, rfl⟩

theorem witness_StepStoresByteCount :
    Ready (inState .response .byteCount 3) ∧ (inState .response .byteCount 3).d.error = .none ∧
      (inState .response .byteCount 3).d.state = .byteCount := ⟨⟨rfl, rfl⟩, rfl, rfl⟩

theorem witness_StepStoresAddressHighByte :
    ((inState .query .singleAddrHi 5).initialised = true ∧ (inState .query .singleAddrHi 5).d.error = .none ∧
      (inState .query .singleAddrHi 5).d.state = .singleAddrHi) ∧
    (inState .query .startAddrHi 1).initialised = true ∧ (inState .query .startAddrHi 1).d.error = .none ∧
      (inState .query .startAddrHi 1).d.state = .startAddrHi := ⟨⟨rfl, rfl, rfl⟩, rfl, rfl, rfl⟩

theorem witness_StepStoresAddressLowByte :
    (Ready (inState .query .singleAddrLo 5) ∧ (inState .query .singleAddrLo 5).d.error = .none ∧
      (inState .query .singleAddrLo 5).d.state = .singleAddrLo) ∧
    Ready (inState .query .startAddrLo 1) ∧ (inState .query .startAddrLo 1).d.error = .none ∧
      (inState .query .startAddrLo 1).d.state = .startAddrLo := ⟨⟨⟨rfl, rfl⟩, rfl, rfl⟩, ⟨rfl, rfl⟩, rfl, rfl⟩

theorem witness_StepStoresQuantity_high :
    (inState .query .qtyHi 1).initialised = true ∧ (inState .query .qtyHi 1).d.error = .none ∧
      (inState .query .qtyHi 1).d.state = .qtyHi := ⟨rfl, rfl, rfl⟩

theorem witness_StepStoresQuantity_read :
    Ready (inState .query .qtyLo 1) ∧ (inState .query .qtyLo 1).d.error = .none ∧
      (inState .query .qtyLo 1).d.state = .qtyLo ∧ (inState .query .qtyLo 1).d.kind = .query ∧
      classify (inState .query .qtyLo 1).d.function = some .read := ⟨⟨rfl, rfl⟩, rfl, rfl, rfl, rfl⟩

theorem witness_StepStoresQuantity_multi :
    (Ready (inState .query .qtyLo 15) ∧ (inState .query .qtyLo 15).d.error = .none ∧
      (inState .query .qtyLo 15).d.state = .qtyLo ∧ (inState .query .qtyLo 15).d.kind = .query ∧
      classify (inState .query .qtyLo 15).d.function = some .multi) ∧
    Ready (inState .response .qtyLo 16) ∧ (inState .response .qtyLo 16).d.error = .none ∧
      (inState .response .qtyLo 16).d.state = .qtyLo ∧ (inState .response .qtyLo 16).d.kind = .response ∧
      classify (inState .response .qtyLo 16).d.function = some .multi :=
  ⟨⟨⟨rfl, rfl⟩, rfl, rfl, rfl, rfl⟩, ⟨rfl, rfl⟩, rfl, rfl, rfl, rfl⟩

/-- The only, the first, a middle and the last byte of a region. -/
theorem witness_StepCountsDataBytes :
    ∀ p ∈ ([(0, 1), (0, 255), (7, 9), (254, 255)] : List (Byte × Byte)),
      Ready (inData p.1 p.2) ∧ (inData p.1 p.2).d.error = .none ∧ (inData p.1 p.2).d.state = .data ∧
        (inData p.1 p.2).d.dataCnt.toNat < (inData p.1 p.2).d.dataLen.toNat := by
  intro p hp
  refine ⟨⟨rfl, rfl⟩, rfl, rfl, ?_⟩
  simp only [List.mem_cons, List.mem_nil_iff, or_false] at hp
  rcases hp with rfl | rfl | rfl | rfl <;> decide

theorem witness_StepStoresCrcLowByte :
    (inState .query .crcLo 1).initialised = true ∧ (inState .query .crcLo 1).d.error = .none ∧
      (inState .query .crcLo 1).d.state = .crcLo := ⟨rfl, rfl, rfl⟩

/-- Running CRC 0xFFFF and low byte 0: no second byte makes them equal; low byte 0xFF and 0xFF does. -/
theorem witness_StepComparesTheChecksums :
    (Ready (inState .query .crcHi 1) ∧ (inState .query .crcHi 1).d.error = .none ∧
      (inState .query .crcHi 1).d.state = .crcHi ∧
      (inState .query .crcHi 1).d.frameCrc ||| highPart 0xFF ≠ (inState .query .crcHi 1).d.runningCrc) ∧
    { Desc.fresh .query (BitVec.zero _) with state := .crcHi, frameCrc := 0xFF }.frameCrc ||| highPart 0xFF =
      { Desc.fresh .query (BitVec.zero _) with state := .crcHi, frameCrc := 0xFF }.runningCrc :=
  ⟨⟨⟨rfl, rfl⟩, rfl, rfl, by decide⟩, by decide⟩

theorem witness_StepOutsidePreconditionRefused :
    (inState .query .complete 1).initialised = true ∧ (inState .query .complete 1).d.state = .complete ∧
      State.reset.initialised = false := ⟨rfl, rfl, rfl⟩

/-- Each way to be gated: an error, `complete`, no input. -/
theorem witness_ExecIsGatedByErrorAndComplete :
    (fresh .query).initialised = true ∧ { Desc.fresh .query (BitVec.zero _) with error := .hookAborted }.error ≠ .none ∧
      (inState .query .complete 1).d.state = .complete ∧ (inState .query .complete 1).initialised = true :=
  ⟨rfl, by decide, rfl, rfl⟩

theorem witness_ExecConsumesUntilTerminal : Inv (fresh .query) ∧ Ready (fresh .query) := ⟨fresh_inv _, rfl, rfl⟩

theorem witness_ParserRefusedBeforeBringUp :
    feedsParser (.qReadCoils 1 2 3 4) = true ∧ State.reset.initialised = false ∧
      { State.reset with initialised := true }.initialised = true ∧
      { State.reset with initialised := true }.hooksReset = false ∧
      { State.reset with initialised := true }.d = Desc.fresh .query { State.reset with initialised := true }.d.userContext :=
  ⟨rfl, rfl, rfl, rfl, rfl⟩

theorem witness_ExecOfOneByteIsOneStep : (fresh .query).d.error = .none ∧ (fresh .query).d.state ≠ .complete :=
  ⟨rfl, by decide⟩

theorem witness_ExecResumesAcrossChunks :
    ∃ t u, exec (.pExec [1, 3]) (fresh .query) = .next t ∧ exec (.pExec [0]) t = .next u ∧ t.result = .consumed 2 ∧
      u.result = .consumed 1 := ⟨_, _, rfl, rfl, rfl, rfl⟩

theorem witness_RunningCrcCoversTheFrame :
    Inv (fresh .response) ∧ FreshFor .response (fresh .response) ∧
      ∃ t, exec (.pExec [1, 3, 0]) (fresh .response) = .next t ∧ t.result = .consumed 3 :=
  ⟨fresh_inv _, fresh_freshFor _, _, rfl, rfl⟩

/-- The second reply fails, and it is the last one used. -/
theorem witness_FailingReplyEndsTheCall :
    (freshWith .query [.ok, .fail]).d.error = .none ∧
      ∃ t, exec (.pExec [1, 3, 0]) (freshWith .query [.ok, .fail]) = .next t ∧ t.events.length = 1 + 1 ∧
        replyAt (freshWith .query [.ok, .fail]) 1 = .fail ∧ t.d.error = .hookAborted := ⟨rfl, _, rfl, rfl, rfl, rfl⟩

theorem witness_AbsentHooksActAsOk :
    RepliesOk (2 * [1, 3].length) (fresh .query) ∧ ∃ t, exec (.pExec [1, 3]) (fresh .query) = .next t :=
  ⟨fun k hk => fresh_repliesOk .query k (by simp at hk; omega), _, rfl⟩

theorem witness_ReadQueryFramesDecode : FreshFor .query (fresh .query) ∧ RepliesOk 5 (fresh .query) :=
  ⟨fresh_freshFor _, fun k hk => fresh_repliesOk _ k (by omega)⟩

theorem witness_SingleWriteFramesDecode : ∀ k, FreshFor k (fresh k) ∧ RepliesOk 6 (fresh k) :=
  fun k => ⟨fresh_freshFor k, fun n hn => fresh_repliesOk k n (by omega)⟩

theorem witness_MultiWriteQueryFramesDecode :
    FreshFor .query (fresh .query) ∧ RepliesOk 8 (fresh .query) ∧ ([] : List Byte).length ≤ 255 ∧
      (List.replicate 255 (0 : Byte)).length ≤ 255 :=
  ⟨fresh_freshFor _, fun k hk => fresh_repliesOk _ k (by omega), by decide, by rw [List.length_replicate]⟩

theorem witness_ReadResponseFramesDecode :
    FreshFor .response (fresh .response) ∧ RepliesOk 6 (fresh .response) ∧ ([] : List Byte).length ≤ 255 ∧
      (List.replicate 255 (0 : Byte)).length ≤ 255 :=
  ⟨fresh_freshFor _, fun k hk => fresh_repliesOk _ k (by omega), by decide, by rw [List.length_replicate]⟩

theorem witness_MultiWriteResponseFramesDecode : FreshFor .response (fresh .response) ∧ RepliesOk 5 (fresh .response) :=
  ⟨fresh_freshFor _, fun k hk => fresh_repliesOk _ k (by omega)⟩

/-- Both verdicts: a frame of 95_test_vectors.md, and the same frame with its CRC one off. -/
theorem witness_FrameVerdictIsItsChecksum :
    FreshFor .query (fresh .query) ∧ RepliesOk 8 (fresh .query) ∧
      sentCrc (frameBytes (.qReadCoils 0x11 0x0013 0x000A 0x584F)) =
        crc16 (coveredBytes (frameBytes (.qReadCoils 0x11 0x0013 0x000A 0x584F))) ∧
      sentCrc (frameBytes (.qReadCoils 0x11 0x0013 0x000A 0x584E)) ≠
        crc16 (coveredBytes (frameBytes (.qReadCoils 0x11 0x0013 0x000A 0x584E))) :=
  ⟨fresh_freshFor _, fun k hk => fresh_repliesOk _ k (by omega), by decide +kernel, by decide +kernel⟩

theorem witness_TerminalStatesHoldUntilInit :
    (inState .query .complete 1).d.state = .complete ∧ (∃ t, exec (.pExec [1]) (inState .query .complete 1) = .next t) ∧
      (∀ k, Instr.pExec [1] ≠ .pInit k) ∧ Instr.pExec [1] ≠ .pReset := ⟨rfl, ⟨_, rfl⟩, by simp, by simp⟩

theorem witness_EveryByteAdvancesOnTheWire :
    (fresh .query).d.Inv ∧ ∃ t, exec (.pStep 1 0) (fresh .query) = .next t := ⟨(fresh_inv _).desc, _, rfl⟩

/-- A multi-write query at `qty-lo`: the state with which R24 (a) and R142 part (log entry 22). -/
theorem witness_StateNumberNeverDecreases :
    (inState .query .qtyLo 16).d.Inv ∧ ∃ t, exec (.pStep 1 5) (inState .query .qtyLo 16) = .next t := by
  refine ⟨?_, _, rfl⟩
  constructor <;> simp [inState, Desc.fresh, OnPath, stateCode, classify]

theorem witness_RegistersHaveTheirOwnWriters :
    (∃ t, exec (.hSet 3 true) State.reset = .next t) ∧ ∃ t, exec (.ctxWrite 1) State.reset = .next t := ⟨⟨_, rfl⟩, _, rfl⟩

theorem witness_GeneratorTouchesNoParserState :
    isGen (.gReadCoils ⟨1, 0, 8, [], 0⟩ 7) = true ∧ State.reset.out = (fresh .query).out ∧
      ∃ t, exec (.gReadCoils ⟨1, 0, 8, [], 0⟩ 7) State.reset = .next t := ⟨rfl, rfl, _, rfl⟩

/-- A row of the list, with the least capacity that fits and the most that does not. -/
theorem witness_GeneratedReadFrames :
    ((0x04, .gReadInputReg) : Byte × (GenArgs → Nat → Instr)) ∈
      ([(1, .gReadCoils), (2, .gReadDiscrete), (3, .gReadHoldReg), (4, .gReadInputReg)] :
        List (Byte × (GenArgs → Nat → Instr))) ∧ (8 : Nat) ≤ 8 ∧ (7 : Nat) < 8 :=
  ⟨by simp, by decide, by decide⟩

theorem witness_GeneratorRowsAreGGen :
    ((16, .gWriteMultiRegs) : Byte × (GenArgs → Nat → Instr)) ∈
      ([(1, .gReadCoils), (2, .gReadDiscrete), (3, .gReadHoldReg), (4, .gReadInputReg), (5, .gWriteSingleCoil),
        (6, .gWriteSingleReg), (15, .gWriteMultiCoils), (16, .gWriteMultiRegs)] :
        List (Byte × (GenArgs → Nat → Instr))) := by simp

theorem witness_GeneratedSingleWriteFrames :
    (⟨1, 2, 0, [0xFF00], 1⟩ : GenArgs).values = 0xFF00 :: [] ∧ 1 ≤ (⟨1, 2, 0, [0xFF00], 1⟩ : GenArgs).valueCount :=
  ⟨rfl, by decide⟩

/-- Quantities 0 and 2040, the bounds of R187 (b), and a coil of the last byte. -/
theorem witness_GeneratedCoilFrames :
    ∀ a ∈ [(⟨1, 2, 0, [], 0⟩ : GenArgs), ⟨1, 2, 2040, List.replicate 128 0, 128⟩],
      a.quantity.toNat ≤ 2040 ∧ (a.quantity.toNat + 15) / 16 ≤ a.valueCount ∧ a.valueCount ≤ a.values.length := by
  decide +kernel

/-- Counts 0 and 127, the bounds of R187 (c). -/
theorem witness_GeneratedRegisterFrames :
    ∀ a ∈ [(⟨1, 2, 0, [], 0⟩ : GenArgs), ⟨1, 2, 127, List.replicate 127 0, 127⟩],
      a.valueCount ≤ 127 ∧ a.valueCount ≤ a.values.length := by decide +kernel

theorem witness_GGenAnswersByTheOrderOfTests :
    classify (⟨1, 0x81, 0, 0, [], 0⟩ : Query).function = none ∧
      classify (⟨1, 16, 0, 0, [5], 1⟩ : Query).function ≠ none ∧ WithinPreconditions ⟨1, 16, 0, 0, [5], 1⟩ ∧
      generatedLength ⟨1, 16, 0, 0, [5], 1⟩ = 11 :=
  ⟨rfl, by decide, ⟨by decide, by decide, by decide⟩, by decide⟩

/-- Just outside each bound of R187. -/
theorem witness_GeneratorRefusesOutsidePreconditions :
    (classify (⟨1, 5, 0, 0, [], 0⟩ : Query).function ≠ none ∧ ¬ WithinPreconditions ⟨1, 5, 0, 0, [], 0⟩) ∧
      ¬ WithinPreconditions ⟨1, 15, 0, 2041, List.replicate 128 0, 128⟩ ∧
      ¬ WithinPreconditions ⟨1, 15, 0, 17, [0], 1⟩ ∧ ¬ WithinPreconditions ⟨1, 16, 0, 0, List.replicate 128 0, 128⟩ := by
  refine ⟨⟨by decide, ?_⟩, ?_, ?_, ?_⟩
  · intro h; exact absurd (h.1 (by decide)) (by decide)
  · intro h; exact absurd (h.2.1 rfl).1 (by decide)
  · intro h; exact absurd (h.2.1 rfl).2 (by decide)
  · intro h; exact absurd (h.2.2 rfl) (by decide)

theorem witness_GeneratedFrameParsesBack :
    ∃ t, exec (.gGen ⟨0x11, 1, 0x0013, 0x000A, [], 0⟩ 8) (fresh .query) = .next t ∧ t.result = .generated (8 : Nat) ∧
      outBytes 8 t = [0x11, 0x01, 0x00, 0x13, 0x00, 0x0A, 0x4F, 0x58].map some ∧ (fresh .query).hooksReset = true ∧
      RepliesOk 8 (fresh .query) :=
  ⟨_, rfl, rfl, by decide +kernel, rfl, fun k hk => fresh_repliesOk _ k (by omega)⟩

theorem witness_StepKeepsTheInvariant :
    Inv { fresh .query with requests := [.execute [1, 1]] } ∧
      ∃ t, step { fresh .query with requests := [.execute [1, 1]] } = .next t :=
  ⟨⟨(fresh_inv .query).desc, .nil, .nil⟩, _, rfl⟩

/-- Between the two pieces of a frame on instance 0, instance 1 is brought up, and generates. -/
theorem witness_InstancesAreIndependent_pieces :
    (∀ op ∈ [(1, Instr.pInit .response), (1, .gReadCoils ⟨1, 0, 8, [], 0⟩ 8)], op.1 ≠ 0) ∧
      ∃ s₁ s₂ s₃, Instances.run [fresh .query, State.reset] 0 (.pExec [1, 3]) = some (.next s₁) ∧
        Instances.runAll s₁ [(1, .pInit .response), (1, .gReadCoils ⟨1, 0, 8, [], 0⟩ 8)] = some s₂ ∧
        Instances.run s₂ 0 (.pExec [0]) = some (.next s₃) := ⟨by decide, _, _, _, rfl, rfl, rfl⟩

theorem witness_InstancesAreIndependent :
    ∃ a b, Instances.run [fresh .query, State.reset] 0 (.pExec [1]) = some (.next a) ∧
      Instances.run a 1 (.pInit .response) = some (.next b) := ⟨_, _, rfl, rfl⟩

end Sys2Proof.Tests
end

/-! PROOFS. The statements of 00_scope.md. -/

/-! ### The frame decoder reads a layout back (30_encoding.md R64 to R69, R79) -/

namespace Sys2Proof

@[simp] theorem readTwoFields_layout (mk : Half → Half → Half → Instr) (field1 field2 crc : Half) (rest : List Byte) :
    readTwoFields mk (hiByte field1 :: loByte field1 :: hiByte field2 :: loByte field2 :: loByte crc :: hiByte crc :: rest) =
      .ok (mk field1 field2 crc, rest) := by
  simp [readTwoFields, takeTwoFields]

theorem readData_layout (mk : List Byte → Half → Instr) {data : List Byte} (crc : Half) (rest : List Byte)
    (h : data.length ≤ 255) :
    readData mk (countByte data.length :: (data ++ loByte crc :: hiByte crc :: rest)) = .ok (mk data crc, rest) := by
  simp [readData, takeData_layout data crc rest h]

theorem readMulti_layout (mk : Half → Half → List Byte → Half → Instr) (address quantity : Half) {data : List Byte}
    (crc : Half) (rest : List Byte) (h : data.length ≤ 255) :
    readMulti mk (hiByte address :: loByte address :: hiByte quantity :: loByte quantity :: countByte data.length ::
      (data ++ loByte crc :: hiByte crc :: rest)) = .ok (mk address quantity data crc, rest) := by
  simp [readMulti, takeMulti, takeData_layout data crc rest h]

/-- A well-formed frame row is read back from its bytes, and what follows them is left (R79). -/
theorem decodeFrame_frameBytes_append {i : Instr} {k : Kind} (hw : WellFormed i = true) (hk : frameKind i = some k)
    (rest : List Byte) : decodeFrame k (frameBytes i ++ rest) = .ok (i, rest) := by
  cases i <;> cases hk
  case qReadCoils | qReadDiscrete | qReadHoldReg | qReadInputReg | qWriteSingleCoil | qWriteSingleReg =>
    exact readTwoFields_layout ..
  case rWriteSingleCoil | rWriteSingleReg | rWriteMultiCoils | rWriteMultiRegs =>
    exact readTwoFields_layout ..
  case qWriteMultiCoils | qWriteMultiRegs =>
    have hl := of_decide_eq_true hw
    simpa [frameBytes, frameKind, encode, layoutMultiQuery, decodeFrame, decodeQuery] using readMulti_layout _ _ _ _ rest hl
  case rReadCoils | rReadDiscrete | rReadHoldReg | rReadInputReg =>
    have hl := of_decide_eq_true hw
    simpa [frameBytes, frameKind, encode, layoutReadResponse, decodeFrame, decodeResponse] using readData_layout _ _ rest hl

/-- At a frame start of its kind, the input that is a well-formed frame row's bytes is that row (log entry 14). -/
theorem decode_execute_frameBytes {i : Instr} {k : Kind} (hw : WellFormed i = true) (hk : frameKind i = some k) :
    decode (some k) (.execute (frameBytes i)) = i := by
  have h := decodeFrame_frameBytes_append hw hk []
  rw [List.append_nil] at h
  simp [decode, decodeExecute, h]

end Sys2Proof

namespace Sys2Proof.Machine

/-! ### One step (00_scope.md R6) -/

/-- With no request the block is idle (60_exceptions.md R228 (c)). -/
theorem step_of_no_request {s : State} (h : s.requests = []) : step s = .next s := by
  simp [step, h]

/-- With a request, the oldest one runs. -/
theorem step_of_request {s : State} {r : Request} {rest : List Request} (h : s.requests = r :: rest) :
    step s = exec (decode (frameMode s) r) { s with requests := rest } := by
  simp [step, h]

/-- Settles O6: the step's two cases, and the decoder reading a frame row back from its bytes. -/
theorem stepRunsTheDecodedRequest : Obligations.StepRunsTheDecodedRequest := by
  refine ⟨fun s => step_of_no_request, fun s r rest => step_of_request, ?_⟩
  intro s i k rest hr hw hk hm
  rw [step_of_request hr, hm, decode_execute_frameBytes hw hk]

/-! ### GEN and the parser's state (00_scope.md R4, 44_generator.md R180) -/

/-- G.GEN with an unrecognized code. -/
theorem generate_of_unrecognized {q : Query} (n : Nat) (s : State) (hc : classify q.function = none) :
    generate q n s = .next ((s.begin.presentQuery q).returns (.generated unknownFunctionResult)) := by
  simp [generate, hc]

/-- Of the state, G.GEN reads OUT alone: from every state with the same OUT it answers with the same query
descriptor, OUT and result, and leaves the rest of that state as it stands. -/
theorem generate_of_same_out {q : Query} {n : Nat} {s s' t : State} (ho : s.out = s'.out)
    (h : generate q n s = .next t) :
    generate q n s' = .next { s' with query := t.query, out := t.out, result := t.result, events := [] } := by
  rcases generate_next h with ⟨hc, rfl⟩ | ⟨hc, hp, body, hb, ⟨hlt, rfl⟩ | ⟨hle, rfl⟩⟩
  · rw [generate_of_unrecognized n s' hc]
    simp [ho, State.returns, State.presentQuery, State.begin]
  · rw [generate_of_too_small s' hc hp hb (by simpa using hlt)]
    simp [ho, State.returns, State.presentQuery, State.begin]
  · rw [generate_of_fits s' hc hp hb (by simpa using hle)]
    simp [ho, State.presentQuery, State.begin]

/-- G.GEN changes nothing but the query descriptor presented, OUT, the result and the events (R180). -/
theorem generate_frame {q : Query} {n : Nat} {s t : State} (h : generate q n s = .next t) :
    t = { s with query := t.query, out := t.out, result := t.result, events := [] } :=
  Host.Outcome.next.inj (h.symm.trans (generate_of_same_out rfl h))

/-- Settles O49: each row of GEN is G.GEN, which reads OUT alone of the state. -/
theorem generatorTouchesNoParserState : Obligations.GeneratorTouchesNoParserState := by
  constructor
  · intro i s t hi h
    obtain ⟨q, n, -, hq⟩ := exec_of_isGen hi
    exact generate_frame (hq s ▸ h)
  · intro i s s' t hi ho h
    obtain ⟨q, n, -, hq⟩ := exec_of_isGen hi
    exact ⟨_, (hq s').trans (generate_of_same_out ho (hq s ▸ h)), rfl, rfl, rfl⟩

end Sys2Proof.Machine

/-! PROOFS. The statements of 10_state.md. -/

namespace Sys2Proof.Machine

/-! ### The numbers of a register read-out (10_state.md R11, R12, R21, R28) -/

/-- Settles O19: each list is the table of its rule, and a read-out shows the numbers of these tables. -/
theorem registerReadOutNumbers : Obligations.RegisterReadOutNumbers :=
  ⟨rfl, rfl, rfl, rfl, fun _ => ⟨rfl, rfl, rfl⟩⟩

/-! ### The state numbers of a multi-write query (10_state.md R24 (a), 42_parser_states.md R136) -/

/-- The block brought up, no hook present, with the descriptor of a query for function 16 at `qty-lo` (log entry 22). -/
def multiWriteAtQtyLo : State :=
  { State.reset with
    d := { Desc.fresh .query (BitVec.zero Config.ctxW) with state := .qtyLo, function := 16#8 },
    initialised := true, hooksReset := true }

theorem multiWriteAtQtyLo_inv : multiWriteAtQtyLo.d.Inv := by
  constructor <;> simp [multiWriteAtQtyLo, Desc.fresh, OnPath, stateCode, classify]

/-- The next byte leads to `byte-count`, whose number is smaller (R136). -/
theorem multiWriteAtQtyLo_pStep :
    ∃ t, exec (.pStep 1#8 5) multiWriteAtQtyLo = .next t ∧ t.d.state = .byteCount := ⟨_, rfl, rfl⟩

/-- Refutes O47: a multi-write query goes from `qty-lo`, number 8, to `byte-count`, number 2. -/
theorem not_stateNumberNeverDecreases : ¬ Obligations.StateNumberNeverDecreases := by
  intro h
  obtain ⟨t, ht, hstate⟩ := multiWriteAtQtyLo_pStep
  have hle : stateCode .qtyLo ≤ stateCode t.d.state := h _ _ _ _ multiWriteAtQtyLo_inv ht
  rw [hstate] at hle
  exact absurd hle (by decide)

/-! ### What a row can do -/

/-- Everything a row can do when it answers next: the operation it runs, and what that operation asked. -/
inductive ExecNext (s : State) : Instr → State → Prop
  | generates {i q n t} (hg : isGen i = true) (he : encode i = .generate q n) (h : generate q n s = .next t) :
      ExecNext s i t
  | consumes {i bs j u} (hf : feedsParser i = true) (he : encode i = .execute bs) (hi : s.initialised = true)
      (h : consume bs 0 (s.startCall bs) = .next (j, u)) : ExecNext s i (u.returns (.consumed j))
  | stepsByte {b n t} (hi : s.initialised = true) (hg : gated s.d = false)
      (h : stepByte b n (s.begin.presentByte n b) = .next t) : ExecNext s (.pStep b n) t
  | updatesCrc (c : Half) (b : Byte) : ExecNext s (.crcUpdate c b) (s.begin.returns (.crc (crcUpdate c b)))
  | computesCrc (bs : List Byte) : ExecNext s (.crcCompute bs) (s.begin.returns (.crc (crc16 bs)))
  | initialises (k : Kind) : ExecNext s (.pInit k) (initialise k s)
  | resets (hi : s.initialised = true) : ExecNext s .pReset (initialise s.d.kind s)
  | resetsHooks : ExecNext s .hReset { s.begin with hookEn := 0#9, hooksReset := true }
  | setsHook {n} (p : Bool) (hn : n < Config.hookCount) :
      ExecNext s (.hSet n p) { s.begin with hookEn := setHookBit s.hookEn n p }
  | writesContext (v : Context) : ExecNext s (.ctxWrite v) (s.begin.setDesc { s.d with userContext := v })

/-- A row that is P.EXEC on some bytes runs its loop. -/
theorem ExecNext.of_execute {i : Instr} {bs : List Byte} {s t : State} (hf : feedsParser i = true)
    (he : encode i = .execute bs) (h : execute bs s = .next t) : ExecNext s i t := by
  obtain ⟨hi, j, u, hu, rfl⟩ := execute_next h
  exact .consumes hf he hi hu

/-- A row of unit GEN is G.GEN on its query descriptor. -/
theorem ExecNext.of_isGen {i : Instr} {s t : State} (hg : isGen i = true) (h : exec i s = .next t) : ExecNext s i t := by
  obtain ⟨q, n, he, hq⟩ := exec_of_isGen hg
  exact .generates hg he (hq s ▸ h)

/-- A row that answers next runs the operation of its rule (20_memory.md R59). -/
theorem exec_next {i : Instr} {s t : State} (h : exec i s = .next t) : ExecNext s i t := by
  cases i
  case gReadCoils | gReadDiscrete | gReadHoldReg | gReadInputReg | gWriteSingleCoil | gWriteSingleReg |
      gWriteMultiCoils | gWriteMultiRegs | gGen => exact .of_isGen rfl h
  case qReadCoils | qReadDiscrete | qReadHoldReg | qReadInputReg | qWriteSingleCoil | qWriteSingleReg |
      qWriteMultiCoils | qWriteMultiRegs => exact .of_execute rfl rfl h
  case rReadCoils | rReadDiscrete | rReadHoldReg | rReadInputReg | rWriteSingleCoil | rWriteSingleReg |
      rWriteMultiCoils | rWriteMultiRegs | pExec => exact .of_execute rfl rfl h
  case pStep b n =>
    obtain ⟨hi, hg, hs⟩ := exec_pStep_next h
    exact .stepsByte hi hg hs
  case crcUpdate c b => cases h; exact .updatesCrc c b
  case crcCompute bs => cases h; exact .computesCrc bs
  case pInit k => cases h; exact .initialises k
  case hReset => cases h; exact .resetsHooks
  case ctxWrite v => cases h; exact .writesContext v
  case pReset =>
    change execPReset s = .next t at h
    unfold execPReset at h
    split at h
    · cases h
    · rename_i hi
      cases h
      exact .resets (by simpa using hi)
  case hSet n p =>
    change execHSet n p s = .next t at h
    unfold execHSet at h
    split at h
    · rename_i hn
      cases h
      exact .setsHook p hn
    · cases h

/-! ### The invariant (10_state.md R14, R18, R23) -/

/-- The descriptor's invariant says nothing of `user_context`. -/
theorem Desc.Inv.writeContext {d : Desc} (h : d.Inv) (v : Context) : Desc.Inv { d with userContext := v } :=
  ⟨h.onPath, h.notYetCounted, h.allCounted, h.window, h.unknownFunction, h.crcMismatch, h.complete⟩

/-- Every row keeps the invariant. -/
theorem exec_inv {i : Instr} {s t : State} (h : exec i s = .next t) (hi : Inv s) : Inv t := by
  obtain ⟨hd, hin, hout⟩ := hi
  cases exec_next h with
  | generates _ _ h =>
    rcases generate_next h with ⟨-, rfl⟩ | ⟨-, -, body, -, ⟨-, rfl⟩ | ⟨-, rfl⟩⟩
    · exact ⟨hd, hin, hout⟩
    · exact ⟨hd, hin, hout⟩
    · exact ⟨hd, hin, Memory.writeFrom_wf _ 0 hout⟩
  | consumes _ _ _ hu =>
    obtain ⟨-, -, -, -, -, ho, hn, -⟩ := (consume_moves hu).fields
    have hdesc := consume_inv hu (by simpa using hd.clearPayload)
    exact ⟨hdesc, hn ▸ Memory.ofBytes_wf _ 0, ho ▸ hout⟩
  | stepsByte _ hg h =>
    obtain ⟨-, -, -, hm⟩ := stepByte_next h
    obtain ⟨-, -, -, -, -, ho, hn, -⟩ := hm.fields
    exact ⟨stepByte_inv h hd hg, hn ▸ Memory.write_wf _ _ hin, ho ▸ hout⟩
  | initialises | resets => exact ⟨.fresh _ _, hin, hout⟩
  | updatesCrc | computesCrc | resetsHooks | setsHook => exact ⟨hd, hin, hout⟩
  | writesContext v => exact ⟨hd.writeContext v, hin, hout⟩

/-- Settles O58: with no request nothing changes, and with one its row keeps the invariant. -/
theorem stepKeepsTheInvariant : Obligations.StepKeepsTheInvariant := by
  intro s t hi h
  cases hr : s.requests with
  | nil =>
    rw [step_of_no_request hr] at h
    cases h
    exact hi
  | cons r rest =>
    rw [step_of_request hr] at h
    exact exec_inv h ⟨hi.desc, hi.input, hi.out⟩

/-! ### Who writes which register (10_state.md R11, R22, R28, R30) -/

/-- No rule of a state writes `kind` or `user_context`. -/
theorem storeByte_keeps_kind_context {b : Byte} {i : Nat} {d : Desc} {st : Stored} (h : storeByte b i d = some st) :
    st.d.kind = d.kind ∧ st.d.userContext = d.userContext := by
  cases hs : d.state with
  | complete => simp [storeByte, hs] at h
  | function =>
    rw [storeByte_function b i d hs] at h
    cases h
    unfold storeFunction
    split <;> simp
  | qtyLo =>
    simp only [storeByte, hs, storeQtyLo, Option.map_eq_some_iff] at h
    obtain ⟨_, -, rfl⟩ := h
    exact ⟨rfl, rfl⟩
  | crcHi =>
    rw [storeByte_crcHi b i d hs] at h
    cases h
    by_cases hm : d.frameCrc ||| highPart b = d.runningCrc
    · simp [storeCrcHi_match b d hm]
    · simp [storeCrcHi_mismatch b d hm]
  | _ =>
    simp only [storeByte, hs, Option.some.injEq] at h
    subst h
    exact ⟨rfl, rfl⟩

theorem stepByte_keeps_kind_context {b : Byte} {i : Nat} {s t : State} (h : stepByte b i s = .next t) :
    t.d.kind = s.d.kind ∧ t.d.userContext = s.d.userContext := by
  obtain ⟨st, hst, hd, -⟩ := stepByte_next h
  have hkeep := storeByte_keeps_kind_context hst
  rcases hd with hd | hd <;> simpa [hd] using hkeep

theorem consume_keeps_kind_context {bs : List Byte} {i j : Nat} {s t : State} (h : consume bs i s = .next (j, t)) :
    t.d.kind = s.d.kind ∧ t.d.userContext = s.d.userContext := by
  refine consume_keeps (P := fun _ u => u.d.kind = s.d.kind ∧ u.d.userContext = s.d.userContext) ?_ ⟨rfl, rfl⟩ h
  intro b n u v hu _ hv
  obtain ⟨hk, hc⟩ := stepByte_keeps_kind_context hv
  exact ⟨hk.trans hu.1, hc.trans hu.2⟩

/-- The parser moving leaves the surroundings of the call as they were. -/
theorem OnlyParserMoved.surroundings {s t : State} (h : OnlyParserMoved s t) : Surroundings s t := by
  obtain ⟨h1, h2, h3, h4, h5, ho, -, -⟩ := h.fields
  exact ⟨h1, h2, h3, h4, h5, fun a => by rw [ho]⟩

/-- Settles O48: by the operation the row runs. A row that gives bytes to PARSER moves only the parser, whose
rules write neither `kind` nor `user_context`; the other operations write the registers they name. -/
theorem registersHaveTheirOwnWriters : Obligations.RegistersHaveTheirOwnWriters := by
  intro i s t h
  cases exec_next h with
  | generates hg _ h =>
    rw [generate_frame h]
    simp [hg, Ready]
  | consumes hf _ _ hu =>
    obtain ⟨hkind, hctx⟩ := consume_keeps_kind_context hu
    obtain ⟨hen, hreset, hinit, hquery, -, hout⟩ := (consume_moves hu).surroundings
    exact ⟨by simp [hctx], by simp [hen], by simp [hkind], fun _ => ⟨hout, hquery⟩, by simp [hf],
      by simp [Ready, hinit, hreset]⟩
  | stepsByte _ _ hs =>
    obtain ⟨hkind, hctx⟩ := stepByte_keeps_kind_context hs
    obtain ⟨-, -, -, hm⟩ := stepByte_next hs
    obtain ⟨hen, hreset, hinit, hquery, -, hout⟩ := hm.surroundings
    exact ⟨by simp [hctx], by simp [hen], by simp [hkind], fun _ => ⟨hout, hquery⟩, by simp [feedsParser],
      by simp [Ready, hinit, hreset]⟩
  | initialises | resets => simp [Ready, SameOut, initialise, Desc.fresh]
  | resetsHooks => simp +contextual [Ready, SameOut]
  | updatesCrc | computesCrc | setsHook | writesContext => simp [Ready, SameOut]

end Sys2Proof.Machine

/-! PROOFS. The statements of 20_memory.md. -/

/-! ### A request is read back as its row (20_memory.md R59, 30_encoding.md R80) -/

namespace Sys2Proof

/-- The function codes of no row (30_encoding.md R63, R75 (a)). -/
theorem classify_eq_none_iff (f : Byte) : classify f = none ↔ f.toNat ∉ [1, 2, 3, 4, 5, 6, 15, 16] := by
  unfold classify
  split <;> simp_all

/-- A G.GEN whose function code is that of no row is read as itself. -/
theorem decodeGenerate_of_unrecognized {q : Query} (n : Nat) (hc : classify q.function = none) :
    decodeGenerate q n = .gGen q n := by
  have hf := (classify_eq_none_iff q.function).mp hc
  unfold decodeGenerate
  split <;> simp_all

/-- Settles O3: the request of each row keeps its operands, and the function code of a G row selects that row. -/
theorem operationDecodesToItsRow : Obligations.OperationDecodesToItsRow := by
  refine ⟨?_, fun q n _ hc => decodeGenerate_of_unrecognized n hc, fun _ => rfl⟩
  intro i mode hk hexec hgen
  cases i
  case pExec bs => exact absurd rfl (hexec bs)
  case gGen q n => exact absurd rfl (hgen q n)
  case gReadCoils | gReadDiscrete | gReadHoldReg | gReadInputReg | gWriteSingleCoil | gWriteSingleReg |
      gWriteMultiCoils | gWriteMultiRegs => rfl
  case crcUpdate | crcCompute | pInit | pReset | hReset | hSet | ctxWrite | pStep => rfl
  all_goals cases hk

end Sys2Proof

namespace Sys2Proof.Machine

/-! ### Descriptors that differ in the window alone (42_parser_states.md R144) -/

theorem sameButPayload_iff {d e : Desc} : SameButPayload e d ↔ ∃ p, e = { d with payload := p } := by
  constructor
  · intro h
    exact ⟨e.payload, by rw [← h]⟩
  · rintro ⟨p, rfl⟩
    rfl

theorem SameButPayload.withPayload (d : Desc) (p : Payload) : SameButPayload { d with payload := p } d := rfl

theorem SameButPayload.raise {d e : Desc} (h : SameButPayload e d) (k : ErrorKind) :
    SameButPayload (e.raise k) (d.raise k) := by
  obtain ⟨p, rfl⟩ := sameButPayload_iff.mp h
  by_cases he : d.error = .none <;> simp [Desc.raise, he, SameButPayload]

theorem SameButPayload.advance {d e : Desc} (h : SameButPayload e d) (t : ParserState) :
    SameButPayload (e.advance t) (d.advance t) := by
  obtain ⟨p, rfl⟩ := sameButPayload_iff.mp h
  rfl

theorem SameButPayload.checksum {d e : Desc} (h : SameButPayload e d) (b : Byte) :
    SameButPayload (e.checksum b) (d.checksum b) := by
  obtain ⟨p, rfl⟩ := sameButPayload_iff.mp h
  by_cases hc : d.state = .crcLo ∨ d.state = .crcHi <;> simp [Desc.checksum, inCrcState, hc, SameButPayload]

theorem SameButPayload.gated {d e : Desc} (h : SameButPayload e d) : gated e = gated d := by
  obtain ⟨p, rfl⟩ := sameButPayload_iff.mp h
  rfl

/-- No rule of a state reads the window or the input index, but to write the window. -/
theorem SameButPayload.storeByte {d e : Desc} {b : Byte} {i : Nat} {st : Stored} (k : Nat) (h : SameButPayload e d)
    (hst : storeByte b i d = some st) :
    ∃ st', storeByte b k e = some st' ∧ SameButPayload st'.d st.d ∧ st'.hooks = st.hooks ∧ st'.next = st.next := by
  obtain ⟨p, he⟩ := sameButPayload_iff.mp h
  have hstate : e.state = d.state := by rw [he]
  cases hs : d.state with
  | complete => simp [Machine.storeByte, hs] at hst
  | function =>
    rw [storeByte_function b i d hs] at hst
    cases hst
    refine ⟨_, storeByte_function b k e (hstate.trans hs), ?_⟩
    subst he
    unfold storeFunction
    split
    · exact ⟨rfl, rfl, rfl⟩
    · exact ⟨(SameButPayload.withPayload { d with function := b } p).raise _, rfl, rfl⟩
  | qtyLo =>
    simp only [Machine.storeByte, hs] at hst
    simp only [storeQtyLo, Option.map_eq_some_iff] at hst
    obtain ⟨t, ht, rfl⟩ := hst
    refine ⟨_, storeByte_qtyLo b k e (hstate.trans hs) (by rw [he]; exact ht), ?_⟩
    subst he
    exact ⟨rfl, rfl, rfl⟩
  | crcHi =>
    rw [storeByte_crcHi b i d hs] at hst
    cases hst
    refine ⟨_, storeByte_crcHi b k e (hstate.trans hs), ?_⟩
    subst he
    by_cases hm : d.frameCrc ||| highPart b = d.runningCrc
    · rw [storeCrcHi_match b d hm, storeCrcHi_match b { d with payload := p } hm]
      exact ⟨rfl, rfl, rfl⟩
    · rw [storeCrcHi_mismatch b d hm, storeCrcHi_mismatch b { d with payload := p } hm]
      exact ⟨(SameButPayload.withPayload { d with frameCrc := d.frameCrc ||| highPart b } p).raise _, rfl, rfl⟩
  | _ =>
    simp only [Machine.storeByte, hstate, hs, Option.some.injEq] at hst ⊢
    subst hst he
    exact ⟨_, rfl, rfl, rfl, rfl⟩

/-! ### A call in two pieces and the same call in one (42_parser_states.md R144) -/

/-- The same hook, with the same snapshot but for the window. -/
def SameEvent (e e' : Event) : Prop := e.hook = e'.hook ∧ SameButPayload e.snapshot e'.snapshot

/-- `v` is `u` but for the window, IN and the result, with the events `before` made before those of `u`. -/
def Continues (before : List Event) (u v : State) : Prop :=
  ∃ (p : Payload) (m : Memory) (r : Result) (evs : List Event), List.Forall₂ SameEvent evs (before ++ u.events) ∧
    v = { u with d := { u.d with payload := p }, input := m, result := r, events := evs }

theorem Continues.desc {before : List Event} {u v : State} (h : Continues before u v) : SameButPayload v.d u.d := by
  obtain ⟨p, m, r, evs, -, rfl⟩ := h
  rfl

theorem Continues.events {before : List Event} {u v : State} (h : Continues before u v) :
    List.Forall₂ SameEvent v.events (before ++ u.events) := by
  obtain ⟨p, m, r, evs, he, rfl⟩ := h
  exact he

theorem Continues.fields {before : List Event} {u v : State} (h : Continues before u v) :
    v.hooksReset = u.hooksReset ∧ v.hookEn = u.hookEn ∧ (∀ n, replyAt v n = replyAt u n) ∧ SameReplies u v ∧
      Surroundings u v := by
  obtain ⟨p, m, r, evs, -, rfl⟩ := h
  exact ⟨rfl, rfl, fun _ => rfl, ⟨rfl, rfl⟩, rfl, rfl, rfl, rfl, rfl, fun _ => rfl⟩

theorem Continues.setDesc {before : List Event} {u v : State} {d e : Desc} (h : Continues before u v)
    (hd : SameButPayload e d) : Continues before (u.setDesc d) (v.setDesc e) := by
  obtain ⟨p, m, r, evs, he, rfl⟩ := h
  obtain ⟨p', rfl⟩ := sameButPayload_iff.mp hd
  exact ⟨p', m, r, evs, he, rfl⟩

/-- Both make the same event and use the same reply. -/
theorem Continues.emit {before : List Event} {u v : State} (h : Continues before u v) (k : Hook) :
    Continues before (u.emit k).afterReply (v.emit k).afterReply := by
  obtain ⟨p, m, r, evs, he, rfl⟩ := h
  refine ⟨p, m, r, evs ++ [{ hook := k, snapshot := { u.d with payload := p } }], ?_, ?_⟩
  · have hk : SameEvent { hook := k, snapshot := { u.d with payload := p } } { hook := k, snapshot := u.d } := ⟨rfl, rfl⟩
    simpa [List.append_assoc] using List.rel_append he (.cons hk .nil)
  · cases hr : u.replies <;> simp [State.afterReply, State.emit, hr]

/-- The hook phase goes the same way in both. -/
theorem Continues.fireHooks {hs : List Hook} {before : List Event} {u v u' : State} (h : Continues before u v)
    (hu : fireHooks hs u = .next u') : ∃ v', fireHooks hs v = .next v' ∧ Continues before u' v' := by
  induction hs generalizing u v with
  | nil => cases hu; exact ⟨v, rfl, h⟩
  | cons k rest ih =>
    obtain ⟨hreset, hen, hreply, -⟩ := h.fields
    cases hr : u.hooksReset with
    | false => simp [Machine.fireHooks, hr] at hu
    | true =>
      have hr' := hreset.trans hr
      cases hp : hookPresent u.hookEn k with
      | false =>
        rw [fireHooks_absent k rest u hr hp] at hu
        rw [fireHooks_absent k rest v hr' (hen ▸ hp)]
        exact ih h hu
      | true =>
        have hp' : hookPresent v.hookEn k = true := hen ▸ hp
        cases hk : replyAt u 0 with
        | ok =>
          rw [fireHooks_ok k rest u hr hp hk] at hu
          rw [fireHooks_ok k rest v hr' hp' ((hreply 0).trans hk)]
          exact ih (h.emit k) hu
        | fail =>
          rw [fireHooks_fail k rest u hr hp hk] at hu
          cases hu
          exact ⟨_, fireHooks_fail k rest v hr' hp' ((hreply 0).trans hk), (h.emit k).setDesc (h.desc.raise _)⟩

/-- One byte goes the same way in both, whatever its index in either. -/
theorem Continues.stepByte {b : Byte} {i : Nat} {before : List Event} {u v u' : State} (k : Nat)
    (h : Continues before u v) (hu : stepByte b i u = .next u') :
    ∃ v', stepByte b k v = .next v' ∧ Continues before u' v' := by
  obtain ⟨st, w, hst, hw, rfl⟩ := stepByte_parts hu
  obtain ⟨st', hst', hd, hhooks, hnext⟩ := (h.desc.checksum b).storeByte k hst
  obtain ⟨w', hw', hc⟩ := (h.setDesc hd).fireHooks hw
  refine ⟨w'.setDesc (w'.d.advance st.next), ?_, hc.setDesc (hc.desc.advance _)⟩
  simp [Machine.stepByte, hst', hhooks, hnext, hw']

/-- The loop goes the same way in both and consumes as many bytes, whatever the index it starts from in either. -/
theorem Continues.consume {bs : List Byte} {i j : Nat} {before : List Event} {u v u' : State} (k : Nat)
    (h : Continues before u v) (hu : consume bs i u = .next (j, u')) :
    ∃ l v', consume bs k v = .next (l, v') ∧ l + i = k + j ∧ Continues before u' v' := by
  induction bs generalizing i k u v with
  | nil => cases hu; exact ⟨k, v, rfl, rfl, h⟩
  | cons b rest ih =>
    have hgated : gated v.d = gated u.d := h.desc.gated
    cases hg : gated u.d with
    | true =>
      rw [consume_gated _ _ _ hg] at hu
      cases hu
      exact ⟨k, v, consume_gated _ _ _ (hgated.trans hg), rfl, h⟩
    | false =>
      rw [consume_cons _ _ _ _ hg, andThen_eq_next] at hu
      obtain ⟨w, hw, hu⟩ := hu
      obtain ⟨x, hx, hwx⟩ := h.stepByte k hw
      obtain ⟨l, v', hv', hl, hc⟩ := ih (k + 1) hwx hu
      refine ⟨l, v', ?_, by omega, hc⟩
      rw [consume_cons _ _ _ _ (hgated.trans hg), hx]
      exact hv'

/-- The calls on a first piece and on the whole start alike. -/
theorem Continues.startCall (s : State) (a bs : List Byte) : Continues [] (s.startCall a) (s.startCall bs) :=
  ⟨_, _, _, [], .nil, rfl⟩

/-- The call on the second piece starts where the call on the whole stands after the first. -/
theorem Continues.startNext {u v : State} (h : Continues [] u v) (r : Result) (b : List Byte) :
    Continues (u.returns r).events ((u.returns r).startCall b) v := by
  obtain ⟨p, m, r', evs, he, rfl⟩ := h
  exact ⟨p, m, r', evs, by simpa using he, rfl⟩

theorem Continues.returns {before : List Event} {u v : State} (h : Continues before u v) (r r' : Result) :
    Continues before (u.returns r) (v.returns r') := by
  obtain ⟨p, m, -, evs, he, rfl⟩ := h
  exact ⟨p, m, r', evs, he, rfl⟩

/-- Two calls of P.EXEC that answer next are one call on both inputs (R144). -/
theorem execute_append {a b : List Byte} {s t u : State} (ht : execute a s = .next t) (hu : execute b t = .next u) :
    ∃ m n v, t.result = .consumed m ∧ u.result = .consumed n ∧ execute (a ++ b) s = .next v ∧
      v.result = .consumed (m + n) ∧ Continues t.events u v := by
  obtain ⟨hi, m, t', hm, rfl⟩ := execute_next ht
  obtain ⟨-, n, u', hn, rfl⟩ := execute_next hu
  obtain ⟨m', v₁, hv₁, hm', h₁⟩ := (Continues.startCall s a (a ++ b)).consume 0 hm
  obtain ⟨l, v, hv, hl, h₂⟩ := (h₁.startNext (.consumed m) b).consume m hn
  have hwhole : Machine.consume (a ++ b) 0 (s.startCall (a ++ b)) = .next (m + n, v) := by
    obtain rfl : m' = m := by omega
    obtain rfl : l = m' + n := by omega
    rw [consume_append, hv₁]
    exact hv
  exact ⟨m, n, _, rfl, rfl, execute_of_consume hi hwhole, rfl, h₂.returns _ _⟩

/-! ### Several instances (20_memory.md R58, 60_exceptions.md R226) -/

/-- Where there is a state at `j`, it is the one set there. -/
theorem Instances.getElem?_set_self {sys : Instances} {j : Nat} {s : State} (h : sys[j]? = some s) (t : State) :
    (sys.set j t)[j]? = some t := by
  rw [List.getElem?_set_self']
  simp [h]

/-- An operation leaves the other instances as they were. -/
theorem Instances.run_others {sys t : Instances} {j l : Nat} {i : Instr} (h : sys.run j i = some (.next t)) (hl : l ≠ j) :
    t[l]? = sys[l]? := by
  obtain ⟨s, u, -, -, rfl⟩ := Instances.run_eq_next.mp h
  exact List.getElem?_set_ne (Ne.symm hl)

/-- Operations on two instances give the same in either order. -/
theorem Instances.run_comm {sys a b : Instances} {j k : Nat} {i e : Instr} (hjk : j ≠ k)
    (ha : sys.run j i = some (.next a)) (hb : Instances.run a k e = some (.next b)) :
    ∃ c : Instances, sys.run k e = some (.next c) ∧ c.run j i = some (.next b) := by
  have hk : a[k]? = sys[k]? := Instances.run_others ha (Ne.symm hjk)
  obtain ⟨s, u, hs, hu, rfl⟩ := Instances.run_eq_next.mp ha
  obtain ⟨t, v, ht, hv, rfl⟩ := Instances.run_eq_next.mp hb
  refine ⟨sys.set k v, Instances.run_eq_next.mpr ⟨t, v, hk ▸ ht, hv, rfl⟩, ?_⟩
  refine Instances.run_eq_next.mpr ⟨s, u, ?_, hu, List.set_comm _ _ hjk⟩
  rw [List.getElem?_set_ne (Ne.symm hjk), hs]

/-- Settles O60: the operations on other instances go the same way whatever state stands at `j`, so the two calls
there follow one another, and are one call on both pieces. -/
theorem instancesAreIndependent : Obligations.InstancesAreIndependent := by
  refine ⟨?_, fun sys a b j k i e hjk ha hb => ⟨fun l hl => Instances.run_others ha hl, Instances.run_comm hjk ha hb⟩⟩
  intro sys s₁ s₂ s₃ j a b ops hops h₁ h₂ h₃
  obtain ⟨s, t, hs, ht, rfl⟩ := Instances.run_eq_next.mp h₁
  have ht₁ := Instances.getElem?_set_self hs t
  have ht₂ : s₂[j]? = some t := (Instances.runAll_set t hops h₂).2.trans ht₁
  obtain ⟨t', u, ht', hu, rfl⟩ := Instances.run_eq_next.mp h₃
  obtain rfl : t' = t := Option.some.inj (ht'.symm.trans ht₂)
  obtain ⟨m, n, v, hm, hn, hv, hmn, hc⟩ := execute_append ht hu
  have hall := (Instances.runAll_set v hops h₂).1
  rw [List.set_set] at hall
  obtain ⟨-, -, -, hreplies, hsur⟩ := hc.fields
  refine ⟨sys.set j v, s₂.set j v, Instances.run_eq_next.mpr ⟨s, v, hs, hv, rfl⟩, hall, ?_, t', u, v, m, n, ht₁,
    Instances.getElem?_set_self ht₂ u, Instances.getElem?_set_self ht₂ v, hm, hn, hmn, hc.desc, hc.events, hreplies, hsur⟩
  intro l hl
  rw [List.getElem?_set_ne (Ne.symm hl), List.getElem?_set_ne (Ne.symm hl)]

end Sys2Proof.Machine

/-! PROOFS. The statements of 30_encoding.md. -/

namespace Sys2Proof

/-! ### The frame decoder reads each format (30_encoding.md R64 to R69, R79) -/

/-- Settles O2: for each row, the reader of its format gives the fields back. -/
theorem frameDecodesToItsRow : Obligations.FrameDecodesToItsRow :=
  fun _ _ rest hw hk => decodeFrame_frameBytes_append hw hk rest

/-- Settles O1: the decoder evaluated on each sequence. -/
theorem specFramesDecodeAsLaidOut : Obligations.SpecFramesDecodeAsLaidOut := ⟨rfl, rfl, rfl, rfl, rfl, rfl⟩

/-! ### What the readers of the formats read (30_encoding.md R64 to R69) -/

/-- What two 16-bit fields and the CRC are read from (R64, R65, R69). -/
theorem takeTwoFields_eq_ok {bs rest : List Byte} {field1 field2 crc : Half}
    (h : takeTwoFields bs = .ok ((field1, field2, crc), rest)) :
    bs = hiByte field1 :: loByte field1 :: hiByte field2 :: loByte field2 :: loByte crc :: hiByte crc :: rest := by
  unfold takeTwoFields at h
  split at h
  · cases h; simp
  · cases h

/-- What a byte count, the data it counts and the CRC are read from (R66, R67). -/
theorem takeData_eq_ok {bs data rest : List Byte} {crc : Half} (h : takeData bs = .ok ((data, crc), rest)) :
    data.length ≤ 255 ∧ bs = countByte data.length :: (data ++ loByte crc :: hiByte crc :: rest) := by
  cases bs with
  | nil => cases h
  | cons n tail =>
    simp only [takeData] at h
    split at h
    case isFalse => cases h
    case isTrue hn =>
      split at h
      case h_2 => cases h
      case h_1 cl ch after hdrop =>
        cases h
        have hlen : (tail.take n.toNat).length = n.toNat := List.length_take_of_le hn
        have hmax := n.isLt
        refine ⟨by omega, ?_⟩
        rw [hlen, countByte_of_toNat, loByte_joinBytes, hiByte_joinBytes, ← hdrop, List.take_append_drop]

/-- What an address, a quantity, the data and the CRC are read from (R66). -/
theorem takeMulti_eq_ok {bs data rest : List Byte} {address quantity crc : Half}
    (h : takeMulti bs = .ok ((address, quantity, data, crc), rest)) :
    data.length ≤ 255 ∧ bs = hiByte address :: loByte address :: hiByte quantity :: loByte quantity ::
      countByte data.length :: (data ++ loByte crc :: hiByte crc :: rest) := by
  unfold takeMulti at h
  split at h
  case h_2 => cases h
  case h_1 tail =>
    split at h
    case h_2 => cases h
    case h_1 hd =>
      cases h
      obtain ⟨hl, rfl⟩ := takeData_eq_ok hd
      exact ⟨hl, by simp⟩

/-! ### A row that was read is the row of the bytes (30_encoding.md R79) -/

/-- `bs` is the frame of the well-formed row `i` of kind `k`, followed by `rest`. -/
def IsFrameThen (k : Kind) (i : Instr) (rest bs : List Byte) : Prop :=
  WellFormed i = true ∧ frameKind i = some k ∧ bs = frameBytes i ++ rest

section
variable {k : Kind} {slave f c : Byte} {bs rest : List Byte} {i : Instr}

/-- A format of two fields and the CRC, read as the row whose code is the function byte. -/
theorem isFrameThen_of_readTwoFields {mk : Half → Half → Half → Instr} (hf : f.toNat = c.toNat)
    (hmk : ∀ a b crc, WellFormed (mk a b crc) = true ∧ frameKind (mk a b crc) = some k ∧
      frameBytes (mk a b crc) = layoutTwoFields slave c a b crc)
    (h : readTwoFields mk bs = .ok (i, rest)) : IsFrameThen k i rest (slave :: f :: bs) := by
  unfold readTwoFields at h
  split at h
  case h_2 => cases h
  case h_1 a b crc rest' ht =>
    cases h
    obtain ⟨hw, hk, hbytes⟩ := hmk a b crc
    refine ⟨hw, hk, ?_⟩
    rw [hbytes, takeTwoFields_eq_ok ht, BitVec.eq_of_toNat_eq hf]
    rfl

/-- A format of data and the CRC, read as the row whose code is the function byte. -/
theorem isFrameThen_of_readData {mk : List Byte → Half → Instr} (hf : f.toNat = c.toNat)
    (hmk : ∀ data crc, WellFormed (mk data crc) = dataFits data ∧ frameKind (mk data crc) = some k ∧
      frameBytes (mk data crc) = layoutReadResponse slave c data crc)
    (h : readData mk bs = .ok (i, rest)) : IsFrameThen k i rest (slave :: f :: bs) := by
  unfold readData at h
  split at h
  case h_2 => cases h
  case h_1 data crc rest' ht =>
    cases h
    obtain ⟨hl, rfl⟩ := takeData_eq_ok ht
    obtain ⟨hw, hk, hbytes⟩ := hmk data crc
    refine ⟨hw.trans (decide_eq_true hl), hk, ?_⟩
    simp [hbytes, layoutReadResponse, BitVec.eq_of_toNat_eq hf]

/-- A format of address, quantity, data and the CRC, read as the row whose code is the function byte. -/
theorem isFrameThen_of_readMulti {mk : Half → Half → List Byte → Half → Instr} (hf : f.toNat = c.toNat)
    (hmk : ∀ a q data crc, WellFormed (mk a q data crc) = dataFits data ∧ frameKind (mk a q data crc) = some k ∧
      frameBytes (mk a q data crc) = layoutMultiQuery slave c a q data crc)
    (h : readMulti mk bs = .ok (i, rest)) : IsFrameThen k i rest (slave :: f :: bs) := by
  unfold readMulti at h
  split at h
  case h_2 => cases h
  case h_1 a q data crc rest' ht =>
    cases h
    obtain ⟨hl, rfl⟩ := takeMulti_eq_ok ht
    obtain ⟨hw, hk, hbytes⟩ := hmk a q data crc
    refine ⟨hw.trans (decide_eq_true hl), hk, ?_⟩
    simp [hbytes, layoutMultiQuery, BitVec.eq_of_toNat_eq hf]

/-- The query rows, one for each recognized code. -/
theorem isFrameThen_of_decodeQuery (h : decodeQuery slave f bs = .ok (i, rest)) :
    IsFrameThen .query i rest (slave :: f :: bs) := by
  unfold decodeQuery at h
  split at h
  case h_1 hf => exact isFrameThen_of_readTwoFields (c := 0x01) hf (fun _ _ _ => ⟨rfl, rfl, rfl⟩) h
  case h_2 hf => exact isFrameThen_of_readTwoFields (c := 0x02) hf (fun _ _ _ => ⟨rfl, rfl, rfl⟩) h
  case h_3 hf => exact isFrameThen_of_readTwoFields (c := 0x03) hf (fun _ _ _ => ⟨rfl, rfl, rfl⟩) h
  case h_4 hf => exact isFrameThen_of_readTwoFields (c := 0x04) hf (fun _ _ _ => ⟨rfl, rfl, rfl⟩) h
  case h_5 hf => exact isFrameThen_of_readTwoFields (c := 0x05) hf (fun _ _ _ => ⟨rfl, rfl, rfl⟩) h
  case h_6 hf => exact isFrameThen_of_readTwoFields (c := 0x06) hf (fun _ _ _ => ⟨rfl, rfl, rfl⟩) h
  case h_7 hf => exact isFrameThen_of_readMulti (c := 0x0F) hf (fun _ _ _ _ => ⟨rfl, rfl, rfl⟩) h
  case h_8 hf => exact isFrameThen_of_readMulti (c := 0x10) hf (fun _ _ _ _ => ⟨rfl, rfl, rfl⟩) h
  case h_9 => cases h

/-- The response rows, one for each recognized code. -/
theorem isFrameThen_of_decodeResponse (h : decodeResponse slave f bs = .ok (i, rest)) :
    IsFrameThen .response i rest (slave :: f :: bs) := by
  unfold decodeResponse at h
  split at h
  case h_1 hf => exact isFrameThen_of_readData (c := 0x01) hf (fun _ _ => ⟨rfl, rfl, rfl⟩) h
  case h_2 hf => exact isFrameThen_of_readData (c := 0x02) hf (fun _ _ => ⟨rfl, rfl, rfl⟩) h
  case h_3 hf => exact isFrameThen_of_readData (c := 0x03) hf (fun _ _ => ⟨rfl, rfl, rfl⟩) h
  case h_4 hf => exact isFrameThen_of_readData (c := 0x04) hf (fun _ _ => ⟨rfl, rfl, rfl⟩) h
  case h_5 hf => exact isFrameThen_of_readTwoFields (c := 0x05) hf (fun _ _ _ => ⟨rfl, rfl, rfl⟩) h
  case h_6 hf => exact isFrameThen_of_readTwoFields (c := 0x06) hf (fun _ _ _ => ⟨rfl, rfl, rfl⟩) h
  case h_7 hf => exact isFrameThen_of_readTwoFields (c := 0x0F) hf (fun _ _ _ => ⟨rfl, rfl, rfl⟩) h
  case h_8 hf => exact isFrameThen_of_readTwoFields (c := 0x10) hf (fun _ _ _ => ⟨rfl, rfl, rfl⟩) h
  case h_9 => cases h

end

/-- Settles O4: by the kind, the reader of each code's format gives back only what it was laid out as. -/
theorem decodedRowIsItsFrame : Obligations.DecodedRowIsItsFrame := by
  intro k bs rest i h
  match bs, k, h with
  | [], _, h => cases h
  | [_], _, h => cases h
  | _ :: _ :: _, .query, h => exact isFrameThen_of_decodeQuery h
  | _ :: _ :: _, .response, h => exact isFrameThen_of_decodeResponse h

/-! ### The function codes of no frame (30_encoding.md R63, R75 (a)) -/

theorem decodeQuery_of_unrecognized {f : Byte} (slave : Byte) (bs : List Byte) (hc : classify f = none) :
    decodeQuery slave f bs = .error .unknownFunction := by
  have hf := (classify_eq_none_iff f).mp hc
  unfold decodeQuery
  split <;> simp_all

theorem decodeResponse_of_unrecognized {f : Byte} (slave : Byte) (bs : List Byte) (hc : classify f = none) :
    decodeResponse slave f bs = .error .unknownFunction := by
  have hf := (classify_eq_none_iff f).mp hc
  unfold decodeResponse
  split <;> simp_all

/-- Settles O7: each kind has a row for the eight codes of R63 and for no other. -/
theorem unrecognizedCodesAreNoFrame : Obligations.UnrecognizedCodesAreNoFrame := by
  refine ⟨classify_eq_none_iff, fun k slave f tail hc => ?_⟩
  cases k with
  | query => exact decodeQuery_of_unrecognized slave tail hc
  | response => exact decodeResponse_of_unrecognized slave tail hc

/-! ### The length of each format (30_encoding.md R70) -/

@[simp] theorem layoutTwoFields_length (slave f : Byte) (field1 field2 crc : Half) :
    (layoutTwoFields slave f field1 field2 crc).length = 8 := rfl

@[simp] theorem layoutMultiQuery_length (slave f : Byte) (address quantity : Half) (data : List Byte) (crc : Half) :
    (layoutMultiQuery slave f address quantity data crc).length = 9 + data.length := by
  simp only [layoutMultiQuery, List.length_append, List.length_cons, List.length_nil]
  omega

@[simp] theorem layoutReadResponse_length (slave f : Byte) (data : List Byte) (crc : Half) :
    (layoutReadResponse slave f data crc).length = 5 + data.length := by
  simp only [layoutReadResponse, List.length_append, List.length_cons, List.length_nil]
  omega

/-- The shortest frame is a read response without data, the longest a multi-write query with 255 data bytes. -/
theorem frameBytes_length_bounds {i : Instr} {k : Kind} (hw : WellFormed i = true) (hk : frameKind i = some k) :
    5 ≤ (frameBytes i).length ∧ (frameBytes i).length ≤ 264 := by
  cases i <;> cases hk
  case qReadCoils | qReadDiscrete | qReadHoldReg | qReadInputReg | qWriteSingleCoil | qWriteSingleReg =>
    simp [frameBytes, frameKind, encode]
  case rWriteSingleCoil | rWriteSingleReg | rWriteMultiCoils | rWriteMultiRegs =>
    simp [frameBytes, frameKind, encode]
  case qWriteMultiCoils | qWriteMultiRegs | rReadCoils | rReadDiscrete | rReadHoldReg | rReadInputReg =>
    have hl := of_decide_eq_true hw
    simp only [frameBytes, frameKind, encode, layoutMultiQuery_length, layoutReadResponse_length]
    omega

/-- Settles O8: a row's bytes are its format, and a data region that fits has at most 255 bytes. -/
theorem frameLengths : Obligations.FrameLengths := by
  refine ⟨?_, ?_, ?_, fun _ _ => frameBytes_length_bounds⟩
  · exact fun _ _ _ _ => ⟨rfl, rfl, rfl, rfl, rfl, rfl, rfl, rfl, rfl, rfl⟩
  · exact fun _ _ _ _ _ => ⟨layoutMultiQuery_length .., layoutMultiQuery_length ..⟩
  · exact fun _ _ _ => ⟨layoutReadResponse_length .., layoutReadResponse_length .., layoutReadResponse_length ..,
      layoutReadResponse_length ..⟩

end Sys2Proof

namespace Sys2Proof.Machine

/-! ### A call with one byte (30_encoding.md R78 (b), 42_parser_states.md R120) -/

/-- The loop over one byte is P.STEP's four phases of it. -/
theorem consume_singleton {b : Byte} {i j : Nat} {s t : State} (hg : gated s.d = false) :
    consume [b] i s = .next (j, t) ↔ j = i + 1 ∧ stepByte b i s = .next t := by
  rw [consume_cons b [] i s hg, andThen_eq_next]
  constructor
  · rintro ⟨u, hu, h⟩
    cases h
    exact ⟨rfl, hu⟩
  · rintro ⟨rfl, ht⟩
    exact ⟨t, ht, rfl⟩

/-- A byte returns nothing of itself: the result is P.EXEC's (R143). -/
theorem stepByte_keeps_result {b : Byte} {i : Nat} {s t : State} (h : stepByte b i s = .next t) : t.result = s.result := by
  obtain ⟨-, -, -, hm⟩ := stepByte_next h
  obtain ⟨-, -, -, -, -, -, -, hr⟩ := hm.fields
  exact hr

/-- States that return alike and are the same but for what they return are the same. -/
theorem State.eq_of_returns_eq {s t : State} {r : Result} (h : s.returns r = t.returns r) (hr : s.result = t.result) :
    s = t :=
  calc s = (s.returns r).returns s.result := rfl
    _ = (t.returns r).returns t.result := by rw [h, hr]
    _ = t := rfl

/-- P.STEP of a byte at index 0, with the window cleared and IN empty, steps from where a call on that byte starts. -/
theorem exec_pStep_window_cleared (b : Byte) {s : State} (hi : s.initialised = true) (hg : gated s.d = false) :
    exec (.pStep b 0) { s with d := s.d.clearPayload, input := [] } = stepByte b 0 (s.startCall [b]) :=
  exec_pStep_of_ready (s := { s with d := s.d.clearPayload, input := [] }) hi hg

/-- Settles O34: the state P.STEP is issued in is, with the byte presented, the one the loop of P.EXEC starts in. -/
theorem execOfOneByteIsOneStep : Obligations.ExecOfOneByteIsOneStep := by
  intro b s t herr hne
  have hg : gated (s.startCall [b]).d = false := not_gated herr hne
  constructor
  · rintro ⟨h, ht⟩
    obtain ⟨hi, j, u, hu, hret⟩ := execute_next h
    obtain ⟨rfl, hb⟩ := (consume_singleton hg).mp hu
    obtain rfl : t = u := State.eq_of_returns_eq hret (ht.trans (stepByte_keeps_result hb).symm)
    exact (exec_pStep_window_cleared b hi hg).trans hb
  · intro h
    obtain ⟨hi, -, hb⟩ := exec_pStep_next h
    exact ⟨execute_of_consume hi ((consume_singleton hg).mpr ⟨rfl, hb⟩), stepByte_keeps_result hb⟩

end Sys2Proof.Machine

/-! PROOFS. The statements of 40_crc.md. -/

namespace Sys2Proof.Machine

/-! ### The two rows of CRCU (40_crc.md R100, R101, R106) -/

@[simp] theorem exec_crcUpdate (c : Half) (b : Byte) (s : State) :
    exec (.crcUpdate c b) s = .next { s with events := [], result := .crc (crcUpdate c b) } := rfl

@[simp] theorem exec_crcCompute (bs : List Byte) (s : State) :
    exec (.crcCompute bs) s = .next { s with events := [], result := .crc (crc16 bs) } := rfl

/-! ### The update (40_crc.md R100, R104) -/

theorem crcShifts_eq_iterate (n : Nat) (x : Half) : crcShifts n x = crcShift^[n] x := by
  induction n generalizing x with
  | zero => rfl
  | succ n ih => exact ih (crcShift x)

/-- The shifts are linear, and so is putting the byte into the low byte of `c` (R104). -/
theorem crcUpdate_xor (c c' : Half) (b b' : Byte) :
    crcUpdate (c ^^^ c') (b ^^^ b') = crcUpdate c b ^^^ crcUpdate c' b' := by
  simp only [crcUpdate, ← crcShifts_xor, BitVec.setWidth_xor]
  ac_rfl

/-- The exclusive or clears the low byte, so no shift sees a 1 in bit 0 (R100, corner cases). -/
theorem crcUpdate_loByte (c : Half) : crcUpdate c (loByte c) = c >>> 8 := by
  have hlow : ∀ i < 8, (c ^^^ (loByte c).setWidth 16).getLsbD i = false := by
    intro i hi
    simp [loByte, hi, show i < 16 by omega]
  have hhigh : (loByte c).setWidth 16 >>> 8 = 0 := by
    ext i hi
    simp [loByte]
  rw [crcUpdate, crcShifts_of_low_clear 8 _ hlow, BitVec.ushiftRight_xor_distrib, hhigh]
  exact BitVec.xor_zero

theorem loByte_eq_setWidth (c : Half) : loByte c = c.setWidth 8 := (BitVec.setWidth_eq_extractLsb' (by decide)).symm

/-- Settles O9: the row returns `crcUpdate`, which is the iterate of one shift, with its two corner cases. -/
theorem crcUpdateIsEightShifts : Obligations.CrcUpdateIsEightShifts := by
  have hself (c : Half) (s : State) :
      exec (.crcUpdate c (c.setWidth 8)) s = .next { s with events := [], result := .crc (c >>> 8) } := by
    rw [exec_crcUpdate, ← loByte_eq_setWidth, crcUpdate_loByte]
  refine ⟨fun c b s => ?_, hself, hself 0⟩
  rw [exec_crcUpdate, crcUpdate, crcShifts_eq_iterate]
  rfl

/-- The check value (R104), by evaluating the 72 shifts. -/
theorem crc16_check_value : crc16 [0x31, 0x32, 0x33, 0x34, 0x35, 0x36, 0x37, 0x38, 0x39] = 0x4B37#16 := by
  simp [crc16, crcFold, crcUpdate, crcShifts, crcShift, Config.crcSeed, Config.crcPoly]

/-- Settles O12: linearity from that of the shifts, and the check value. -/
theorem crcUpdateIsLinear : Obligations.CrcUpdateIsLinear := ⟨crcUpdate_xor, crc16_check_value⟩

/-! ### The fold (40_crc.md R101 to R103, R105) -/

theorem crc16_append (a b : List Byte) : crc16 (a ++ b) = crcFold (crc16 a) b := crcFold_append _ a b

/-- Settles O10: `crc16` is the fold from the seed. -/
theorem crcComputeFoldsFromTheSeed : Obligations.CrcComputeFoldsFromTheSeed :=
  ⟨exec_crcCompute, exec_crcCompute []⟩

/-- Settles O11: the row returns `crc16`, a fold, and a fold over a concatenation goes on from the first part's. -/
theorem crcOfConcatenation : Obligations.CrcOfConcatenation := by
  intro a b s
  rw [exec_crcCompute, crc16_append]
  rfl

theorem hiByte_eq_loByte_shiftRight (c : Half) : hiByte c = loByte (c >>> 8) := by
  ext i hi
  simp [hiByte, loByte]

/-- Folding the low byte of `c` leaves its high byte alone, and folding that one leaves nothing (R105). -/
theorem crcFold_own_bytes (c : Half) : crcFold c [loByte c, hiByte c] = 0 := by
  calc crcFold c [loByte c, hiByte c]
    _ = crcUpdate (c >>> 8) (loByte (c >>> 8)) := by
        simp only [crcFold_cons, crcFold_nil, crcUpdate_loByte, hiByte_eq_loByte_shiftRight]
    _ = c >>> 8 >>> 8 := crcUpdate_loByte (c >>> 8)
    _ = 0 := by rw [← BitVec.shiftRight_add]; exact BitVec.ushiftRight_eq_zero (le_refl 16)

theorem crc16_withCrc (bs : List Byte) : crc16 (withCrc bs) = 0 := by
  rw [withCrc, crc16_append, crcFold_own_bytes]

/-- Settles O13: the sequence is `withCrc bs`, whose last two bytes clear the register. -/
theorem appendedCrcGivesZero : Obligations.AppendedCrcGivesZero := by
  intro bs s
  change exec (.crcCompute (withCrc bs)) s = _
  rw [exec_crcCompute, crc16_withCrc]

end Sys2Proof.Machine

/-! PROOFS. The statements of 41_descriptor_ops.md. -/

namespace Sys2Proof.Machine

/-! ### The descriptor rows (41_descriptor_ops.md R110, R111, R114) -/

/-- Of the descriptor, P.INIT reads only `user_context`, which it keeps: a second one undoes the first. -/
@[simp] theorem initialise_initialise (k k' : Kind) (s : State) : initialise k (initialise k' s) = initialise k s := rfl

@[simp] theorem initialise_userContext (k : Kind) (s : State) : (initialise k s).d.userContext = s.d.userContext := rfl

theorem exec_pReset_of_initialised {s : State} (hi : s.initialised = true) :
    exec .pReset s = exec (.pInit s.d.kind) s := by
  change execPReset s = _
  simp [execPReset, hi]

theorem exec_pReset_of_uninitialised {s : State} (hi : s.initialised = false) :
    exec .pReset s = .refused .uninitialised := by
  change execPReset s = _
  simp [execPReset, hi]

@[simp] theorem exec_ctxWrite (v : Context) (s : State) :
    exec (.ctxWrite v) s = .next (s.begin.setDesc { s.d with userContext := v }) := rfl

/-- Settles O14: `initialise` is the table of R110, and repeating it gives the same state. -/
theorem pInitLeavesTheResetTable : Obligations.PInitLeavesTheResetTable := by
  refine ⟨exec_pInit, fun k s t h => ?_⟩
  obtain rfl : initialise k s = t := by simpa using h
  rw [exec_pInit, initialise_initialise]

/-- Settles O15: P.RESET runs P.INIT of the kind that stands in D, behind the test of `initialised`. -/
theorem pResetIsPInitOfTheSameKind : Obligations.PResetIsPInitOfTheSameKind := by
  refine ⟨fun s hi => ?_, fun _ => exec_pReset_of_uninitialised⟩
  have hinit : exec (.pInit s.d.kind) s = .next (initialise s.d.kind s) := exec_pInit _ s
  exact ⟨_, (exec_pReset_of_initialised hi).trans hinit, hinit, rfl, rfl, rfl, rfl⟩

/-- Settles O18: P.INIT keeps the context that CTX.WRITE has put into the descriptor. -/
theorem ctxWriteSetsTheContext : Obligations.CtxWriteSetsTheContext := by
  refine ⟨exec_ctxWrite, fun v k s t u ht hu => ?_⟩
  obtain rfl : s.begin.setDesc { s.d with userContext := v } = t := by simpa using ht
  obtain rfl : initialise k (s.begin.setDesc { s.d with userContext := v }) = u := by simpa using hu
  rw [initialise_userContext, State.setDesc_d]

/-! ### The hook-table rows (41_descriptor_ops.md R112, R113) -/

@[simp] theorem exec_hReset (s : State) :
    exec .hReset s = .next { s.begin with hookEn := 0#9, hooksReset := true } := rfl

theorem exec_hSet_of_fits {h : Nat} (p : Bool) (s : State) (hh : h < Config.hookCount) :
    exec (.hSet h p) s = .next { s.begin with hookEn := setHookBit s.hookEn h p } := if_pos hh

theorem exec_hSet_of_not_fits {h : Nat} (p : Bool) (s : State) (hh : ¬ h < Config.hookCount) :
    exec (.hSet h p) s = .refused .hookIdOutOfRange := if_neg hh

/-- Setting ors the bit's mask in, clearing masks it out: either touches bit `h` alone. -/
theorem setHookBit_getLsbD (m : BitVec 9) (h : Nat) (p : Bool) {j : Nat} (hj : j < 9) :
    (setHookBit m h p).getLsbD j = if j = h then p else m.getLsbD j := by
  by_cases hjh : j = h
  · subst hjh
    cases p <;> simp [setHookBit, hj]
  · cases p <;> simp [setHookBit, hj, hjh]

/-- Settles O16: the row writes the empty table and its flag into the begun state. -/
theorem hResetClearsTheHookTable : Obligations.HResetClearsTheHookTable := exec_hReset

/-- Settles O17: the table written is `setHookBit`'s, and the ids that fit are those up to 8. -/
theorem hSetWritesOneBit : Obligations.HSetWritesOneBit := by
  constructor
  · intro h p s hh
    exact ⟨_, exec_hSet_of_fits p s (Nat.lt_succ_of_le hh), fun _ => setHookBit_getLsbD s.hookEn h p⟩
  · intro h p s hh
    exact exec_hSet_of_not_fits p s (Nat.not_lt_of_le hh)

end Sys2Proof.Machine

/-! PROOFS. The statements of 42_parser_states.md. -/

namespace Sys2Proof.Machine

/-! ### What the rule of a state can do (42_parser_states.md R125 to R139) -/

/-- Everything a byte `b` at index `i` can store in descriptor `d`, one case for each branch of each state's rule. -/
inductive StoreNext (b : Byte) (i : Nat) (d : Desc) : Stored → Prop
  | slaveAddress (hs : d.state = .slaveAddress) : StoreNext b i d (storeSlaveAddress b d)
  | recognized {c} (hs : d.state = .function) (hc : classify b = some c) :
      StoreNext b i d { d := { d with function := b }, hooks := [.onFunction], next := branch d.kind c }
  | unrecognized (hs : d.state = .function) (hc : classify b = none) :
      StoreNext b i d { d := { d with function := b }.raise .unknownFunction, hooks := [], next := .function }
  | byteCount (hs : d.state = .byteCount) : StoreNext b i d (storeByteCount b d)
  | singleAddrHi (hs : d.state = .singleAddrHi) : StoreNext b i d (storeSingleAddrHi b d)
  | singleAddrLo (hs : d.state = .singleAddrLo) : StoreNext b i d (storeSingleAddrLo b d)
  | startAddrHi (hs : d.state = .startAddrHi) : StoreNext b i d (storeStartAddrHi b d)
  | startAddrLo (hs : d.state = .startAddrLo) : StoreNext b i d (storeStartAddrLo b d)
  | qtyHi (hs : d.state = .qtyHi) : StoreNext b i d (storeQtyHi b d)
  | qtyLo {t} (hs : d.state = .qtyLo) (ht : afterQty d.kind (classify d.function) = some t) :
      StoreNext b i d { d := { d with quantity := d.quantity ||| lowPart b }, hooks := [.onQuantity], next := t }
  | data (hs : d.state = .data) : StoreNext b i d (storeData i d)
  | crcLo (hs : d.state = .crcLo) : StoreNext b i d (storeCrcLo b d)
  | crcMatch (hs : d.state = .crcHi) (hm : d.frameCrc ||| highPart b = d.runningCrc) :
      StoreNext b i d { d := { d with frameCrc := d.frameCrc ||| highPart b, state := .complete },
                        hooks := [.onComplete], next := .complete }
  | crcMismatch (hs : d.state = .crcHi) (hm : d.frameCrc ||| highPart b ≠ d.runningCrc) :
      StoreNext b i d { d := { d with frameCrc := d.frameCrc ||| highPart b }.raise .crcMismatch,
                        hooks := [.onCrcError], next := .crcHi }

theorem storeByte_recognized {b : Byte} {c : FnClass} (i : Nat) (d : Desc) (hs : d.state = .function)
    (hc : classify b = some c) :
    storeByte b i d =
      some { d := { d with function := b }, hooks := [.onFunction], next := branch d.kind c } := by
  simp [storeByte, hs, storeFunction, hc]

theorem storeByte_unrecognized {b : Byte} (i : Nat) (d : Desc) (hs : d.state = .function) (hc : classify b = none) :
    storeByte b i d =
      some { d := { d with function := b }.raise .unknownFunction, hooks := [], next := .function } := by
  simp [storeByte, hs, storeFunction, hc]

theorem storeByte_crcHi_match {b : Byte} (i : Nat) (d : Desc) (hs : d.state = .crcHi)
    (hm : d.frameCrc ||| highPart b = d.runningCrc) :
    storeByte b i d =
      some { d := { d with frameCrc := d.frameCrc ||| highPart b, state := .complete }, hooks := [.onComplete],
             next := .complete } := by
  rw [storeByte_crcHi b i d hs, storeCrcHi_match b d hm]

theorem storeByte_crcHi_mismatch {b : Byte} (i : Nat) (d : Desc) (hs : d.state = .crcHi)
    (hm : d.frameCrc ||| highPart b ≠ d.runningCrc) :
    storeByte b i d =
      some { d := { d with frameCrc := d.frameCrc ||| highPart b }.raise .crcMismatch, hooks := [.onCrcError],
             next := .crcHi } := by
  rw [storeByte_crcHi b i d hs, storeCrcHi_mismatch b d hm]

/-- A byte that has a rule is stored by the branch of its state. -/
theorem storeByte_next {b : Byte} {i : Nat} {d : Desc} {st : Stored} (h : storeByte b i d = some st) :
    StoreNext b i d st := by
  cases hs : d.state with
  | function =>
    cases hc : classify b with
    | some c => rw [storeByte_recognized i d hs hc] at h; cases h; exact .recognized hs hc
    | none => rw [storeByte_unrecognized i d hs hc] at h; cases h; exact .unrecognized hs hc
  | qtyLo =>
    simp only [storeByte, hs] at h
    obtain ⟨t, ht, rfl⟩ := Option.map_eq_some_iff.mp h
    exact .qtyLo hs ht
  | crcHi =>
    by_cases hm : d.frameCrc ||| highPart b = d.runningCrc
    · rw [storeByte_crcHi_match i d hs hm] at h; cases h; exact .crcMatch hs hm
    · rw [storeByte_crcHi_mismatch i d hs hm] at h; cases h; exact .crcMismatch hs hm
  | slaveAddress => rw [storeByte_slaveAddress b i d hs] at h; cases h; exact .slaveAddress hs
  | byteCount => rw [storeByte_byteCount b i d hs] at h; cases h; exact .byteCount hs
  | singleAddrHi => rw [storeByte_singleAddrHi b i d hs] at h; cases h; exact .singleAddrHi hs
  | singleAddrLo => rw [storeByte_singleAddrLo b i d hs] at h; cases h; exact .singleAddrLo hs
  | startAddrHi => rw [storeByte_startAddrHi b i d hs] at h; cases h; exact .startAddrHi hs
  | startAddrLo => rw [storeByte_startAddrLo b i d hs] at h; cases h; exact .startAddrLo hs
  | qtyHi => rw [storeByte_qtyHi b i d hs] at h; cases h; exact .qtyHi hs
  | data => rw [storeByte_data b i d hs] at h; cases h; exact .data hs
  | crcLo => rw [storeByte_crcLo b i d hs] at h; cases h; exact .crcLo hs
  | complete => simp [storeByte, hs] at h

/-- No rule of a state writes `running_crc`: phase 1 alone does (R122). -/
theorem StoreNext.runningCrc {b : Byte} {i : Nat} {d : Desc} {st : Stored} (h : StoreNext b i d st) :
    st.d.runningCrc = d.runningCrc := by
  cases h with
  | unrecognized | crcMismatch => exact Desc.raise_runningCrc _ _
  | _ => rfl

/-! ### The checksummed bytes of a call (42_parser_states.md R122, R138, R139, R145) -/

theorem branch_lt_data (k : Kind) (c : FnClass) : stateCode (branch k c) < 9 := by
  cases k <;> cases c <;> decide

/-- After the quantity comes the byte count or the checksum (R136). -/
theorem afterQty_cases {k : Kind} {c : Option FnClass} {t : ParserState} (h : afterQty k c = some t) :
    t = .byteCount ∨ t = .crcLo := by
  unfold afterQty at h
  split at h <;> cases h <;> simp

/-- Up to the data state a byte leads at most to the first CRC state, whose bytes are still to come. -/
theorem StoreNext.next_le_crcLo {b : Byte} {i : Nat} {d : Desc} {st : Stored} (h : StoreNext b i d st)
    (hs : stateCode d.state ≤ 9) : stateCode st.next ≤ 10 := by
  cases h with
  | recognized => exact (branch_lt_data _ _).le.trans (by decide)
  | qtyLo _ ht => rcases afterQty_cases ht with rfl | rfl <;> simp [stateCode]
  | byteCount | data =>
    simp only [storeByteCount, storeData]
    split <;> decide
  | crcLo h | crcMatch h | crcMismatch h => rw [h] at hs; exact absurd hs (by decide)
  | _ => simp [storeSlaveAddress, storeSingleAddrHi, storeSingleAddrLo, storeStartAddrHi, storeStartAddrLo, storeQtyHi,
      stateCode]

/-- Up to the first CRC state no byte of the two has been consumed. -/
theorem crcBytesSeen_of_le_crcLo {d : Desc} (h : stateCode d.state ≤ 10) : crcBytesSeen d = 0 := by
  cases hs : d.state <;> simp_all [crcBytesSeen, stateCode]

theorem inCrcState_iff {d : Desc} (hg : gated d = false) : inCrcState d = true ↔ 9 < stateCode d.state := by
  have hne := (gated_false hg).2
  cases hs : d.state <;> simp_all [inCrcState, stateCode]

/-- A byte outside the two CRC states is folded into `running_crc`, and no byte of theirs has been seen after it. -/
theorem stepByte_outside_crc {b : Byte} {i : Nat} {s t : State} (h : stepByte b i s = .next t)
    (hs : stateCode s.d.state ≤ 9) :
    t.d.runningCrc = crcUpdate s.d.runningCrc b ∧ crcBytesSeen t.d = 0 := by
  obtain ⟨st, hst, hd, -⟩ := stepByte_next h
  have hnext := storeByte_next hst
  have hle : stateCode st.next ≤ 10 := hnext.next_le_crcLo (by simpa using hs)
  have hcrc : st.d.runningCrc = crcUpdate s.d.runningCrc b := by
    rw [hnext.runningCrc, checksum_outside_crc] <;> intro h <;> simp [h, stateCode] at hs
  rcases hd with hd | hd <;> rw [hd] <;> exact ⟨by simpa using hcrc, crcBytesSeen_of_le_crcLo (by simpa using hle)⟩

/-- A byte of the two CRC states leaves `running_crc`, is counted, and no other byte follows it. -/
theorem stepByte_in_crc {b : Byte} {i : Nat} {s t : State} (h : stepByte b i s = .next t) (hg : gated s.d = false)
    (hs : 9 < stateCode s.d.state) :
    t.d.runningCrc = s.d.runningCrc ∧ crcBytesSeen t.d = crcBytesSeen s.d + 1 ∧ 9 < stateCode t.d.state := by
  obtain ⟨st, hst, hd, -⟩ := stepByte_next h
  obtain ⟨herr, -⟩ := gated_false hg
  rw [Desc.checksum_of_inCrcState _ _ ((inCrcState_iff hg).mpr hs)] at hst
  cases storeByte_next hst with
  | crcLo hlo => rcases hd with hd | hd <;> simp [hd, hlo, herr, storeCrcLo, crcBytesSeen, stateCode]
  | crcMatch hhi => rcases hd with hd | hd <;> simp [hd, hhi, herr, crcBytesSeen, stateCode]
  | crcMismatch hhi => rcases hd with hd | hd <;> simp [hd, hhi, herr, crcBytesSeen, stateCode]
  | _ hlt => simp [hlt, stateCode] at hs

/-- From the CRC states on, a call consumes bytes of those states alone. -/
theorem consume_in_crc {bs : List Byte} {i j : Nat} {s t : State} (h : consume bs i s = .next (j, t))
    (hs : 9 < stateCode s.d.state) :
    t.d.runningCrc = s.d.runningCrc ∧ crcBytesSeen t.d + i = crcBytesSeen s.d + j := by
  refine (consume_keeps (i := i) (P := fun k u => 9 < stateCode u.d.state ∧ u.d.runningCrc = s.d.runningCrc ∧
    crcBytesSeen u.d + i = crcBytesSeen s.d + k) ?_ ⟨hs, rfl, rfl⟩ h).2
  intro b k u v ⟨hu, hcrc, hseen⟩ hg hv
  obtain ⟨hcrc', hseen', hv⟩ := stepByte_in_crc hv hg hu
  exact ⟨hv, hcrc'.trans hcrc, by omega⟩

/-- The loop folds the first `covered` bytes consumed, and the `n` after them are those of the two CRC states. -/
theorem consume_runningCrc {bs : List Byte} {i j : Nat} {s t : State} (h : consume bs i s = .next (j, t)) :
    ∃ covered n, j = i + covered + n ∧ crcBytesSeen t.d = crcBytesSeen s.d + n ∧
      t.d.runningCrc = crcFold s.d.runningCrc (bs.take covered) := by
  induction bs generalizing i s with
  | nil => cases h; exact ⟨0, 0, rfl, rfl, rfl⟩
  | cons b rest ih =>
    cases hg : gated s.d with
    | true => rw [consume_gated _ _ _ hg] at h; cases h; exact ⟨0, 0, rfl, rfl, rfl⟩
    | false =>
      by_cases hs : 9 < stateCode s.d.state
      · obtain ⟨hij, -⟩ := consume_count h
        obtain ⟨hcrc, hseen⟩ := consume_in_crc h hs
        exact ⟨0, j - i, by omega, by omega, hcrc⟩
      · rw [consume_cons _ _ _ _ hg, andThen_eq_next] at h
        obtain ⟨u, hu, h⟩ := h
        obtain ⟨hcrc, hseen⟩ := stepByte_outside_crc hu (by omega)
        obtain ⟨covered, n, hj, hn, ht⟩ := ih h
        have hseen₀ : crcBytesSeen s.d = 0 := crcBytesSeen_of_le_crcLo (by omega)
        refine ⟨covered + 1, n, by omega, by omega, ?_⟩
        rw [ht, hcrc, List.take_succ_cons, crcFold_cons]

/-- What P.EXEC leaves in `running_crc` (R145). -/
theorem execute_runningCrc {bs : List Byte} {s t : State} {r : Nat} (h : execute bs s = .next t)
    (hr : t.result = .consumed r) :
    crcBytesSeen s.d ≤ crcBytesSeen t.d ∧
      t.d.runningCrc = crcFold s.d.runningCrc (bs.take (r - (crcBytesSeen t.d - crcBytesSeen s.d))) := by
  obtain ⟨-, j, u, hu, rfl⟩ := execute_next h
  cases hr
  obtain ⟨covered, n, hj, hn, hcrc⟩ := consume_runningCrc hu
  have hseen : crcBytesSeen u.d = crcBytesSeen s.d + n := hn
  have hcovered : r - (crcBytesSeen u.d - crcBytesSeen s.d) = covered := by omega
  refine ⟨hseen ▸ Nat.le_add_right _ _, ?_⟩
  rw [State.returns_d, hcovered]
  exact hcrc

/-- Settles O36: the loop folds every byte it consumes before the two CRC states and none in them; a fresh
descriptor starts from the seed, with no byte of theirs seen. -/
theorem runningCrcCoversTheFrame : Obligations.RunningCrcCoversTheFrame := by
  refine ⟨fun bs s t r _ h hr => execute_runningCrc h hr, ?_⟩
  rintro bs k s t r ⟨-, hfresh⟩ h hr
  have hseen : crcBytesSeen s.d = 0 := by rw [hfresh]; rfl
  have hseed : s.d.runningCrc = Config.crcSeed := by rw [hfresh]; rfl
  rw [(execute_runningCrc h hr).2, hseen, hseed]
  rfl

/-! ### A call goes through (42_parser_states.md R120, R143, 20_memory.md R57) -/

theorem byte_succ_le (x : Byte) : (x + 1#8).toNat ≤ x.toNat + 1 := by
  rw [BitVec.toNat_add]
  exact Nat.mod_le _ _

/-- A window of bytes before index `i` extended by the byte at `i` names bytes before `i + 1` (10_state.md R18). -/
theorem Payload.extend_end_le {p : Payload} {i : Nat} (h : p.offset + p.length.toNat ≤ i) :
    (p.extend i).offset + (p.extend i).length.toNat ≤ i + 1 := by
  have hlen := byte_succ_le p.length
  by_cases hp : p.length = 0#8
  · simp [Payload.extend, hp]
  · simp only [Payload.extend, hp, if_false]
    omega

/-- The data rule alone writes the window. -/
theorem StoreNext.payload {b : Byte} {i : Nat} {d : Desc} {st : Stored} (h : StoreNext b i d st) :
    st.d.payload = d.payload ∨ st.d.payload = d.payload.extend i := by
  cases h with
  | data => exact .inr rfl
  | unrecognized | crcMismatch => exact .inl (Desc.raise_payload _ _)
  | _ => exact .inl rfl

/-- The window names bytes before index `i`. -/
def WindowBefore (i : Nat) (d : Desc) : Prop := d.payload.offset + d.payload.length.toNat ≤ i

theorem stepByte_windowBefore {b : Byte} {i : Nat} {s t : State} (h : stepByte b i s = .next t)
    (hw : WindowBefore i s.d) : WindowBefore (i + 1) t.d := by
  obtain ⟨st, hst, hd, -⟩ := stepByte_next h
  have hp : t.d.payload = st.d.payload := by rcases hd with hd | hd <;> simp [hd]
  unfold WindowBefore at *
  rw [hp]
  rcases (storeByte_next hst).payload with h | h <;> rw [h, Desc.checksum_payload]
  · exact Nat.le_succ_of_le hw
  · exact Payload.extend_end_le hw

theorem consume_windowBefore {bs : List Byte} {i j : Nat} {s t : State} (h : consume bs i s = .next (j, t))
    (hw : WindowBefore i s.d) : WindowBefore j t.d :=
  consume_keeps (P := fun k u => WindowBefore k u.d) (fun _ _ _ _ hu _ hv => stepByte_windowBefore hv hu) hw h

/-- Each event of the loop uses one reply (R123). -/
theorem consume_repliesUsed {bs : List Byte} {i j : Nat} {s t : State} (h : consume bs i s = .next (j, t)) :
    ∃ evs, t.events = s.events ++ evs ∧ RepliesUsed evs.length s t := by
  by_cases he : s.d.error = .none
  · obtain ⟨evs, hevs, hused, -⟩ := consume_trace h he
    exact ⟨evs, hevs, hused⟩
  · rw [consume_gated _ _ _ (by simp [gated, he])] at h
    cases h
    exact ⟨[], by simp, fun k => by simp⟩

/-- Everything a call leaves besides the descriptor's fields: IN as presented, one reply used for each event, and
the surroundings as they were. -/
theorem execute_frame {bs : List Byte} {s t : State} (h : execute bs s = .next t) :
    (∀ a, Memory.read t.input a = bs[a]?) ∧ RepliesUsed t.events.length s t ∧ Surroundings s t := by
  obtain ⟨-, j, u, hu, rfl⟩ := execute_next h
  have hmoved := consume_moves hu
  obtain ⟨-, -, -, -, -, -, hin, -⟩ := hmoved.fields
  obtain ⟨evs, hevs, hused⟩ := consume_repliesUsed hu
  obtain rfl : u.events = evs := by simpa using hevs
  exact ⟨fun a => by simp [hin], hused, hmoved.surroundings⟩

/-- Settles O32: the loop answers on every input, and stops before its end only where the next byte is gated. -/
theorem execConsumesUntilTerminal : Obligations.ExecConsumesUntilTerminal := by
  rintro bs s hinv ⟨hinit, hreset⟩
  obtain ⟨r, u, hu⟩ := consume_answers bs 0 (s.startCall bs) hinv.desc.clearPayload hreset
  have hexec := execute_of_consume hinit hu
  obtain ⟨-, hle, hstop⟩ := consume_count hu
  obtain ⟨hkind, hctx⟩ := consume_keeps_kind_context hu
  have hw : WindowBefore r u.d := consume_windowBefore hu (Nat.le_refl 0)
  refine ⟨_, r, hexec, rfl, by omega, fun hlt => ?_, hw, hkind, hctx, execute_frame hexec⟩
  simpa [gated] using hstop (by omega)

/-! ### A call in two pieces (42_parser_states.md R144) -/

/-- Settles O35: two calls that answer next are one call on both inputs, which goes on where the first call stopped. -/
theorem execResumesAcrossChunks : Obligations.ExecResumesAcrossChunks := by
  intro a b s t u m n ht hu hm hn
  obtain ⟨m', n', v, hm', hn', hv, hmn, hc⟩ := execute_append ht hu
  obtain rfl : m' = m := by simpa [hm'] using hm
  obtain rfl : n' = n := by simpa [hn'] using hn
  obtain ⟨-, -, -, hreplies, hsur⟩ := hc.fields
  exact ⟨v, hv, hmn, hc.desc, hc.events, hreplies, hsur⟩

/-! ### A failing reply (42_parser_states.md R124, 60_exceptions.md R218) -/

/-- Settles O37: the trace of the loop, from the state in which the call starts. -/
theorem failingReplyEndsTheCall : Obligations.FailingReplyEndsTheCall := by
  intro bs s t he h
  obtain ⟨-, j, u, hu, rfl⟩ := execute_next h
  obtain ⟨evs, hevs, -, -, hok, haborted, hfail⟩ := consume_trace hu he
  obtain rfl : u.events = evs := by simpa using hevs
  exact ⟨hok, haborted, hfail⟩

/-! ### Progress on the wire (42_parser_states.md R142) -/

theorem wireOrder_function_lt_branch (k : Kind) (c : FnClass) : wireOrder .function < wireOrder (branch k c) := by
  cases k <;> cases c <;> decide

/-- A data byte below the data length is counted without wrap. -/
theorem dataCnt_succ_toNat {d : Desc} (h : d.dataCnt.toNat < d.dataLen.toNat) :
    (d.dataCnt + 1#8).toNat = d.dataCnt.toNat + 1 := by
  have hmax := d.dataLen.isLt
  rw [BitVec.toNat_add]
  exact Nat.mod_eq_of_lt (by simp only [BitVec.toNat_ofNat]; omega)

/-- Each branch names a state later on the wire, but the data rule before the last byte, which counts its byte, and
the two that latch an error. -/
theorem StoreNext.progress {b : Byte} {i : Nat} {d : Desc} {st : Stored} (h : StoreNext b i d st) (he : d.error = .none)
    (hcnt : d.state = .data → d.dataCnt.toNat < d.dataLen.toNat) :
    wireOrder d.state < wireOrder st.next ∨
    (d.state = .data ∧ st.next = .data ∧ st.d.dataCnt.toNat = d.dataCnt.toNat + 1) ∨
    (d.state = .function ∧ st.next = .function ∧ st.d.error = .unknownFunction) ∨
    (d.state = .crcHi ∧ st.next = .crcHi ∧ st.d.error = .crcMismatch) := by
  cases h with
  | unrecognized hs => exact .inr (.inr (.inl ⟨hs, rfl, by simp [he]⟩))
  | crcMismatch hs => exact .inr (.inr (.inr ⟨hs, rfl, by simp [he]⟩))
  | data hs =>
    by_cases hlast : d.dataCnt + 1#8 = d.dataLen
    · exact .inl (by simp [storeData, hs, hlast, wireOrder])
    · exact .inr (.inl ⟨hs, by simp [storeData, hlast], dataCnt_succ_toNat (hcnt hs)⟩)
  | recognized hs => exact .inl (by rw [hs]; exact wireOrder_function_lt_branch _ _)
  | qtyLo hs ht => exact .inl (by rcases afterQty_cases ht with rfl | rfl <;> simp [hs, wireOrder])
  | byteCount hs => exact .inl (by by_cases hb : b = 0#8 <;> simp [storeByteCount, hs, hb, wireOrder])
  | slaveAddress hs | singleAddrHi hs | singleAddrLo hs | startAddrHi hs | startAddrLo hs | qtyHi hs | crcLo hs
  | crcMatch hs =>
    exact .inl (by simp [hs, wireOrder, storeSlaveAddress, storeSingleAddrHi, storeSingleAddrLo, storeStartAddrHi,
      storeStartAddrLo, storeQtyHi, storeCrcLo])

/-- Settles O46: by the branch of the state's rule; a hook failing after it neither moves the state nor replaces an
error already latched. -/
theorem everyByteAdvancesOnTheWire : Obligations.EveryByteAdvancesOnTheWire := by
  intro b i s t hinv h
  obtain ⟨-, hg, hb⟩ := exec_pStep_next h
  obtain ⟨st, hst, hd, -⟩ := stepByte_next hb
  have hcnt : s.d.state = .data → s.d.dataCnt.toNat < s.d.dataLen.toNat := by
    intro hs
    have hpath := hinv.onPath
    simp only [OnPath, hs] at hpath
    exact hpath.2
  have hprogress := (storeByte_next hst).progress (by simpa using (gated_false hg).1) (by simpa using hcnt)
  have hstate : t.d.state = st.next := by rcases hd with hd | hd <;> rw [hd] <;> rfl
  have hdataCnt : t.d.dataCnt = st.d.dataCnt := by rcases hd with hd | hd <;> simp [hd]
  have herror : st.d.error ≠ .none → t.d.error = st.d.error := by
    intro hne
    rcases hd with hd | hd <;> simp [hd, hne]
  simp only [Desc.checksum_state, Desc.checksum_dataCnt, State.presentByte_d, State.begin_d] at hprogress
  rw [hstate, hdataCnt]
  rcases hprogress with hlater | hcounts | ⟨hs, hn, he⟩ | ⟨hs, hn, he⟩
  · exact .inl hlater
  · exact .inr (.inl hcounts)
  · exact .inr (.inr (.inl ⟨hs, hn, by rw [herror (by simp [he]), he]⟩))
  · exact .inr (.inr (.inr ⟨hs, hn, by rw [herror (by simp [he]), he]⟩))

/-! ### Where P.STEP is refused and P.EXEC consumes nothing (42_parser_states.md R121, R122, R140) -/

theorem gated_eq_true_iff {d : Desc} : gated d = true ↔ d.error ≠ .none ∨ d.state = .complete := by simp [gated]

theorem exec_pStep_of_uninitialised (b : Byte) (i : Nat) {s : State} (hi : s.initialised = false) :
    exec (.pStep b i) s = .refused .uninitialised := by
  change execPStep b i s = _
  simp [execPStep, hi]

theorem exec_pStep_of_gated (b : Byte) (i : Nat) {s : State} (hi : s.initialised = true) (hg : gated s.d = true) :
    exec (.pStep b i) s = .refused .stepGated := by
  change execPStep b i s = _
  simp [execPStep, hi, hg]

/-- Settles O30: the two tests P.STEP makes before its phases. -/
theorem stepOutsidePreconditionRefused : Obligations.StepOutsidePreconditionRefused :=
  ⟨fun b i _ hi hs => exec_pStep_of_gated b i hi (gated_eq_true_iff.mpr hs),
    fun b i _ => exec_pStep_of_uninitialised b i⟩

/-- The loop consumes nothing where the first byte is gated or there is none. -/
theorem consume_of_nothing_due {bs : List Byte} (i : Nat) {s : State} (h : gated s.d = true ∨ bs = []) :
    consume bs i s = .next (i, s) := by
  rcases h with hg | rfl
  · exact consume_gated bs i s hg
  · rfl

/-- Settles O31: the loop ends where it starts, with the window cleared and IN presented. -/
theorem execIsGatedByErrorAndComplete : Obligations.ExecIsGatedByErrorAndComplete := by
  intro bs s hi h
  have hnothing : gated (s.startCall bs).d = true ∨ bs = [] := by
    rw [gated_eq_true_iff, or_assoc]
    exact h
  exact ⟨_, Memory.read_ofBytes_zero bs, execute_of_consume hi (consume_of_nothing_due 0 hnothing)⟩

/-! ### What one byte leaves (42_parser_states.md R122 to R124) -/

/-- P.STEP leaves, besides the descriptor and its events, what `ByteGiven` says. -/
theorem exec_pStep_byteGiven {b : Byte} {i : Nat} {s t : State} (h : exec (.pStep b i) s = .next t) :
    ByteGiven b i s t := by
  obtain ⟨-, hg, hb⟩ := exec_pStep_next h
  obtain ⟨-, -, -, hm⟩ := stepByte_next hb
  obtain ⟨-, -, -, -, -, -, hin, hresult⟩ := hm.fields
  obtain ⟨evs, hevs, hused, -⟩ := stepByte_trace hb (gated_false hg).1
  obtain rfl : t.events = evs := by simpa using hevs
  refine ⟨hresult, by simp [hin], fun a ha => ?_, hused, hm.surroundings⟩
  rw [hin, State.presentByte_input, Memory.read_write_other _ _ ha]
  rfl

section
variable {b : Byte} {i : Nat} {s : State} {d : Desc} {h : Hook} {n : ParserState}

/-- A byte that makes no hook due needs no hook table. -/
theorem exec_pStep_of_no_hook (hi : s.initialised = true) (hg : gated s.d = false)
    (hst : storeByte b i (s.d.checksum b) = some { d := d, hooks := [], next := n }) :
    ∃ t, exec (.pStep b i) s = .next t ∧ t.d = d.advance n ∧ t.events = [] ∧ ByteGiven b i s t := by
  have hstep : exec (.pStep b i) s = .next ((s.begin.presentByte i b).setDesc (d.advance n)) := by
    rw [exec_pStep_of_ready hi hg]
    simp [stepByte, hst]
  exact ⟨_, hstep, rfl, rfl, exec_pStep_byteGiven hstep⟩

/-- A byte that makes one hook due: its event, and error entry where it fails. -/
theorem exec_pStep_of_hook (hready : Ready s) (hg : gated s.d = false)
    (hst : storeByte b i (s.d.checksum b) = some { d := d, hooks := [h], next := n }) :
    ∃ t, exec (.pStep b i) s = .next t ∧
      t.d = (if s.hookEn.getLsbD (hookId h) ∧ replyAt s 0 = .fail then d.raise .hookAborted else d).advance n ∧
      t.events = eventsOf s h d ∧ ByteGiven b i s t := by
  obtain ⟨hi, hr⟩ := hready
  obtain ⟨u, hu, hd, hevs, -⟩ := fireHooks_one h ((s.begin.presentByte i b).setDesc d) hr
  have hstep : exec (.pStep b i) s = .next (u.setDesc (u.d.advance n)) := by
    rw [exec_pStep_of_ready hi hg]
    simp [stepByte, hst, hu]
  exact ⟨_, hstep, congrArg (Desc.advance · n) hd, hevs, exec_pStep_byteGiven hstep⟩

/-- Where the state's rule latches no error, the error after its hook is `errorAfter`. -/
theorem exec_pStep_of_hook_no_error (hready : Ready s) (hg : gated s.d = false)
    (hst : storeByte b i (s.d.checksum b) = some { d := d, hooks := [h], next := n }) (hd : d.error = .none) :
    ∃ t, exec (.pStep b i) s = .next t ∧ t.d = { d with state := n, error := errorAfter s h } ∧
      t.events = eventsOf s h d ∧ ByteGiven b i s t := by
  obtain ⟨t, ht, htd, hrest⟩ := exec_pStep_of_hook hready hg hst
  refine ⟨t, ht, htd.trans ?_, hrest⟩
  unfold errorAfter
  split
  · rw [Desc.raise_of_none d _ hd]
    rfl
  · rw [← hd]
    rfl

/-- Where the state's rule has latched an error, its hook failing changes nothing (60_exceptions.md R218). -/
theorem exec_pStep_of_hook_error (hready : Ready s) (hg : gated s.d = false)
    (hst : storeByte b i (s.d.checksum b) = some { d := d, hooks := [h], next := n }) (hd : d.error ≠ .none) :
    ∃ t, exec (.pStep b i) s = .next t ∧ t.d = d.advance n ∧ t.events = eventsOf s h d ∧ ByteGiven b i s t := by
  obtain ⟨t, ht, htd, hrest⟩ := exec_pStep_of_hook hready hg hst
  have hraise : d.raise .hookAborted = d := if_neg hd
  exact ⟨t, ht, by rw [htd, hraise, ite_self], hrest⟩

end

/-! ### The rule of each state (42_parser_states.md R125 to R139) -/

/-- A byte outside the two CRC states, where no error is latched, is consumed and folded. -/
theorem covered_byte {d : Desc} (b : Byte) (he : d.error = .none) (hle : stateCode d.state ≤ 9) :
    gated d = false ∧ d.checksum b = { d with runningCrc := crcUpdate d.runningCrc b } := by
  have hne {x : ParserState} (hx : 9 < stateCode x) : d.state ≠ x := fun h => by rw [h] at hle; omega
  exact ⟨not_gated he (hne (by decide)), checksum_outside_crc (hne (by decide)) (hne (by decide))⟩

/-- A byte of the two CRC states, where no error is latched, is consumed and not folded. -/
theorem crc_byte {d : Desc} (b : Byte) (he : d.error = .none) (hs : d.state = .crcLo ∨ d.state = .crcHi) :
    gated d = false ∧ d.checksum b = d := by
  refine ⟨not_gated he ?_, Desc.checksum_of_inCrcState d b (by simpa [inCrcState] using hs)⟩
  rcases hs with hs | hs <;> simp [hs]

/-- Settles O20: the rule of R125 makes one hook due. -/
theorem stepStoresSlaveAddress : Obligations.StepStoresSlaveAddress := by
  intro b i s hready he hs
  obtain ⟨hg, hck⟩ := covered_byte b he (by rw [hs]; decide)
  exact exec_pStep_of_hook_no_error hready hg ((congrArg _ hck).trans (storeByte_slaveAddress b i _ hs)) he

theorem branch_eq (k : Kind) (c : FnClass) :
    branch k c =
      if c = .single then .singleAddrHi else if c = .read ∧ k = .response then .byteCount else .startAddrHi := by
  cases k <;> cases c <;> rfl

/-- Settles O21: the rule of R126 makes one hook due, and its next state is the branch of R128. -/
theorem stepStoresRecognizedFunction : Obligations.StepStoresRecognizedFunction := by
  intro b i s c hready he hs hc
  obtain ⟨hg, hck⟩ := covered_byte b he (by rw [hs]; decide)
  rw [← branch_eq]
  exact exec_pStep_of_hook_no_error hready hg ((congrArg _ hck).trans (storeByte_recognized i _ hs hc)) he

/-- Settles O22: the rule of R127 latches its error and makes no hook due. -/
theorem stepAbortsOnUnrecognizedFunction : Obligations.StepAbortsOnUnrecognizedFunction := by
  intro b i s hi he hs hc
  obtain ⟨hg, hck⟩ := covered_byte b he (by rw [hs]; decide)
  have hst := storeByte_unrecognized i { s.d with runningCrc := crcUpdate s.d.runningCrc b } hs hc
  rw [Desc.raise_of_none _ _ (by exact he)] at hst
  exact exec_pStep_of_no_hook hi hg ((congrArg _ hck).trans hst)

/-- Settles O23: the rule of R129 makes one hook due. -/
theorem stepStoresByteCount : Obligations.StepStoresByteCount := by
  intro b i s hready he hs
  obtain ⟨hg, hck⟩ := covered_byte b he (by rw [hs]; decide)
  exact exec_pStep_of_hook_no_error hready hg ((congrArg _ hck).trans (storeByte_byteCount b i _ hs)) he

/-- Settles O24: the rules of R130 and R132 make no hook due. -/
theorem stepStoresAddressHighByte : Obligations.StepStoresAddressHighByte := by
  constructor
  · intro b i s hi he hs
    obtain ⟨hg, hck⟩ := covered_byte b he (by rw [hs]; decide)
    exact exec_pStep_of_no_hook hi hg ((congrArg _ hck).trans (storeByte_singleAddrHi b i _ hs))
  · intro b i s hi he hs
    obtain ⟨hg, hck⟩ := covered_byte b he (by rw [hs]; decide)
    exact exec_pStep_of_no_hook hi hg ((congrArg _ hck).trans (storeByte_startAddrHi b i _ hs))

/-- Settles O25: the rules of R131 and R133 make one hook due. -/
theorem stepStoresAddressLowByte : Obligations.StepStoresAddressLowByte := by
  constructor
  · intro b i s hready he hs
    obtain ⟨hg, hck⟩ := covered_byte b he (by rw [hs]; decide)
    exact exec_pStep_of_hook_no_error hready hg ((congrArg _ hck).trans (storeByte_singleAddrLo b i _ hs)) he
  · intro b i s hready he hs
    obtain ⟨hg, hck⟩ := covered_byte b he (by rw [hs]; decide)
    exact exec_pStep_of_hook_no_error hready hg ((congrArg _ hck).trans (storeByte_startAddrLo b i _ hs)) he

/-- Settles O26: the rule of R134 makes no hook due, that of R135 one; R136 names the state after it. -/
theorem stepStoresQuantity : Obligations.StepStoresQuantity := by
  constructor
  · intro b i s hi he hs
    obtain ⟨hg, hck⟩ := covered_byte b he (by rw [hs]; decide)
    exact exec_pStep_of_no_hook hi hg ((congrArg _ hck).trans (storeByte_qtyHi b i _ hs))
  · intro b i s n hready he hs hn
    have hafter : afterQty s.d.kind (classify s.d.function) = some n := by
      rcases hn with ⟨hk, hc, rfl⟩ | ⟨hk, hc, rfl⟩ | ⟨hk, hc, rfl⟩ <;> rw [hk, hc] <;> rfl
    obtain ⟨hg, hck⟩ := covered_byte b he (by rw [hs]; decide)
    exact exec_pStep_of_hook_no_error hready hg ((congrArg _ hck).trans (storeByte_qtyLo b i _ hs hafter)) he

/-- Settles O28: the rule of R138, in a state whose bytes are not folded, makes no hook due. -/
theorem stepStoresCrcLowByte : Obligations.StepStoresCrcLowByte := by
  intro b i s hi he hs
  obtain ⟨hg, hck⟩ := crc_byte b he (.inl hs)
  exact exec_pStep_of_no_hook hi hg ((congrArg _ hck).trans (storeByte_crcLo b i _ hs))

/-- Settles O29: the rule of R139 makes one hook due in either verdict; a mismatch is latched before it fires. -/
theorem stepComparesTheChecksums : Obligations.StepComparesTheChecksums := by
  intro b i s hready he hs
  obtain ⟨hg, hck⟩ := crc_byte b he (.inr hs)
  constructor
  · intro hm
    exact exec_pStep_of_hook_no_error hready hg ((congrArg _ hck).trans (storeByte_crcHi_match i _ hs hm)) he
  · intro hm
    have hst := storeByte_crcHi_mismatch i s.d hs hm
    rw [Desc.raise_of_none _ _ (by exact he)] at hst
    obtain ⟨t, ht, htd, hrest⟩ := exec_pStep_of_hook_error hready hg ((congrArg _ hck).trans hst) (by simp)
    exact ⟨t, ht, by rw [htd, ← hs]; rfl, hrest⟩

/-! ### The two hooks of a data byte (42_parser_states.md R137) -/

/-- From a descriptor without an error, the hooks of `b` fire after those of `a` unless one of those failed (R124). -/
theorem fireHooks_append (a b : List Hook) {s : State} (he : s.d.error = .none) :
    fireHooks (a ++ b) s =
      andThen (fireHooks a s) fun t => if t.d.error = .none then fireHooks b t else .next t := by
  induction a generalizing s with
  | nil => simp [he]
  | cons h rest ih =>
    rw [List.cons_append]
    cases hr : s.hooksReset with
    | false => simp [fireHooks, hr]
    | true =>
      cases hp : hookPresent s.hookEn h with
      | false => rw [fireHooks_absent h _ s hr hp, fireHooks_absent h _ s hr hp, ih he]
      | true =>
        cases hk : replyAt s 0 with
        | ok => rw [fireHooks_ok h _ s hr hp hk, fireHooks_ok h _ s hr hp hk, ih (by simpa using he)]
        | fail => simp [fireHooks_fail h _ s hr hp hk, he]

/-- The events of a hook that is due where `p` holds. -/
def dueEvents (p : Prop) [Decidable p] (s : State) (h : Hook) : List Event := if p then eventsOf s h s.d else []

/-- There is an event among `evs`, and reply `n` is `fail`. -/
def Fails (s : State) (evs : List Event) (n : Nat) : Prop := evs ≠ [] ∧ replyAt s n = .fail

theorem fails_eventsOf_iff (s : State) (h : Hook) (d : Desc) :
    Fails s (eventsOf s h d) 0 ↔ s.hookEn.getLsbD (hookId h) ∧ replyAt s 0 = .fail := by
  unfold Fails eventsOf
  split <;> simp_all

/-- A hook that is due where `p` holds: its events, the replies they use, and what its failing leaves. -/
theorem fireHooks_due (p : Prop) [Decidable p] (h : Hook) (s : State) (hr : s.hooksReset = true) :
    ∃ t, fireHooks (if p then [h] else []) s = .next t ∧ t.events = s.events ++ dueEvents p s h ∧
      RepliesUsed (dueEvents p s h).length s t ∧ OnlyParserMoved s t ∧
      (Fails s (dueEvents p s h) 0 → t.d = s.d.raise .hookAborted) ∧ (¬ Fails s (dueEvents p s h) 0 → t.d = s.d) := by
  unfold dueEvents
  by_cases hp : p
  · simp only [hp, if_true, fails_eventsOf_iff]
    obtain ⟨t, ht, hd, hevs, hused, hm⟩ := fireHooks_one h s hr
    exact ⟨t, ht, hevs, hused, hm, fun hf => by rw [hd, if_pos hf], fun hf => by rw [hd, if_neg hf]⟩
  · simp only [hp, if_false]
    exact ⟨s, rfl, by simp, fun k => by simp, .refl s, fun hf => absurd rfl hf.1, fun _ => rfl⟩

/-- Two hooks, each due under its own condition, of which the second fires unless the first failed. -/
theorem fireHooks_two_due (p q : Prop) [Decidable p] [Decidable q] (h k : Hook) {s : State} (hr : s.hooksReset = true)
    (he : s.d.error = .none) :
    ∃ t evs, fireHooks ((if p then [h] else []) ++ if q then [k] else []) s = .next t ∧
      (q ∧ ¬ Fails s (dueEvents p s h) 0 → evs = eventsOf s k s.d) ∧
      (¬ q ∨ Fails s (dueEvents p s h) 0 → evs = []) ∧ t.events = s.events ++ (dueEvents p s h ++ evs) ∧
      t.d = { s.d with error := t.d.error } ∧
      (Fails s (dueEvents p s h) 0 ∨ Fails s evs (dueEvents p s h).length → t.d.error = .hookAborted) ∧
      (¬ (Fails s (dueEvents p s h) 0 ∨ Fails s evs (dueEvents p s h).length) → t.d.error = .none) := by
  rw [fireHooks_append _ _ he]
  obtain ⟨u, hu, huevs, hused, hm, hufail, huok⟩ := fireHooks_due p h s hr
  rw [hu, andThen_next]
  by_cases hf : Fails s (dueEvents p s h) 0
  · have hud : u.d = { s.d with error := .hookAborted } := (hufail hf).trans (Desc.raise_of_none s.d _ he)
    refine ⟨u, [], by simp [hud], ?_⟩
    simp [hf, huevs, hud]
  · have hud : u.d = s.d := huok hf
    have hdue : dueEvents q u k = dueEvents q s k := by
      unfold dueEvents eventsOf
      rw [hm.fields.1, hud]
    obtain ⟨t, ht, htevs, -, -, htfail, htok⟩ := fireHooks_due q k u (hm.fields.2.1.trans hr)
    have hfails : Fails u (dueEvents q s k) 0 ↔ Fails s (dueEvents q s k) (dueEvents p s h).length := by
      unfold Fails
      rw [hused 0]
      rfl
    rw [hdue, hfails, hud] at htfail htok
    refine ⟨t, dueEvents q s k, by rw [if_pos (hud ▸ he), ht], fun hq => if_pos hq.1, fun hq => ?_, ?_, ?_, ?_, ?_⟩
    · exact if_neg (hq.resolve_right hf)
    · rw [htevs, huevs, hdue, List.append_assoc]
    · by_cases hs : Fails s (dueEvents q s k) (dueEvents p s h).length
      · rw [htfail hs, Desc.raise_of_none _ _ he]
      · rw [htok hs]
    · intro hs
      rw [htfail (hs.resolve_left hf), Desc.raise_of_none _ _ he]
    · intro hs
      rw [htok (fun h => hs (.inr h)), he]

/-- Settles O27: the rule of R137 makes its two hooks due under their own conditions. -/
theorem stepCountsDataBytes : Obligations.StepCountsDataBytes := by
  intro b i s hready he hs _ cnt d startEvents startFails
  obtain ⟨hi, hr⟩ := hready
  obtain ⟨hg, hck⟩ := covered_byte b he (by rw [hs]; decide)
  have hst : storeByte b i (s.d.checksum b) = some (storeData i { s.d with runningCrc := crcUpdate s.d.runningCrc b }) :=
    (congrArg _ hck).trans (storeByte_data b i _ hs)
  obtain ⟨u, evs, hu, hend, hnone, hevs, hd, hfail, hok⟩ :=
    fireHooks_two_due (cnt = 1) (cnt = s.d.dataLen) .onDataStart .onDataEnd
      (s := (s.begin.presentByte i b).setDesc d) hr he
  have hstep : exec (.pStep b i) s =
      .next (u.setDesc (u.d.advance (if cnt = s.d.dataLen then .crcLo else .data))) := by
    rw [exec_pStep_of_ready hi hg]
    unfold stepByte
    rw [State.presentByte_d, State.begin_d, hst]
    exact congrArg (andThen · _) hu
  refine ⟨_, evs, hstep, hend, hnone, hevs, ?_, hfail, hok, exec_pStep_byteGiven hstep⟩
  exact congrArg (Desc.advance · _) hd

/-! ### The fields of a frame before its CRC, from a fresh descriptor (43_parser_frames.md R150 to R155) -/

section
variable {k : Kind} {slave f : Byte} {c : FnClass} (ctx : Context)

/-- The slave address and a recognized function code (R125, R126). -/
theorem runs_head (hc : classify f = some c) :
    Runs [slave, f] 0 (Desc.fresh k ctx)
      { Desc.fresh k ctx with
        runningCrc := crc16 [slave, f], slaveAddress := slave, function := f, state := branch k c }
      [.onSlaveAddress, .onFunction] :=
  (runs_slaveAddress slave 0 (Desc.fresh k ctx) rfl rfl).append (runs_function f _ _ c hc rfl rfl)

/-- A starting address and a quantity after the head (R132 to R136). -/
theorem runs_address_quantity {n : ParserState} (a q : Half) (hc : classify f = some c)
    (hb : branch k c = .startAddrHi) (hn : afterQty k (some c) = some n) :
    Runs [slave, f, hiByte a, loByte a, hiByte q, loByte q] 0 (Desc.fresh k ctx)
      { Desc.fresh k ctx with
        runningCrc := crc16 [slave, f, hiByte a, loByte a, hiByte q, loByte q], slaveAddress := slave, function := f,
        address := a, quantity := q, state := n }
      [.onSlaveAddress, .onFunction, .onAddress, .onQuantity] :=
  ((runs_head ctx hc).append (runs_startAddr a _ _ rfl hb)).append
    (runs_qty q _ _ n rfl rfl (by rw [← hn, ← hc]; rfl))

/-- An address and the two bytes of a value after the head (R130, R131, R137). -/
theorem runs_single_write (a v : Half) (hc : classify f = some .single) :
    Runs [slave, f, hiByte a, loByte a, hiByte v, loByte v] 0 (Desc.fresh k ctx)
      { Desc.fresh k ctx with
        runningCrc := crc16 [slave, f, hiByte a, loByte a, hiByte v, loByte v], slaveAddress := slave, function := f,
        address := a, dataLen := 2#8, dataCnt := 2#8, payload := { offset := 4, length := 2#8 }, state := .crcLo }
      [.onSlaveAddress, .onFunction, .onAddress, .onDataStart, .onDataEnd] := by
  have hb : branch k .single = .singleAddrHi := by cases k <;> rfl
  exact ((runs_head ctx hc).append (runs_singleAddr a _ _ rfl hb)).append
    (runs_data [hiByte v, loByte v] _ _ rfl rfl (by simp) rfl (Nat.le_refl 0))

end

/-- A byte count and the data it counts, in a call whose window is empty (R129, R137). -/
theorem runs_counted_data {data : List Byte} (i : Nat) (d : Desc) (he : d.error = .none) (hs : d.state = .byteCount)
    (hp : d.payload = { offset := 0, length := 0#8 }) (hl : data.length ≤ 255) :
    Runs (countByte data.length :: data) i d
      { d with
        runningCrc := crcFold d.runningCrc (countByte data.length :: data), byteCount := countByte data.length,
        dataLen := countByte data.length, dataCnt := countByte data.length,
        payload := { offset := if data = [] then 0 else i + 1, length := countByte data.length }, state := .crcLo }
      (.onByteCount :: dataHooks data) := by
  have hcount := runs_byteCount (countByte data.length) i d he hs
  by_cases hd : data = []
  · subst hd
    refine hcount.congr ?_ rfl
    simp [countByte, hp]
  · have hne : countByte data.length ≠ 0#8 := by
      intro h
      have := congrArg BitVec.toNat h
      rw [countByte_toNat hl] at this
      exact hd (List.eq_nil_of_length_eq_zero this)
    rw [if_neg hne] at hcount
    refine (hcount.append (runs_data data _ _ he rfl hd ?_ ?_)).congr ?_ ?_
    · simp [countByte_toNat hl]
    · simp [hp]
    · simp [hd, hp, countByte]
    · simp [dataHooks, hd]

section
variable {slave f : Byte} {data : List Byte} (ctx : Context)

/-- A multi-write query: address, quantity, byte count and data (R129, R132 to R137). -/
theorem runs_multi_query (a q : Half) (hc : classify f = some .multi) (hl : data.length ≤ 255) :
    Runs ([slave, f, hiByte a, loByte a, hiByte q, loByte q, countByte data.length] ++ data) 0 (Desc.fresh .query ctx)
      { Desc.fresh .query ctx with
        runningCrc :=
          crc16 ([slave, f, hiByte a, loByte a, hiByte q, loByte q, countByte data.length] ++ data),
        slaveAddress := slave, function := f, address := a, quantity := q, byteCount := countByte data.length,
        dataLen := countByte data.length, dataCnt := countByte data.length,
        payload := { offset := if data = [] then 0 else 7, length := countByte data.length }, state := .crcLo }
      ([.onSlaveAddress, .onFunction, .onAddress, .onQuantity, .onByteCount] ++ dataHooks data) :=
  ((runs_address_quantity ctx a q hc rfl rfl).append (runs_counted_data _ _ rfl rfl rfl hl)).congr (by simp [crc16]) rfl

/-- A read response: byte count and data (R129, R137). -/
theorem runs_read_response (hc : classify f = some .read) (hl : data.length ≤ 255) :
    Runs ([slave, f, countByte data.length] ++ data) 0 (Desc.fresh .response ctx)
      { Desc.fresh .response ctx with
        runningCrc := crc16 ([slave, f, countByte data.length] ++ data), slaveAddress := slave, function := f,
        byteCount := countByte data.length, dataLen := countByte data.length, dataCnt := countByte data.length,
        payload := { offset := if data = [] then 0 else 3, length := countByte data.length }, state := .crcLo }
      ([.onSlaveAddress, .onFunction, .onByteCount] ++ dataHooks data) :=
  ((runs_head ctx hc).append (runs_counted_data _ _ rfl rfl rfl hl)).congr (by simp [crc16]) rfl

end

/-! ### A frame given whole (42_parser_states.md R146) -/

/-- P.EXEC of bytes that run from a fresh descriptor. -/
theorem execute_of_runs {bs : List Byte} {k : Kind} {s : State} {d : Desc} {hs : List Hook}
    (h : Runs bs 0 (Desc.fresh k s.d.userContext) d hs) (hf : FreshFor k s) (hok : RepliesOk hs.length s) :
    ∃ t, execute bs s = .next t ∧ t.d = d ∧ FrameGiven bs hs s t := by
  obtain ⟨⟨hinit, hreset⟩, hfresh⟩ := hf
  have hstart : (s.startCall bs).d = Desc.fresh k s.d.userContext := congrArg Desc.clearPayload hfresh
  obtain ⟨u, hu, hd, hevs⟩ := h (s.startCall bs) hstart hreset hok
  have hexec := execute_of_consume hinit hu
  obtain ⟨hin, hused, hsur⟩ := execute_frame hexec
  exact ⟨_, hexec, hd, by simp, hin, hevs, hused, hsur⟩

/-- From a fresh descriptor of kind `k`, with every reply ok, the bytes `bs` lead to the CRC's first byte, all folded
and no error latched, and make the hooks `hs` due. -/
def RunsToCrc (bs : List Byte) (k : Kind) (hs : List Hook) : Prop :=
  ∀ ctx, ∃ d, Runs bs 0 (Desc.fresh k ctx) d hs ∧ d.state = .crcLo ∧ d.error = .none ∧ d.runningCrc = crc16 bs

@[simp] theorem sentCrc_append (bs : List Byte) (crc : Half) : sentCrc (bs ++ [loByte crc, hiByte crc]) = crc := by
  simp [sentCrc]

@[simp] theorem coveredBytes_append (bs : List Byte) (x y : Byte) : coveredBytes (bs ++ [x, y]) = bs := by
  simp [coveredBytes]

section
variable {k : Kind} {slave f : Byte} {c : FnClass}

theorem runsToCrc_address_quantity (a q : Half) (hc : classify f = some c) (hb : branch k c = .startAddrHi)
    (hn : afterQty k (some c) = some .crcLo) :
    RunsToCrc [slave, f, hiByte a, loByte a, hiByte q, loByte q] k
      [.onSlaveAddress, .onFunction, .onAddress, .onQuantity] :=
  fun ctx => ⟨_, runs_address_quantity ctx a q hc hb hn, rfl, rfl, by dsimp only⟩

theorem runsToCrc_single_write (a v : Half) (hc : classify f = some .single) :
    RunsToCrc [slave, f, hiByte a, loByte a, hiByte v, loByte v] k
      [.onSlaveAddress, .onFunction, .onAddress, .onDataStart, .onDataEnd] :=
  fun ctx => ⟨_, runs_single_write ctx a v hc, rfl, rfl, by dsimp only⟩

theorem runsToCrc_multi_query (a q : Half) {data : List Byte} (hc : classify f = some .multi) (hl : data.length ≤ 255) :
    RunsToCrc ([slave, f, hiByte a, loByte a, hiByte q, loByte q, countByte data.length] ++ data) .query
      ([.onSlaveAddress, .onFunction, .onAddress, .onQuantity, .onByteCount] ++ dataHooks data) :=
  fun ctx => ⟨_, runs_multi_query ctx a q hc hl, rfl, rfl, by dsimp only⟩

theorem runsToCrc_read_response {data : List Byte} (hc : classify f = some .read) (hl : data.length ≤ 255) :
    RunsToCrc ([slave, f, countByte data.length] ++ data) .response
      ([.onSlaveAddress, .onFunction, .onByteCount] ++ dataHooks data) :=
  fun ctx => ⟨_, runs_read_response ctx hc hl, rfl, rfl, by dsimp only⟩

end

/-- The verdict of a CRC after the bytes it covers (R139, R146). -/
theorem execute_verdict {bs : List Byte} {k : Kind} {hs : List Hook} {s : State} (crc : Half) (h : RunsToCrc bs k hs)
    (hf : FreshFor k s) (hok : RepliesOk (hs.length + 1) s) :
    ∃ t, execute (bs ++ [loByte crc, hiByte crc]) s = .next t ∧ t.d.frameCrc = crc ∧ t.d.runningCrc = crc16 bs ∧
      (crc = crc16 bs → t.d.state = .complete ∧ t.d.error = .none ∧
        FrameGiven (bs ++ [loByte crc, hiByte crc]) (hs ++ [.onComplete]) s t) ∧
      (crc ≠ crc16 bs → t.d.state = .crcHi ∧ t.d.error = .crcMismatch ∧
        FrameGiven (bs ++ [loByte crc, hiByte crc]) (hs ++ [.onCrcError]) s t) := by
  obtain ⟨d, hd, hlo, he, hcrc⟩ := h s.d.userContext
  rw [← hcrc]
  by_cases hm : crc = d.runningCrc
  · obtain ⟨t, ht, htd, hgiven⟩ :=
      execute_of_runs (hd.append (runs_crc_match crc _ d he hlo hm)) hf (by simpa using hok)
    exact ⟨t, ht, by rw [htd], by rw [htd], fun _ => ⟨by rw [htd], by rw [htd, he], hgiven⟩, fun hne => absurd hm hne⟩
  · obtain ⟨t, ht, htd, hgiven⟩ :=
      execute_of_runs (hd.append (runs_crc_mismatch crc _ d he hlo hm)) hf (by simpa using hok)
    exact ⟨t, ht, by rw [htd], by rw [htd], fun heq => absurd heq hm, fun _ => ⟨by rw [htd], by rw [htd], hgiven⟩⟩

theorem fieldHooks_length_le (i : Instr) : (fieldHooks i).length ≤ 7 := by
  have hdata (data : List Byte) : (dataHooks data).length ≤ 2 := by
    unfold dataHooks
    split <;> decide
  cases i
  case qWriteMultiCoils data _ | qWriteMultiRegs data _ | rReadCoils data _ | rReadDiscrete data _ |
      rReadHoldReg data _ | rReadInputReg data _ =>
    have := hdata data
    simp only [fieldHooks, List.length_append, List.length_cons, List.length_nil]
    omega
  all_goals simp [fieldHooks]

/-- Every well-formed frame row is the bytes of its fields, which lead to its CRC. -/
theorem frameBytes_runsToCrc {i : Instr} {k : Kind} (hw : WellFormed i = true) (hk : frameKind i = some k) :
    ∃ bs crc, frameBytes i = bs ++ [loByte crc, hiByte crc] ∧ RunsToCrc bs k (fieldHooks i) := by
  cases i <;> cases hk
  case qReadCoils | qReadDiscrete | qReadHoldReg | qReadInputReg | rWriteMultiCoils | rWriteMultiRegs =>
    exact ⟨[_, _, _, _, _, _], _, rfl, runsToCrc_address_quantity _ _ rfl rfl rfl⟩
  case qWriteSingleCoil | qWriteSingleReg | rWriteSingleCoil | rWriteSingleReg =>
    exact ⟨[_, _, _, _, _, _], _, rfl, runsToCrc_single_write _ _ rfl⟩
  case qWriteMultiCoils | qWriteMultiRegs =>
    exact ⟨_, _, rfl, runsToCrc_multi_query _ _ rfl (of_decide_eq_true hw)⟩
  case rReadCoils | rReadDiscrete | rReadHoldReg | rReadInputReg =>
    exact ⟨_, _, rfl, runsToCrc_read_response rfl (of_decide_eq_true hw)⟩

/-- Settles O44: the row is P.EXEC of its bytes, which lead to the CRC it carries, and that CRC to its verdict. -/
theorem frameVerdictIsItsChecksum : Obligations.FrameVerdictIsItsChecksum := by
  intro i k s hw hk hf hok
  obtain ⟨bs, crc, hbytes, hruns⟩ := frameBytes_runsToCrc hw hk
  have hlen := fieldHooks_length_le i
  dsimp only
  rw [exec_of_frameKind hk, hbytes, sentCrc_append, coveredBytes_append]
  exact execute_verdict crc hruns hf fun n hn => hok n (by omega)

end Sys2Proof.Machine

/-! PROOFS. The statements of 43_parser_frames.md. -/

namespace Sys2Proof.Machine

/-! ### A frame with its CRC right (43_parser_frames.md R160) -/

theorem RepliesOk.of_le {m n : Nat} {s : State} (h : RepliesOk n s) (hle : m ≤ n) : RepliesOk m s :=
  fun k hk => h k (by omega)

theorem dataHooks_length_le (data : List Byte) : (dataHooks data).length ≤ 2 := by
  unfold dataHooks
  split <;> decide

/-- Bytes that run to the CRC's first byte with all of them folded, followed by their CRC, complete. -/
theorem execute_crcAppended {bs : List Byte} {k : Kind} {s : State} {d : Desc} {hs : List Hook}
    (h : Runs bs 0 (Desc.fresh k s.d.userContext) d hs) (he : d.error = .none) (hlo : d.state = .crcLo)
    (hcrc : d.runningCrc = crc16 bs) (hf : FreshFor k s) (hok : RepliesOk (hs.length + 1) s) :
    ∃ t, execute (crcAppended bs) s = .next t ∧
      t.d = { d with state := .complete, frameCrc := crc16 bs, runningCrc := crc16 bs } ∧
      FrameGiven (crcAppended bs) (hs ++ [.onComplete]) s t := by
  have hlast := runs_crc_match (crc16 bs) (0 + bs.length) d he hlo hcrc.symm
  rw [hcrc] at hlast
  exact execute_of_runs (h.append hlast) hf (by simpa using hok)

/-! ### The rows with a data region (R152, R153, R167 to R172) -/

/-- Settles O41: the fields run to the CRC, the data by the induction of `runs_data`, and the CRC is theirs. -/
theorem multiWriteQueryFramesDecode : Obligations.MultiWriteQueryFramesDecode := by
  intro s slave f a q data mk hmk hf hok hl n covered
  have hrow : classify f = some .multi ∧
      ∀ crc, exec (mk slave a q data crc) s = execute (layoutMultiQuery slave f a q data crc) s := by
    simp only [List.mem_cons, List.not_mem_nil, or_false, Prod.mk.injEq] at hmk
    rcases hmk with ⟨rfl, rfl⟩ | ⟨rfl, rfl⟩ <;> exact ⟨rfl, fun _ => rfl⟩
  obtain ⟨hc, hexec⟩ := hrow
  have hdata := dataHooks_length_le data
  rw [hexec]
  exact execute_crcAppended (runs_multi_query _ a q hc hl) rfl rfl (by dsimp only) hf
    (hok.of_le (by simp only [List.length_append, List.length_cons, List.length_nil]; omega))

/-- Settles O42: byte count and data, of any length, lead from the head to the CRC, which is theirs. -/
theorem readResponseFramesDecode : Obligations.ReadResponseFramesDecode := by
  intro s slave f data mk hmk hf hok hl n covered
  have hrow : classify f = some .read ∧
      ∀ crc, exec (mk slave data crc) s = execute (layoutReadResponse slave f data crc) s := by
    simp only [List.mem_cons, List.not_mem_nil, or_false, Prod.mk.injEq] at hmk
    rcases hmk with ⟨rfl, rfl⟩ | ⟨rfl, rfl⟩ | ⟨rfl, rfl⟩ | ⟨rfl, rfl⟩ <;> exact ⟨rfl, fun _ => rfl⟩
  obtain ⟨hc, hexec⟩ := hrow
  have hdata := dataHooks_length_le data
  rw [hexec]
  exact execute_crcAppended (runs_read_response _ hc hl) rfl rfl (by dsimp only) hf
    (hok.of_le (by simp only [List.length_append, List.length_cons, List.length_nil]; omega))

/-! ### A row read from a request (30_encoding.md R78, 44_generator.md R180) -/

/-- The frame row read from an input is P.EXEC of its bytes, and those are the input. -/
theorem exec_decodeExecute (mode : Option Kind) (bs : List Byte) (s : State) :
    exec (decodeExecute mode bs) s = execute bs s := by
  unfold decodeExecute
  split
  case h_1 => rfl
  case h_2 k =>
    split
    case h_1 i hi =>
      obtain ⟨-, hk, hbs⟩ := decodedRowIsItsFrame _ _ _ _ hi
      rw [exec_of_frameKind hk, hbs, List.append_nil]
    case h_2 => rfl

theorem args_withFunction {q : Query} {c : Byte} (h : q.function.toNat = c.toNat) : q.args.withFunction c = q := by
  obtain rfl : q.function = c := BitVec.eq_of_toNat_eq h
  rfl

/-- The G row read from a query descriptor is G.GEN on that descriptor. -/
theorem exec_decodeGenerate (q : Query) (n : Nat) (s : State) : exec (decodeGenerate q n) s = generate q n s := by
  unfold decodeGenerate
  split
  case h_1 h => exact congrArg (generate · n s) (args_withFunction (c := 0x01) h)
  case h_2 h => exact congrArg (generate · n s) (args_withFunction (c := 0x02) h)
  case h_3 h => exact congrArg (generate · n s) (args_withFunction (c := 0x03) h)
  case h_4 h => exact congrArg (generate · n s) (args_withFunction (c := 0x04) h)
  case h_5 h => exact congrArg (generate · n s) (args_withFunction (c := 0x05) h)
  case h_6 h => exact congrArg (generate · n s) (args_withFunction (c := 0x06) h)
  case h_7 h => exact congrArg (generate · n s) (args_withFunction (c := 0x0F) h)
  case h_8 h => exact congrArg (generate · n s) (args_withFunction (c := 0x10) h)
  case h_9 => rfl

/-- Settles O5: either reading names the row of the same operation. -/
theorem decodingKeepsTheOperation : Obligations.DecodingKeepsTheOperation :=
  ⟨exec_decodeExecute, fun _ => exec_decodeGenerate⟩

/-! ### The eight-byte rows (R150, R151, R154, R155, R161 to R166, R173 to R176) -/

/-- The rows `mk` makes are P.EXEC of the eight-byte layout with function byte `f` (30_encoding.md R64, R65, R69). -/
def GivesTwoFields (f : Byte) (mk : Byte → Half → Half → Half → Instr) : Prop :=
  ∀ slave a b crc s, exec (mk slave a b crc) s = execute (layoutTwoFields slave f a b crc) s

/-- Settles O39: address and quantity lead from the head to the CRC, which is theirs. -/
theorem readQueryFramesDecode : Obligations.ReadQueryFramesDecode := by
  intro s slave f a q mk hmk hf hok covered
  have hrow : classify f = some .read ∧ GivesTwoFields f mk := by
    simp only [List.mem_cons, List.not_mem_nil, or_false, Prod.mk.injEq] at hmk
    rcases hmk with ⟨rfl, rfl⟩ | ⟨rfl, rfl⟩ | ⟨rfl, rfl⟩ | ⟨rfl, rfl⟩ <;> exact ⟨rfl, fun _ _ _ _ _ => rfl⟩
  obtain ⟨hc, hexec⟩ := hrow
  rw [hexec]
  exact execute_crcAppended (runs_address_quantity _ a q hc rfl rfl) rfl rfl (by dsimp only) hf hok

/-- Settles O40: both kinds take a single write through its address and two data bytes to the CRC, which is theirs. -/
theorem singleWriteFramesDecode : Obligations.SingleWriteFramesDecode := by
  intro s k slave f a v mk hmk hf hok covered
  have hrow : classify f = some .single ∧ GivesTwoFields f mk := by
    simp only [List.mem_cons, List.not_mem_nil, or_false, Prod.mk.injEq] at hmk
    rcases hmk with ⟨rfl, rfl⟩ | ⟨rfl, rfl⟩ | ⟨rfl, rfl⟩ | ⟨rfl, rfl⟩ <;> exact ⟨rfl, fun _ _ _ _ _ => rfl⟩
  obtain ⟨hc, hexec⟩ := hrow
  rw [hexec]
  exact execute_crcAppended (runs_single_write _ a v hc) rfl rfl (by dsimp only) hf hok

/-- Settles O43: address and quantity lead from the head to the CRC, which is theirs. -/
theorem multiWriteResponseFramesDecode : Obligations.MultiWriteResponseFramesDecode := by
  intro s slave f a q mk hmk hf hok covered
  have hrow : classify f = some .multi ∧ GivesTwoFields f mk := by
    simp only [List.mem_cons, List.not_mem_nil, or_false, Prod.mk.injEq] at hmk
    rcases hmk with ⟨rfl, rfl⟩ | ⟨rfl, rfl⟩ <;> exact ⟨rfl, fun _ _ _ _ _ => rfl⟩
  obtain ⟨hc, hexec⟩ := hrow
  rw [hexec]
  exact execute_crcAppended (runs_address_quantity _ a q hc rfl rfl) rfl rfl (by dsimp only) hf hok

end Sys2Proof.Machine

/-! PROOFS. The statements of 44_generator.md. -/

namespace Sys2Proof.Machine

/-! ### The codes, their bodies and their preconditions (44_generator.md R187, R190 to R202) -/

/-- The recognized codes, by the body they have. -/
theorem recognized_cases {f : Byte} (hc : classify f ≠ none) :
    classify f = some .read ∨ (f = 5 ∨ f = 6) ∨ f = 15 ∨ f = 16 := by
  have hf := (not_congr (classify_eq_none_iff f)).mp hc
  simp only [not_not, List.mem_cons, List.not_mem_nil, or_false] at hf
  simp only [← BitVec.toNat_inj]
  rcases hf with h | h | h | h | h | h | h | h <;> simp [classify, h]

theorem read_code_cases {f : Byte} (hc : classify f = some .read) : f = 1 ∨ f = 2 ∨ f = 3 ∨ f = 4 := by
  simp only [← BitVec.toNat_inj]
  unfold classify at hc
  split at hc <;> simp_all

section
variable {q : Query}

theorem genBody_of_read (hc : classify q.function = some .read) : genBody q = some (bodyRead q) := by
  unfold genBody
  rcases read_code_cases hc with h | h | h | h <;> rw [h] <;> rfl

theorem genBody_of_single (hf : q.function = 5 ∨ q.function = 6) : genBody q = bodySingle q := by
  unfold genBody
  rcases hf with h | h <;> rw [h] <;> rfl

theorem genBody_of_coils (hf : q.function = 15) : genBody q = bodyCoils q := by
  unfold genBody
  rw [hf]
  rfl

theorem genBody_of_registers (hf : q.function = 16) : genBody q = bodyRegisters q := by
  unfold genBody
  rw [hf]
  rfl

theorem genPrecondition_of_coils (hf : q.function = 15) :
    genPrecondition q = (decide (q.quantity.toNat ≤ 2040) && decide ((q.quantity.toNat + 15) / 16 ≤ q.valueCount)) := by
  unfold genPrecondition
  rw [hf]
  rfl

theorem genPrecondition_of_registers (hf : q.function = 16) : genPrecondition q = decide (q.valueCount ≤ 127) := by
  unfold genPrecondition
  rw [hf]
  rfl

/-- G.GEN tests the preconditions of R187. -/
theorem genPrecondition_iff (hc : classify q.function ≠ none) : genPrecondition q = true ↔ WithinPreconditions q := by
  rcases recognized_cases hc with hr | (hf | hf) | hf | hf
  · rcases read_code_cases hr with hf | hf | hf | hf <;> simp [genPrecondition, WithinPreconditions, hf]
  · simp [genPrecondition, WithinPreconditions, hf]
  · simp [genPrecondition, WithinPreconditions, hf]
  · simp [genPrecondition_of_coils hf, WithinPreconditions, hf]
  · simp [genPrecondition_of_registers hf, WithinPreconditions, hf]

/-- A read code has no precondition. -/
theorem withinPreconditions_of_read (hc : classify q.function = some .read) : WithinPreconditions q := by
  rcases read_code_cases hc with hf | hf | hf | hf <;> simp [WithinPreconditions, hf]

/-! ### The data of the multi-write codes (44_generator.md R196, R197) -/

theorem allSome_eq_some_iff {xs : List (Option α)} {ys : List α} : allSome xs = some ys ↔ xs = ys.map some := by
  induction xs generalizing ys with
  | nil => cases ys <;> simp [allSome]
  | cons x rest ih =>
    cases x with
    | none => cases ys <;> simp [allSome]
    | some x => cases ys <;> simp [allSome, ih, and_comm]

theorem coilData_length {data : List Byte} (h : coilData q = some data) : data.length = coilByteCount q.quantity := by
  simpa using allSome_length h

theorem registerBytes_length {j : Nat} {pair : List Byte} (h : registerBytes q j = some pair) : pair.length = 2 := by
  obtain ⟨w, -, rfl⟩ := Option.map_eq_some_iff.mp h
  rfl

theorem registerData_length {data : List Byte} (h : registerData q = some data) : data.length = 2 * q.valueCount := by
  obtain ⟨pairs, hpairs, rfl⟩ := Option.map_eq_some_iff.mp h
  have hlen : pairs.length = q.valueCount := by simpa using allSome_length hpairs
  have htwo : ∀ n ∈ pairs.map List.length, n = 2 := by
    intro n hn
    obtain ⟨pair, hpair, rfl⟩ := List.mem_map.mp hn
    have hmem : some pair ∈ (List.range q.valueCount).map (registerBytes q) :=
      allSome_eq_some_iff.mp hpairs ▸ List.mem_map_of_mem hpair
    obtain ⟨j, -, hj⟩ := List.mem_map.mp hmem
    exact registerBytes_length hj
  rw [List.length_flatten, List.sum_eq_card_nsmul _ 2 htwo, List.length_map, hlen, smul_eq_mul, Nat.mul_comm]

/-- The byte of a bitmap word that an index selects. -/
theorem setWidth_shiftRight_parity (w : Half) (k : Nat) :
    (w >>> (8 * (k % 2))).setWidth 8 = if k % 2 = 0 then loByte w else hiByte w := by
  rcases Nat.mod_two_eq_zero_or_one k with h | h
  · simp [h, loByte_eq_setWidth]
  · simp [h, hiByte_eq_loByte_shiftRight, loByte_eq_setWidth]

theorem map_getD_range {n : Nat} {xs : List α} (d : α) (h : n ≤ xs.length) :
    (List.range n).map (xs.getD · d) = xs.take n := by
  refine List.ext_getElem (by simp [h]) fun j hj _ => ?_
  have hlt : j < xs.length := by simp at hj; omega
  simp [hlt]

/-- The words of a register write one after another, each high byte first. -/
theorem registerData_of_supplied_take (hs : q.valueCount ≤ q.values.length) :
    registerData q = some ((q.values.take q.valueCount).flatMap fun v => [hiByte v, loByte v]) := by
  rw [registerData_of_supplied hs, ← map_getD_range 0#16 hs, List.flatMap_map]
  rfl

/-- Bit `c mod 16` of a bitmap word is bit `c mod 8` of the byte that `c div 8` selects (20_memory.md R47). -/
theorem getLsbD_parity_byte (w : Half) (c : Nat) :
    (if c / 8 % 2 = 0 then loByte w else hiByte w).getLsbD (c % 8) = w.getLsbD (c % 16) := by
  split
  · have : c % 8 = c % 16 := by omega
    simp [loByte, this.symm, Nat.mod_lt]
  · have : 8 + c % 8 = c % 16 := by omega
    simp [hiByte, this, Nat.mod_lt]

/-! ### What G.GEN writes -/

/-- The quantity a frame generated for `q` carries; a single write has none (R189, R197). -/
def wireQuantity (q : Query) : Half :=
  if q.function = 5 ∨ q.function = 6 then 0
  else if q.function = 16 ∧ q.quantity = 0 then BitVec.ofNat 16 q.valueCount else q.quantity

theorem wireQuantity_of_read (hc : classify q.function = some .read) : wireQuantity q = q.quantity := by
  rcases read_code_cases hc with hf | hf | hf | hf <;> simp [wireQuantity, hf]

theorem wireQuantity_of_single (hf : q.function = 5 ∨ q.function = 6) : wireQuantity q = 0 := if_pos hf

theorem wireQuantity_of_coils (hf : q.function = 15) : wireQuantity q = q.quantity := by
  simp [wireQuantity, hf]

theorem wireQuantity_of_registers (hf : q.function = 16) : wireQuantity q = emittedQuantity q := by
  simp [wireQuantity, hf, emittedQuantity]

/-- A body that G.GEN writes for `q`, one case for each class of codes (R196, R197, R201, R202). -/
inductive GeneratedBody (q : Query) : List Byte → Prop
  | read (hc : classify q.function = some .read) : GeneratedBody q (bodyRead q)
  | single (hf : q.function = 5 ∨ q.function = 6) (v : Half) :
      GeneratedBody q [hiByte q.address, loByte q.address, hiByte v, loByte v]
  | multi {data} (hc : classify q.function = some .multi) (hd : 9 + data.length = generatedLength q) :
      GeneratedBody q ([hiByte q.address, loByte q.address, hiByte (wireQuantity q), loByte (wireQuantity q),
        countByte data.length] ++ data)

theorem genBody_next {body : List Byte} (hc : classify q.function ≠ none) (h : genBody q = some body) :
    GeneratedBody q body := by
  rcases recognized_cases hc with hr | hf | hf | hf
  · rw [genBody_of_read hr] at h
    cases h
    exact .read hr
  · rw [genBody_of_single hf] at h
    obtain ⟨v, -, rfl⟩ := Option.map_eq_some_iff.mp h
    exact .single hf v
  · rw [genBody_of_coils hf] at h
    obtain ⟨data, hdata, rfl⟩ := Option.map_eq_some_iff.mp h
    rw [← coilData_length hdata, ← wireQuantity_of_coils hf]
    exact .multi (by rw [hf]; rfl) (by simp [generatedLength, hf, coilData_length hdata, coilByteCount])
  · rw [genBody_of_registers hf] at h
    obtain ⟨data, hdata, rfl⟩ := Option.map_eq_some_iff.mp h
    rw [← registerData_length hdata, ← wireQuantity_of_registers hf]
    exact .multi (by rw [hf]; rfl) (by simp [generatedLength, hf, registerData_length hdata])

/-- The length of R182. -/
theorem GeneratedBody.length {body : List Byte} (h : GeneratedBody q body) : body.length + 4 = generatedLength q := by
  cases h with
  | read hc => rcases read_code_cases hc with hf | hf | hf | hf <;> simp [generatedLength, hf, bodyRead]
  | single hf => rcases hf with hf | hf <;> simp [generatedLength, hf]
  | multi _ hd => rw [← hd]; simp; omega

theorem generatedLength_le (hp : WithinPreconditions q) : generatedLength q ≤ 264 := by
  obtain ⟨-, hcoils, hregs⟩ := hp
  unfold generatedLength
  split
  case isTrue hf => have := (hcoils hf).1; omega
  case isFalse =>
    split
    case isTrue hf => have := hregs hf; omega
    case isFalse => decide

/-- Within the preconditions every word the body needs is there (10_state.md R27). -/
theorem genBody_of_supplied (hc : classify q.function ≠ none) (hp : WithinPreconditions q)
    (hs : q.valueCount ≤ q.values.length) : ∃ body, genBody q = some body := by
  obtain ⟨hsingle, hcoils, -⟩ := hp
  rcases recognized_cases hc with hr | hf | hf | hf
  · exact ⟨_, genBody_of_read hr⟩
  · rw [genBody_of_single hf, bodySingle, wordAt_of_lt (hsingle hf) hs]
    exact ⟨_, rfl⟩
  · rw [genBody_of_coils hf, bodyCoils, coilData_of_supplied (hcoils hf).2 hs]
    exact ⟨_, rfl⟩
  · rw [genBody_of_registers hf, bodyRegisters, registerData_of_supplied hs]
    exact ⟨_, rfl⟩

/-- G.GEN with its preconditions met and its words there: one frame, of length `L`, where it fits, and nothing
otherwise (R181 to R188). -/
theorem generate_writes {body : List Byte} {L : Nat} (n : Nat) (s : State) (hc : classify q.function ≠ none)
    (hp : WithinPreconditions q) (hb : genBody q = some body) (hL : body.length + 4 = L) :
    (L ≤ n → ∃ m, generate q n s =
      .next { s with query := q, out := m, result := .generated (L : Nat), events := [] } ∧
      OutHolds s.out m (crcAppended ([q.slaveAddress, q.function] ++ body))) ∧
    (n < L → generate q n s = .next { s with query := q, result := .generated (-1), events := [] }) := by
  have hpre := (genPrecondition_iff hc).mpr hp
  subst hL
  refine ⟨fun hn => ⟨_, ?_, outHolds_writeFrom s.out (genFrame q body)⟩, generate_of_too_small s hc hpre hb⟩
  rw [generate_of_fits s hc hpre hb hn, genFrame_length]
  rfl

end

/-! ### The rows (44_generator.md R190 to R197) -/

@[simp] theorem withFunction_function (a : GenArgs) (f : Byte) : (a.withFunction f).function = f := rfl
@[simp] theorem withFunction_quantity (a : GenArgs) (f : Byte) : (a.withFunction f).quantity = a.quantity := rfl
@[simp] theorem withFunction_valueCount (a : GenArgs) (f : Byte) : (a.withFunction f).valueCount = a.valueCount := rfl

/-- The rows `mk` makes are G.GEN with function code `f` (R180). -/
def GivesGGen (f : Byte) (mk : GenArgs → Nat → Instr) : Prop :=
  ∀ a n s, exec (mk a n) s = generate (a.withFunction f) n s

/-- Settles O56: each row's meaning is that of G.GEN, with the row's code. -/
theorem generatorRowsAreGGen : Obligations.GeneratorRowsAreGGen := by
  intro s f a n mk hmk
  have hrow : GivesGGen f mk := by
    simp only [List.mem_cons, List.not_mem_nil, or_false, Prod.mk.injEq] at hmk
    rcases hmk with ⟨rfl, rfl⟩ | ⟨rfl, rfl⟩ | ⟨rfl, rfl⟩ | ⟨rfl, rfl⟩ | ⟨rfl, rfl⟩ | ⟨rfl, rfl⟩ | ⟨rfl, rfl⟩ | ⟨rfl, rfl⟩ <;>
      exact fun _ _ _ => rfl
  exact hrow a n s

/-- Settles O50: R187 asks nothing of a read code, whose body is four bytes. -/
theorem generatedReadFrames : Obligations.GeneratedReadFrames := by
  intro s f a n mk hmk covered
  have hrow : classify f = some .read ∧ GivesGGen f mk := by
    simp only [List.mem_cons, List.not_mem_nil, or_false, Prod.mk.injEq] at hmk
    rcases hmk with ⟨rfl, rfl⟩ | ⟨rfl, rfl⟩ | ⟨rfl, rfl⟩ | ⟨rfl, rfl⟩ <;> exact ⟨rfl, fun _ _ _ => rfl⟩
  obtain ⟨hread, hexec⟩ := hrow
  have hc : classify f ≠ none := by simp [hread]
  rw [hexec]
  exact generate_writes n s hc (withinPreconditions_of_read hread) (genBody_of_read hread) rfl

/-- Settles O51: the one word the body needs is the first. -/
theorem generatedSingleWriteFrames : Obligations.GeneratedSingleWriteFrames := by
  intro s f a n mk hmk v vs hv hcount covered
  have hrow : (f = 5 ∨ f = 6) ∧ GivesGGen f mk := by
    simp only [List.mem_cons, List.not_mem_nil, or_false, Prod.mk.injEq] at hmk
    rcases hmk with ⟨rfl, rfl⟩ | ⟨rfl, rfl⟩ <;> exact ⟨by simp, fun _ _ _ => rfl⟩
  obtain ⟨hf, hexec⟩ := hrow
  have hc : classify f ≠ none := by rcases hf with rfl | rfl <;> decide
  have hp : WithinPreconditions (a.withFunction f) := by
    rcases hf with rfl | rfl <;> simpa [WithinPreconditions] using hcount
  have hword : wordAt (a.withFunction f) 0 = some v := by
    have : 0 < a.valueCount := hcount
    simp [wordAt, GenArgs.withFunction, this, hv]
  have hb : genBody (a.withFunction f) = some [hiByte a.address, loByte a.address, hiByte v, loByte v] := by
    rw [genBody_of_single hf, bodySingle, hword]
    rfl
  rw [hexec]
  exact generate_writes n s hc hp hb rfl

/-- Settles O52: `coilData` has its words, and its bytes are `extractLsb'` of them by the index's parity. -/
theorem generatedCoilFrames : Obligations.GeneratedCoilFrames := by
  intro s a n hquantity hwords hsupplied N data covered
  have hp : WithinPreconditions (a.withFunction 0x0F) := by simpa [WithinPreconditions] using ⟨hquantity, hwords⟩
  have hdata : coilData (a.withFunction 0x0F) = some data := by
    rw [coilData_of_supplied (q := a.withFunction 0x0F) hwords hsupplied]
    simp only [setWidth_shiftRight_parity]
    rfl
  have hb : genBody (a.withFunction 0x0F) = some ([hiByte a.address, loByte a.address, hiByte a.quantity,
      loByte a.quantity, countByte N] ++ data) := by
    rw [genBody_of_coils rfl, bodyCoils, hdata]
    rfl
  have hc : classify (0x0F : Byte) ≠ none := by decide
  have hL := (genBody_next (q := a.withFunction 0x0F) hc hb).length
  obtain ⟨hfits, hsmall⟩ := generate_writes (q := a.withFunction 0x0F) n s hc hp hb hL
  refine ⟨hfits, hsmall, fun c hlt => ?_⟩
  have hbyte : c / 8 < N := by omega
  have hword : c / 8 / 2 = c / 16 := Nat.div_div_eq_div_mul c 8 2
  rw [← getLsbD_parity_byte, ← hword]
  simp [data, hbyte, loByte, hiByte]

/-- Settles O53: `registerData` has its words, and the count of its bytes is twice that of the words. -/
theorem generatedRegisterFrames : Obligations.GeneratedRegisterFrames := by
  intro s a n hcount hsupplied q data covered
  have hp : WithinPreconditions (a.withFunction 0x10) := by simpa [WithinPreconditions] using hcount
  have hdata : registerData (a.withFunction 0x10) = some data := registerData_of_supplied_take hsupplied
  have hb : genBody (a.withFunction 0x10) = some ([hiByte a.address, loByte a.address, hiByte q, loByte q,
      countByte (2 * a.valueCount)] ++ data) := by
    rw [genBody_of_registers rfl, bodyRegisters, hdata]
    rfl
  have hc : classify (0x10 : Byte) ≠ none := by decide
  have hL := (genBody_next (q := a.withFunction 0x10) hc hb).length
  exact generate_writes (q := a.withFunction 0x10) n s hc hp hb hL

/-- Settles O54: the code is tested first; the body of a recognized one has its words, and its length is `L`. -/
theorem gGenAnswersByTheOrderOfTests : Obligations.GGenAnswersByTheOrderOfTests := by
  refine ⟨fun q n s => generate_of_unrecognized n s, fun q n s hc hp hs => ?_⟩
  obtain ⟨body, hb⟩ := genBody_of_supplied hc hp hs
  have hL := (genBody_next hc hb).length
  obtain ⟨hfits, hsmall⟩ := generate_writes n s hc hp hb hL
  refine ⟨hsmall, fun hn => ?_⟩
  obtain ⟨m, hm, hout⟩ := hfits hn
  exact ⟨m, body, hm, by simpa [crcAppended] using hL, hout⟩

/-- Settles O55: G.GEN tests the preconditions before the words and the capacity. -/
theorem generatorRefusesOutsidePreconditions : Obligations.GeneratorRefusesOutsidePreconditions := by
  intro q n s hc hp
  have hpre : genPrecondition q = false := by simpa using mt (genPrecondition_iff hc).mp hp
  simp [generate, hc, hpre]

/-! ### A generated frame parsed back (44_generator.md R198) -/

/-- The header fields of the descriptor are those of a frame generated for `q`. -/
def HasHeader (q : Query) (d : Desc) : Prop :=
  d.slaveAddress = q.slaveAddress ∧ d.function = q.function ∧ d.address = q.address ∧ d.quantity = wireQuantity q

/-- A generated body, after its head, leads a fresh Query descriptor to the CRC with the header of `q`. -/
theorem GeneratedBody.runs {q : Query} {body : List Byte} (h : GeneratedBody q body) (hp : WithinPreconditions q)
    (ctx : Context) :
    ∃ d hs, Runs ([q.slaveAddress, q.function] ++ body) 0 (Desc.fresh .query ctx) d hs ∧ hs.length ≤ 7 ∧
      d.error = .none ∧ d.state = .crcLo ∧ d.runningCrc = crc16 ([q.slaveAddress, q.function] ++ body) ∧
      HasHeader q d := by
  cases h with
  | read hc =>
    exact ⟨_, _, runs_address_quantity ctx _ _ hc rfl rfl, by simp, rfl, rfl, rfl, rfl, rfl, rfl,
      (wireQuantity_of_read hc).symm⟩
  | single hf v =>
    have hc : classify q.function = some .single := by rcases hf with hf | hf <;> rw [hf] <;> rfl
    exact ⟨_, _, runs_single_write ctx _ v hc, by simp, rfl, rfl, rfl, rfl, rfl, rfl, (wireQuantity_of_single hf).symm⟩
  | @multi data hc hd =>
    have hl : data.length ≤ 255 := by have := generatedLength_le hp; omega
    exact ⟨_, _, runs_multi_query ctx _ _ hc hl, fieldHooks_length_le (.qWriteMultiRegs 0 0 0 data 0), rfl, rfl, by simp,
      rfl, rfl, rfl, rfl⟩

/-- Bytes of that many that the space reads as are those it holds. -/
theorem OutHolds.bytes_eq {m m' : Memory} {bs cs : List Byte} (h : OutHolds m m' bs) (hl : cs.length = bs.length)
    (hr : ∀ k, (hk : k < cs.length) → Memory.read m' k = some cs[k]) : cs = bs :=
  List.ext_getElem hl fun k hk hk' => Option.some.inj ((hr k hk).symm.trans (h.1 k hk'))

/-- What G.GEN wrote where it returned a length (R180 to R188). -/
theorem generate_length {q : Query} {n L : Nat} {s t : State} (h : generate q n s = .next t)
    (hr : t.result = .generated L) :
    ∃ body, GeneratedBody q body ∧ WithinPreconditions q ∧ L = (genFrame q body).length ∧
      OutHolds s.out t.out (genFrame q body) := by
  rcases generate_next h with ⟨-, rfl⟩ | ⟨hc, hp, body, hb, ⟨-, rfl⟩ | ⟨-, rfl⟩⟩
  · simp [unknownFunctionResult] at hr
  · simp [bufferTooSmall] at hr
  · have hL : L = (genFrame q body).length := Int.ofNat.inj (Result.generated.inj hr.symm)
    exact ⟨body, genBody_next hc hb, (genPrecondition_iff hc).mp hp, hL, outHolds_writeFrom s.out _⟩

/-- Settles O57: the bytes read from OUT are the frame written, whose body runs a fresh Query descriptor to the CRC,
and the CRC is theirs. -/
theorem generatedFrameParsesBack : Obligations.GeneratedFrameParsesBack := by
  intro q n s t L bs h hr _ hlen hread hreset hok
  obtain ⟨body, hbody, hp, hlength, hout⟩ := generate_length h hr
  obtain rfl := hout.bytes_eq (hlen.trans hlength) hread
  obtain ⟨d, hs, hruns, hhooks, herr, hlo, hcrc, hslave, hfunction, haddress, hquantity⟩ := hbody.runs hp t.d.userContext
  have hreset' : t.hooksReset = true := by rw [generate_frame h]; exact hreset
  have hok' : RepliesOk 8 t := by rw [generate_frame h]; exact hok
  have hfresh : FreshFor .query (initialise .query t) := ⟨⟨rfl, hreset'⟩, rfl⟩
  obtain ⟨v, hv, hd, hconsumed, -⟩ :=
    execute_crcAppended (s := initialise .query t) hruns herr hlo hcrc hfresh (hok'.of_le (by omega))
  refine ⟨_, v, exec_pInit .query t, hv, ?_⟩
  rw [hd]
  exact ⟨hlength ▸ hconsumed, rfl, herr, hslave, hfunction, haddress, hquantity⟩

end Sys2Proof.Machine

/-! PROOFS. The statements of 60_exceptions.md. -/

namespace Sys2Proof.Machine

/-! ### Two hook tables with every reply ok (60_exceptions.md R217, 42_parser_states.md R123) -/

/-- `s` and `u` agree in every register the parser reads but the hook table, and each has `n` ok replies to come. -/
structure AlikeButTable (n : Nat) (s u : State) : Prop where
  desc       : u.d = s.d
  hooksReset : u.hooksReset = s.hooksReset
  okLeft     : RepliesOk n s
  okRight    : RepliesOk n u

theorem AlikeButTable.of_le {m n : Nat} {s u : State} (h : AlikeButTable n s u) (hle : m ≤ n) : AlikeButTable m s u :=
  ⟨h.desc, h.hooksReset, h.okLeft.of_le hle, h.okRight.of_le hle⟩

theorem AlikeButTable.setDesc {n : Nat} {s u : State} (h : AlikeButTable n s u) (d : Desc) :
    AlikeButTable n (s.setDesc d) (u.setDesc d) :=
  ⟨rfl, h.hooksReset, h.okLeft, h.okRight⟩

/-- Where a hook phase with a hook due goes through, H.RESET has been applied (70_reset_and_hazards.md R242). -/
theorem fireHooks_hooksReset {h : Hook} {hs : List Hook} {s t : State} (ht : fireHooks (h :: hs) s = .next t) :
    s.hooksReset = true := by
  cases hr : s.hooksReset with
  | true => rfl
  | false => simp [fireHooks, hr] at ht

/-- Whether the hook phase answers next depends on H.RESET alone, and with ok replies it writes no register. -/
theorem AlikeButTable.fireHooks {hs : List Hook} {n : Nat} {s u s' : State} (h : AlikeButTable (hs.length + n) s u)
    (hs' : fireHooks hs s = .next s') : ∃ u', fireHooks hs u = .next u' ∧ AlikeButTable n s' u' := by
  have hanswers : ∃ u', Machine.fireHooks hs u = .next u' := by
    cases hs with
    | nil => exact ⟨u, rfl⟩
    | cons k rest => exact fireHooks_answers _ u (h.hooksReset.trans (fireHooks_hooksReset hs'))
  obtain ⟨u', hu'⟩ := hanswers
  obtain ⟨hd, hok⟩ := fireHooks_all_ok hs' n h.okLeft
  obtain ⟨hd', hok'⟩ := fireHooks_all_ok hu' n h.okRight
  obtain ⟨-, hreset, -⟩ := (fireHooks_next hs').2.fields
  obtain ⟨-, hreset', -⟩ := (fireHooks_next hu').2.fields
  exact ⟨u', hu', by rw [hd', hd, h.desc], by rw [hreset', hreset, h.hooksReset], hok, hok'⟩

/-- One byte, which makes at most two hooks due, goes the same way with both tables. -/
theorem AlikeButTable.stepByte {b : Byte} {i n : Nat} {s u s' : State} (h : AlikeButTable (n + 2) s u)
    (hs' : stepByte b i s = .next s') : ∃ u', stepByte b i u = .next u' ∧ AlikeButTable n s' u' := by
  obtain ⟨st, v, hst, hv, rfl⟩ := stepByte_parts hs'
  have hhooks : st.hooks.length ≤ 2 := storeByte_hooks_length hst
  have hle : st.hooks.length + n ≤ n + 2 := by omega
  obtain ⟨w, hw, hvw⟩ := ((h.of_le hle).setDesc st.d).fireHooks hv
  refine ⟨w.setDesc (v.d.advance st.next), ?_, hvw.setDesc _⟩
  simp [Machine.stepByte, h.desc, hst, hw, hvw.desc]

/-- The loop goes the same way with both tables. -/
theorem AlikeButTable.consume {bs : List Byte} {i j : Nat} {s u s' : State} (h : AlikeButTable (2 * bs.length) s u)
    (hs' : consume bs i s = .next (j, s')) : ∃ u', consume bs i u = .next (j, u') ∧ u'.d = s'.d := by
  induction bs generalizing i s u with
  | nil => cases hs'; exact ⟨u, rfl, h.desc⟩
  | cons b rest ih =>
    cases hg : gated s.d with
    | true =>
      rw [consume_gated _ _ _ hg] at hs'
      cases hs'
      exact ⟨u, consume_gated _ _ _ (h.desc ▸ hg), h.desc⟩
    | false =>
      rw [consume_cons _ _ _ _ hg, andThen_eq_next] at hs'
      obtain ⟨v, hv, hs'⟩ := hs'
      obtain ⟨w, hw, hvw⟩ := h.stepByte hv
      obtain ⟨u', hu', hd⟩ := ih hvw hs'
      refine ⟨u', ?_, hd⟩
      rw [consume_cons _ _ _ _ (h.desc ▸ hg), hw]
      exact hu'

/-- Settles O38: the calls start alike but for the table, and the loop takes at most two replies a byte. -/
theorem absentHooksActAsOk : Obligations.AbsentHooksActAsOk := by
  intro bs m s t h hok
  obtain ⟨hi, j, v, hv, rfl⟩ := execute_next h
  have hstart : AlikeButTable (2 * bs.length) (s.startCall bs) (State.startCall { s with hookEn := m } bs) :=
    ⟨rfl, rfl, hok, hok⟩
  obtain ⟨u, hu, hd⟩ := hstart.consume hv
  exact ⟨_, execute_of_consume hi hu, hd, rfl⟩

/-! ### Complete and a latched error (60_exceptions.md R218, R221, 42_parser_states.md R121, R140) -/

/-- Settles O45: by the operation the row runs. The loop of P.EXEC stops before its first byte and P.STEP does not
answer next; of the other rows, P.INIT and P.RESET alone write a register of the parser. -/
theorem terminalStatesHoldUntilInit : Obligations.TerminalStatesHoldUntilInit := by
  intro i s t hterminal h hinit hreset
  have hgated : gated s.d = true := gated_eq_true_iff.mpr hterminal
  cases exec_next h with
  | generates _ _ h => rw [generate_frame h]; exact ⟨rfl, rfl⟩
  | consumes _ _ _ hu =>
    rw [consume_gated _ _ _ (show gated (s.startCall _).d = true from hgated)] at hu
    cases hu
    exact ⟨rfl, rfl⟩
  | stepsByte _ hg => exact absurd (hgated.symm.trans hg) (by decide)
  | initialises k => exact absurd rfl (hinit k)
  | resets => exact absurd rfl hreset
  | updatesCrc | computesCrc | resetsHooks | setsHook | writesContext => exact ⟨rfl, rfl⟩

end Sys2Proof.Machine

/-! PROOFS. The statements of 70_reset_and_hazards.md. -/

namespace Sys2Proof.Machine

/-! ### Before P.INIT (70_reset_and_hazards.md R240, R242) -/

/-- A row that gives bytes to PARSER is P.STEP, or P.EXEC on some bytes (43_parser_frames.md R160). -/
theorem feedsParser_cases {i : Instr} (h : feedsParser i = true) :
    (∃ b n, i = .pStep b n) ∨ ∃ bs, ∀ s, exec i s = execute bs s := by
  cases hk : frameKind i with
  | some k => exact .inr ⟨_, exec_of_frameKind hk⟩
  | none =>
    cases i
    case pStep b n => exact .inl ⟨b, n, rfl⟩
    case pExec bs => exact .inr ⟨bs, exec_pExec bs⟩
    all_goals simp [feedsParser, hk] at h

theorem execute_of_uninitialised (bs : List Byte) {s : State} (hi : s.initialised = false) :
    execute bs s = .refused .uninitialised := by
  simp [execute, hi]

/-! ### After P.INIT and before H.RESET (70_reset_and_hazards.md R242) -/

theorem fireHooks_of_hooks_undefined (h : Hook) (hs : List Hook) {s : State} (hr : s.hooksReset = false) :
    fireHooks (h :: hs) s = .refused .hooksUndefined := by
  simp [fireHooks, hr]

/-- A byte that makes a hook due is refused. -/
theorem stepByte_of_hooks_undefined {b : Byte} {i : Nat} {s : State} {d : Desc} {h : Hook} {hs : List Hook}
    {n : ParserState} (hr : s.hooksReset = false)
    (hst : storeByte b i (s.d.checksum b) = some { d := d, hooks := h :: hs, next := n }) :
    stepByte b i s = .refused .hooksUndefined := by
  have hfire : fireHooks (h :: hs) (s.setDesc d) = .refused .hooksUndefined := fireHooks_of_hooks_undefined h hs hr
  simp [stepByte, hst, hfire]

/-- A call whose first byte is refused is refused. -/
theorem execute_of_first_byte_refused {b : Byte} {bs : List Byte} {s : State} {r : Refusal} (hi : s.initialised = true)
    (hg : gated s.d = false) (h : stepByte b 0 (s.startCall (b :: bs)) = .refused r) :
    execute (b :: bs) s = .refused r := by
  have hg' : gated (s.startCall (b :: bs)).d = false := hg
  simp [execute, hi, consume_cons _ _ _ _ hg', h]

/-- Settles O33: the test of `initialised` comes first in every one of these rows, and the first byte a fresh
descriptor takes makes on-slave-address due (42_parser_states.md R125). -/
theorem parserRefusedBeforeBringUp : Obligations.ParserRefusedBeforeBringUp := by
  refine ⟨fun i s hrow hi => ?_, fun b bs k s hi hr hd => ?_⟩
  · rcases hrow with hf | rfl
    · rcases feedsParser_cases hf with ⟨b, n, rfl⟩ | ⟨bs, hexec⟩
      · exact exec_pStep_of_uninitialised b n hi
      · exact (hexec s).trans (execute_of_uninitialised bs hi)
    · exact exec_pReset_of_uninitialised hi
  · have hstate : s.d.state = .slaveAddress := by rw [hd]; rfl
    have hg : gated s.d = false := by rw [hd]; rfl
    have hst : storeByte b 0 (s.d.clearPayload.checksum b) = some (storeSlaveAddress b (s.d.clearPayload.checksum b)) :=
      storeByte_slaveAddress b 0 _ (by simpa using hstate)
    exact execute_of_first_byte_refused hi hg (stepByte_of_hooks_undefined (s := s.startCall (b :: bs)) hr hst)

/-! ### The state after hardware reset (70_reset_and_hazards.md R240) -/

/-- Settles O59: the reset descriptor is P.INIT(Query)'s, and both byte spaces are empty (log entries 2, 5, 6). -/
theorem resetSatisfiesTheInvariant : Obligations.ResetSatisfiesTheInvariant :=
  ⟨⟨.fresh .query _, .nil, .nil⟩, rfl, rfl⟩

end Sys2Proof.Machine
